-- ==== Sys2Proof/Word.lean ====
section
/-! DEFINITION. The word types of the RECC core (00_scope.md R7): a byte, a 16-bit word, the 9-bit length. -/

namespace Sys2Proof

/-- An 8-bit byte (R7). -/
abbrev Byte := BitVec 8

/-- A 16-bit word: the CRC accumulator, a little-endian pair of bytes (R25, R64). -/
abbrev Word := BitVec 16

/-- A 9-bit frame length (R23, R24). -/
abbrev Len := BitVec 9

end Sys2Proof
end

