-- ==== Sys2Proof/Config.lean ====
section
/-! DEFINITION. What the spec leaves OPEN (00_scope.md R4, 93_implementation_defined.md): parameters that are fixed
when the block is built, and the free values. Each is a constant without a body, so no proof can see which it is.
The parameters whose value the spec gives stand in Machine/Parameters.lean. -/

namespace Sys2Proof.Config

/-- `IDENT_STRING`, any finite byte sequence (R4, D9, U11). -/
opaque identString : List Byte

/-- One less than `TICKS_PER_US` (R4, D5): written so that `ticksPerUs` is positive. -/
opaque ticksPerUsLessOne : Nat

/-- `TICKS_PER_US`, a positive number of clock ticks (R4, D5, U18). -/
def ticksPerUs : Nat := ticksPerUsLessOne + 1

/-- `ADDR_EXT_BITS`, 0 to 3 (R4, D10, U7). -/
opaque addrExtBits : Fin 4

/-- `CE_LEVEL`: the electrical level that means active (R4, R9, D6). -/
opaque ceLevel : Bool

/-- `OE_LEVEL` (R4, R9, D6). -/
opaque oeLevel : Bool

/-- `PGM_LEVEL` (R4, R9, D6). -/
opaque pgmLevel : Bool

/-- `LLE_LEVEL` (R4, R9, D6). -/
opaque lleLevel : Bool

/-- `HLE_LEVEL` (R4, R9, D6). -/
opaque hleLevel : Bool

/-- The free value of `d_in` at a capture the tape `env.chipIn` does not answer, by capture number
(R187, D19, U5; log 6). -/
opaque freeByte : Nat → Byte

/-- The free advance of time, in ticks, before a chip-port operation, by operation number
(R180, U16; log 5). -/
opaque freeAdvance : Nat → Nat

end Sys2Proof.Config
end

