-- ==== Sys2Proof/Machine/Bytes.lean ====
section
/-! DEFINITION. Byte order (20_memory.md R64: every multi-byte integer is little-endian) and the byte layout of the
opcode table's numbers. -/

namespace Sys2Proof.Machine

/-- `v[7:0]` (R7). -/
def loByte (v : Word) : Byte := v.setWidth 8

/-- `v[15:8]` (R7). -/
def hiByte (v : Word) : Byte := (v >>> 8).setWidth 8

/-- The 16-bit value `hi * 256 + lo`, the pair whose low byte comes first on the wire (R64, R150). -/
def ofLoHi (lo hi : Byte) : Word := hi ++ lo

/-- The two bytes of a 16-bit value in wire order, low byte first (R64, R172). -/
def le16 (v : Word) : List Byte := [loByte v, hiByte v]

/-- The `n` bytes of a number of the opcode table: the FIRST byte of the frame is the most significant one, as the
table writes `0x617EA8` for 0x61, 0x7E, 0xA8 (log 8). -/
def bytesOfTableNumber (n w : Nat) : List Byte :=
  (List.range n).map fun i => BitVec.ofNat 8 (w >>> (8 * (n - 1 - i)))

/-- `f v`, with the numeral of `v` computed first: it keeps a long evaluation by the kernel shallow and changes no
value (`evalWord_eq` in Laws/Crc.lean). -/
def evalWord {α : Type} (v : Word) (f : Word → α) : α :=
  match v.toNat with
  | 0 => f 0
  | n + 1 => f (BitVec.ofNat 16 (n + 1))

end Sys2Proof.Machine
end

