-- ==== Sys2Proof/Machine/Parameters.lean ====
section
/-! DEFINITION. The parameters of 00_scope.md R4 whose value the spec gives (U20: a corrected literal is a change of
one line here). -/

namespace Sys2Proof.Machine

/-- `BUF_CAP`, the capacity of the frame buffer (R4, R26). -/
def bufCap : Nat := 260

/-- `PAGE`, the bytes of a page (R4). -/
def pageSize : Nat := 256

/-- `SEL_I`, `'i'` (R4, R92, D2). -/
def selI : Byte := 0x69

/-- `SEL_R`, `'r'` (R4, R92, D2). -/
def selR : Byte := 0x72

/-- `SEL_W`, `'w'` (R4, R92, D2). -/
def selW : Byte := 0x77

/-- `SEL_F`, `'f'` (R4, R92, D2). -/
def selF : Byte := 0x66

/-- `LEN_I` (R4, R91). -/
def lenI : Len := 2

/-- `LEN_R` (R4, R91). -/
def lenR : Len := 4

/-- `LEN_W` (R4, R91). -/
def lenW : Len := 260

/-- `LEN_F` (R4, R91). -/
def lenF : Len := 4

/-- `RSP_ACK`, `'a'` (R4, R100). -/
def rspAck : Byte := 0x61

/-- `RSP_ERR`, `'e'` (R4, R101). -/
def rspErr : Byte := 0x65

/-- `ACK_MAGIC`, first byte: a constant, not computed (R4, R100, D3). -/
def ackMagic0 : Byte := 0x7E

/-- `ACK_MAGIC`, second byte (R4, R100, D3). -/
def ackMagic1 : Byte := 0xA8

/-- `CRC_SEED` (R4, R121). -/
def crcSeed : Word := 0xFFFF

/-- `CRC_POLY_R`, the reflected polynomial (R4, R122, D1; log 7). -/
def crcPolyR : Word := 0xA001

/-- `DONE_LIT`, `"done"` (R4, R104). -/
def doneLit : List Byte := [0x64, 0x6F, 0x6E, 0x65]

/-- The two CRC bytes of the DONE response as the opcode table fixes them (R104). -/
def doneCrcBytes : List Byte := [0xC3, 0x42]

/-- `T_OE` in microseconds (R4). -/
def tOE : Nat := 1

/-- `T_SU` in microseconds (R4). -/
def tSU : Nat := 5

/-- `T_PW` in microseconds (R4). -/
def tPW : Nat := 100

/-- `T_HD` in microseconds (R4). -/
def tHD : Nat := 5

end Sys2Proof.Machine
end

