-- ==== Sys2Proof/Machine/Crc.lean ====
section
/-! DEFINITION. The functions of the CRC16 accumulator (40_crc16.md): one update step and the CRC of a sequence. The
operations on the register stand in Machine/Ops.lean. -/

namespace Sys2Proof.Machine

/-- One of the eight shifts of `CrcUpdate`: a logical right shift, then the polynomial if the bit shifted out was 1
(R122). -/
def crcShift (x : Word) : Word :=
  if x.getLsbD 0 then (x >>> 1) ^^^ crcPolyR else x >>> 1

/-- `CrcUpdate(c, b)` (R122): the byte enters at the low 8 bits, then eight shifts. -/
def crcUpdate (c : Word) (b : Byte) : Word :=
  Nat.repeat crcShift 8 (c ^^^ b.setWidth 16)

/-- `CRC16(s)` (R124): the fold of `CrcUpdate` over the sequence from the seed. -/
def crc16 (s : List Byte) : Word :=
  s.foldl crcUpdate crcSeed

/-- Entry `i` of the table form (R123). -/
def crcTable (i : Byte) : Word := crcUpdate 0 i

end Sys2Proof.Machine
end

