-- ==== Sys2Proof/Syntax.lean ====
section
/-! DEFINITION. The instructions: one constructor for each row of spec/opcode_table.json. A request row carries the
bytes of its frame after the selector (30_encoding.md R93 to R96); a response row carries the bytes its frame does not
fix (R100 to R104). -/

namespace Sys2Proof

/-- The ten rows of the opcode table. -/
inductive Instr where
  /-- IDENTIFY, request format I (R93): `'i'`, CRC low, CRC high. -/
  | identify (crc : Word)
  /-- READ, request format R (R94): `'r'`, `addr_lo`, `addr_hi`, CRC low, CRC high. -/
  | read (addrLo addrHi : Byte) (crc : Word)
  /-- WRITE, request format W (R95): `'w'`, `addr_lo`, `addr_hi`, `data[0..255]`, CRC low, CRC high. -/
  | write (addrLo addrHi : Byte) (data : List Byte) (crc : Word)
  /-- FASTDUMP, request format F (R96): `'f'`, `low_latch_byte`, `unused_byte`, CRC low, CRC high. -/
  | fastDump (lowLatch unused : Byte) (crc : Word)
  /-- ACK, response (R100): `'a'`, 0x7E, 0xA8. -/
  | ack
  /-- ERR, response (R101): `'e'`, then the computed CRC, low byte first. -/
  | err (computed : Word)
  /-- IDENT, response (R102): `IDENT_STRING`, then its CRC. -/
  | ident
  /-- PAGE, response (R103): the page, then its CRC. -/
  | page (data : List Byte) (crc : Word)
  /-- DONE, response (R104): `"done"`, then its CRC. -/
  | done
  /-- UNRECOGNIZED (R105): a byte that is none of the four selectors. -/
  | unrecognized (b : Byte)
  deriving DecidableEq, Repr

end Sys2Proof
end

