-- ==== Sys2Proof/WellFormed.lean ====
section
/-! DEFINITION. Well-formed instructions: the checks the types of Syntax.lean do not make. -/

namespace Sys2Proof

/-- A WRITE or a PAGE carries exactly one page (R95, R103), and an unrecognized selector is none of the four
selectors (R105); every other operand may have any value. -/
def Instr.WellFormed : Instr → Bool
  | .identify _ => true
  | .read _ _ _ => true
  | .write _ _ data _ => data.length == Machine.pageSize
  | .fastDump _ _ _ => true
  | .ack => true
  | .err _ => true
  | .ident => true
  | .page data _ => data.length == Machine.pageSize
  | .done => true
  | .unrecognized b =>
    b != Machine.selI && b != Machine.selR && b != Machine.selW && b != Machine.selF

end Sys2Proof
end

