-- ==== Sys2Proof/Decode.lean ====
section
/-! DEFINITION. The decoder, total on any bytes, and after it the encoder (30_encoding.md). Requests are told apart by
their selector (R92, R107); responses are recognised by their position in the exchange (R99, R299), so a decoder of
responses is given the position. -/

namespace Sys2Proof

/-- Where in an exchange the bytes stand. -/
inductive Position where
  /-- The receive stream while `fstate = Idle` (R91, R92). -/
  | request
  /-- The transmit stream right after a completed request: ACK or ERR (R99). -/
  | verdict
  /-- The transmit stream after the ACK of an Identify (R102). -/
  | afterIdentify
  /-- The transmit stream after the ACK of a Read or a FastDump (R103). -/
  | afterRead
  /-- The transmit stream after the ACK of a Write (R104). -/
  | afterWrite
  deriving DecidableEq, Repr

/-- Why bytes are no instruction, by name. -/
inductive Reject where
  /-- There is no byte. -/
  | noByte
  /-- A selector stands first and the frame it announces is not complete (R107). -/
  | incomplete
  /-- Neither an ACK nor an ERR frame (R100, R101). -/
  | notVerdict
  /-- Not `IDENT_STRING` with its CRC (R102). -/
  | notIdent
  /-- Fewer than the 258 bytes of a PAGE (R103). -/
  | notPage
  /-- Not the six bytes of a DONE (R104). -/
  | notDone
  deriving DecidableEq, Repr

/-- The four commands a selector can choose (R22: `Unrecognized` is never stored, C6). -/
inductive Cmd where
  | identify
  | read
  | write
  | fastDump
  deriving DecidableEq, Repr

/-- The selector map (R92): equality with four constants; every other byte selects nothing (R105). -/
def selectorOf (b : Byte) : Option Cmd :=
  if b = Machine.selI then some .identify
  else if b = Machine.selR then some .read
  else if b = Machine.selW then some .write
  else if b = Machine.selF then some .fastDump
  else none

/-- `b` selects a command. -/
def isSelector (b : Byte) : Bool := (selectorOf b).isSome

/-- The selector byte of a command, `KIND` read backwards (R142 to R145). -/
def Cmd.selector : Cmd → Byte
  | .identify => Machine.selI
  | .read => Machine.selR
  | .write => Machine.selW
  | .fastDump => Machine.selF

/-- `LEN`: the bytes after the selector (R91, R142 to R145). -/
def Cmd.len : Cmd → Len
  | .identify => Machine.lenI
  | .read => Machine.lenR
  | .write => Machine.lenW
  | .fastDump => Machine.lenF

/-- The payload and CRC of a WRITE frame, read from the bytes after its address (R95). -/
def splitPage (bs : List Byte) : Option (List Byte × Word × List Byte) :=
  if bs.length < Machine.pageSize then none
  else
    match bs.drop Machine.pageSize with
    | cl :: ch :: rest => some (bs.take Machine.pageSize, Machine.ofLoHi cl ch, rest)
    | _ => none

/-- Decode a request at the front of the receive stream (R91 to R98, R105). -/
def decodeRequest : List Byte → Except Reject (Instr × List Byte)
  | [] => .error .noByte
  | b :: bs =>
    match selectorOf b with
    | none => .ok (.unrecognized b, bs)
    | some .identify =>
      match bs with
      | cl :: ch :: rest => .ok (.identify (Machine.ofLoHi cl ch), rest)
      | _ => .error .incomplete
    | some .read =>
      match bs with
      | lo :: hi :: cl :: ch :: rest => .ok (.read lo hi (Machine.ofLoHi cl ch), rest)
      | _ => .error .incomplete
    | some .write =>
      match bs with
      | lo :: hi :: more =>
        match splitPage more with
        | some (data, crc, rest) => .ok (.write lo hi data crc, rest)
        | none => .error .incomplete
      | _ => .error .incomplete
    | some .fastDump =>
      match bs with
      | low :: unused :: cl :: ch :: rest => .ok (.fastDump low unused (Machine.ofLoHi cl ch), rest)
      | _ => .error .incomplete

/-- Decode the first response to a completed request: ACK (R100) or ERR (R101). -/
def decodeVerdict : List Byte → Except Reject (Instr × List Byte)
  | b0 :: b1 :: b2 :: rest =>
    if b0 = Machine.rspAck ∧ b1 = Machine.ackMagic0 ∧ b2 = Machine.ackMagic1 then .ok (.ack, rest)
    else if b0 = Machine.rspErr then .ok (.err (Machine.ofLoHi b1 b2), rest)
    else .error .notVerdict
  | [] => .error .noByte
  | _ => .error .notVerdict

/-- The bytes of the IDENT response (R102). -/
def identFrame : List Byte :=
  Config.identString ++ Machine.le16 (Machine.crc16 Config.identString)

/-- The bytes of the DONE response, as the opcode table fixes them (R104). -/
def doneFrame : List Byte := Machine.doneLit ++ Machine.doneCrcBytes

/-- Decode an IDENT response (R102). -/
def decodeIdent (bs : List Byte) : Except Reject (Instr × List Byte) :=
  if bs.take identFrame.length = identFrame then .ok (.ident, bs.drop identFrame.length)
  else .error .notIdent

/-- Decode a PAGE response (R103). -/
def decodePage (bs : List Byte) : Except Reject (Instr × List Byte) :=
  match splitPage bs with
  | some (data, crc, rest) => .ok (.page data crc, rest)
  | none => .error .notPage

/-- Decode a DONE response (R104). -/
def decodeDone (bs : List Byte) : Except Reject (Instr × List Byte) :=
  if bs.take doneFrame.length = doneFrame then .ok (.done, bs.drop doneFrame.length)
  else .error .notDone

/-- Decode the bytes that stand at a position of the exchange. -/
def decodeAt : Position → List Byte → Except Reject (Instr × List Byte)
  | .request => decodeRequest
  | .verdict => decodeVerdict
  | .afterIdentify => decodeIdent
  | .afterRead => decodePage
  | .afterWrite => decodeDone

/-- Where an instruction stands in the exchange. -/
def Instr.position : Instr → Position
  | .identify _ => .request
  | .read _ _ _ => .request
  | .write _ _ _ _ => .request
  | .fastDump _ _ _ => .request
  | .ack => .verdict
  | .err _ => .verdict
  | .ident => .afterIdentify
  | .page _ _ => .afterRead
  | .done => .afterWrite
  | .unrecognized _ => .request

/-- The wire bytes of an instruction (R93 to R96, R100 to R105). -/
def encode : Instr → List Byte
  | .identify crc => Machine.selI :: Machine.le16 crc
  | .read lo hi crc => Machine.selR :: lo :: hi :: Machine.le16 crc
  | .write lo hi data crc => Machine.selW :: lo :: hi :: (data ++ Machine.le16 crc)
  | .fastDump low unused crc => Machine.selF :: low :: unused :: Machine.le16 crc
  | .ack => [Machine.rspAck, Machine.ackMagic0, Machine.ackMagic1]
  | .err computed => Machine.rspErr :: Machine.le16 computed
  | .ident => identFrame
  | .page data crc => data ++ Machine.le16 crc
  | .done => doneFrame
  | .unrecognized b => [b]

/-- The most bytes a request has on the wire, those of a WRITE (R91, R107). -/
def longestFrame : Nat := 261

/-- The frame whose table bits are `w`: its `nbits / 8` bytes, and zeros after them (log 8). -/
def tableBytes (nbits w : Nat) : List Byte :=
  Machine.bytesOfTableNumber (nbits / 8) w ++ List.replicate longestFrame 0

/-- Decode the bytes of a row of the opcode table, which lists both directions in one table. The two verdicts and DONE
are known by their fixed bytes, and no selector is a lead byte of theirs; everything else is a request (log 8). -/
def decodeTable (bs : List Byte) : Except Reject (Instr × List Byte) :=
  match decodeVerdict bs with
  | .ok r => .ok r
  | .error _ =>
    match decodeDone bs with
    | .ok r => .ok r
    | .error _ => decodeRequest bs

/-- The instruction the decoder reads from the bits `w` of a row of the opcode table. -/
def decodeTableWord (nbits w : Nat) : Option Instr :=
  match decodeTable (tableBytes nbits w) with
  | .ok (i, _) => some i
  | .error _ => none

end Sys2Proof
end

