-- ==== Sys2Proof/Machine/State.lean ====
section
/-! DEFINITION. The state of the block (10_state.md R20 to R33), the environment record (R38), the reasons a step can
stop, and the state after reset (R39). All of it is plain data. -/

namespace Sys2Proof.Machine

/-- The logical value of a control line (R9). -/
inductive Line where
  | inactive
  | active
  deriving DecidableEq, Repr

/-- The direction of the data bus (R9, R30): `in` and `out`. -/
inductive Dir where
  | input
  | output
  deriving DecidableEq, Repr

/-- The frame state (R21). -/
inductive FState where
  | idle
  | assembling
  deriving DecidableEq, Repr

/-- A list of bytes by address, in one canonical form (Memory.wf in Machine/Ops.lean): the frame buffer (R26). -/
abbrev Memory := List Host.Cell

/-- The output registers of the chip port (R28 to R31). -/
structure Port where
  /-- `ce`, chip enable (R28). -/
  ce : Line
  /-- `oe`, output enable (R28). -/
  oe : Line
  /-- `pgm`, program enable (R28). -/
  pgm : Line
  /-- `lle`, enable of the low-byte latch (R31). -/
  lle : Line
  /-- `hle`, enable of the high-byte latch (R31). -/
  hle : Line
  /-- `addr_lo` (R29). -/
  addrLo : Byte
  /-- `addr_hi` (R29). -/
  addrHi : Byte
  /-- `addr_ext` (R29), held at its greatest width; `Config.addrExtBits` of the lines exist (log 14). -/
  addrExt : BitVec 3
  /-- `data_out` (R30). -/
  dataOut : Byte
  /-- `data_dir` (R30). -/
  dataDir : Dir
  deriving DecidableEq, Repr

/-- A micro-operation as it takes effect on the chip port, every operand a value (R181 to R188). -/
inductive MicroOp where
  /-- R181. -/
  | setCE (v : Line)
  /-- R181. -/
  | setOE (v : Line)
  /-- R181. -/
  | setPGM (v : Line)
  /-- R188. -/
  | setLLE (v : Line)
  /-- R188. -/
  | setHLE (v : Line)
  /-- R182. -/
  | setAddrLo (b : Byte)
  /-- R183. -/
  | setAddrHi (b : Byte)
  /-- R184. -/
  | setDataDir (d : Dir)
  /-- R185. -/
  | setData (b : Byte)
  /-- R186, in microseconds. -/
  | wait (us : Nat)
  /-- R187: offset `k` of the page, and the byte `d` that stood on the data bus. -/
  | capture (k d : Byte)
  deriving DecidableEq, Repr

/-- One entry of the chip-port trace: a micro-operation and the time, in clock ticks, at which it took effect
(R6 b, R180). -/
structure Event where
  time : Nat
  op : MicroOp
  deriving DecidableEq, Repr

/-- Where an operation of the sequencer takes its byte from. -/
inductive Src where
  /-- A constant of the list, a loop index among them. -/
  | lit (b : Byte)
  /-- `buf[i]`; no rule indexes at 260 or above (R75). -/
  | buf (i : Fin 260)
  /-- `crc[7:0]` (R125). -/
  | crcLo
  /-- `crc[15:8]` (R125). -/
  | crcHi
  deriving DecidableEq, Repr

/-- One step of a handler or of a response (R180): a micro-operation with its operand still to be read, a CRC
operation, or a transmission. -/
inductive SeqOp where
  | setCE (v : Line)
  | setOE (v : Line)
  | setPGM (v : Line)
  | setLLE (v : Line)
  | setHLE (v : Line)
  | setAddrLo (v : Src)
  | setAddrHi (v : Src)
  | setDataDir (d : Dir)
  | setData (v : Src)
  | wait (us : Nat)
  | capture (k : Byte)
  /-- `CRC.SEED` (R121). -/
  | crcSeed
  /-- `CRC.UPDATE` (R122). -/
  | crcUpdate (v : Src)
  /-- `Tx` (R170). -/
  | tx (v : Src)
  deriving DecidableEq, Repr

/-- A part of the processing of a completed frame: one response frame, or the chip-port part of a handler. -/
inductive Phase where
  /-- The ACK response (R151). -/
  | ack
  /-- The ERR response with the value `computed` of the gate (R150, R152). -/
  | err (computed : Word)
  /-- The IDENT response, the whole Identify handler (R192). -/
  | ident
  /-- `StreamPage` (R190), the end of Read and FastDump. -/
  | page
  /-- W16 to W19 of Write (R194), the DONE response. -/
  | done
  /-- The chip-port part of a handler: R1 to R12, W1 to W15 or F1 to F14 (R193 to R195). -/
  | body (cmd : Cmd)
  deriving DecidableEq, Repr

/-- `seq`, the position of the thread of control inside the processing of one byte (R33): the operations left of the
phase in progress, and the phases still to come. -/
structure Seq where
  curr : List SeqOp
  phases : List Phase
  /-- The byte in process completes no frame: `fstate` stays as it is (R149, R146) and only the fall of `busy` is left
  (R140). With `false` the processing ends with `fstate <- Idle` (R153). -/
  noFrame : Bool := false
  deriving DecidableEq, Repr

/-- "No byte in process" (R39). -/
def Seq.none : Seq := { curr := [], phases := [] }

/-- The short window of a byte that completes no frame, before `busy` falls (R156, R296). -/
def Seq.window : Seq := { curr := [], phases := [], noFrame := true }

/-- The environment record (R38): what is outside the block and rules mention. -/
structure Env where
  /-- The input `rst` (R43). -/
  rst : Bool
  /-- The bytes the host offers on the receive port and the block has not accepted, oldest first (R40). -/
  rx : List Byte
  /-- The transmit stream, oldest first (R6 a, R171). -/
  tx : List Byte
  /-- The input `tx_ready`: the transmit peripheral's holding register is empty (R38 c, R41; log 17). The environment
  moves it (`State.setTxReady`). -/
  txReady : Bool
  /-- The chip's answers to the next captures (R187; log 6). -/
  chipIn : List Byte
  /-- The captures made, the index of the next free chip byte (log 6). -/
  captures : Nat
  /-- The time, in clock ticks, of the last chip-port operation (R8; log 5). -/
  now : Nat
  /-- The free time advances drawn (U16; log 5). -/
  draws : Nat
  /-- The chip-port trace, oldest first (R6 b, R180). -/
  trace : List Event
  /-- `xlat_lo`, the external low-byte latch (R38 b). -/
  xlatLo : Byte
  /-- `xlat_hi`, the external high-byte latch (R38 b). -/
  xlatHi : Byte
  /-- Where the environment lets a step of the model end inside the processing of one byte: each byte's processing and
  each resumption takes one entry and performs at most that many operations; with no entry it goes on as far as
  `txReady` lets it (R33; log 4). -/
  cuts : List Nat
  deriving DecidableEq, Repr

/-- The state of the block (R20) and the environment record (R38). -/
structure State where
  /-- `fstate` (R21). -/
  fstate : FState
  /-- `cmd` (R22). -/
  cmd : Cmd
  /-- `expected_len` (R23). -/
  expectedLen : Len
  /-- `received_len` (R24). -/
  receivedLen : Len
  /-- `crc` (R25). -/
  crc : Word
  /-- `buf` (R26). -/
  buf : Memory
  /-- The chip-port output registers (R28 to R31). -/
  port : Port
  /-- `busy` (R32). -/
  busy : Bool
  /-- `seq` (R33). -/
  seq : Seq
  /-- What is outside the block (R38). -/
  env : Env
  deriving DecidableEq, Repr

/-- The reasons the machine stops. The block has no traps (R260). -/
inductive Fault where
  /-- Raised by `append` and by `gate` (Machine/Assembler.lean) when they would touch the frame buffer outside its 260
  bytes. R27 and R75 say that no such state exists; states no run reaches can hold such lengths. Safe. -/
  | bufferIndex
  deriving DecidableEq, Repr

/-- The reasons an instruction has no meaning. -/
inductive Refusal where
  /-- Raised by an arm of `exec` whose instruction has no meaning yet; no arm does. Safe. -/
  | notModelled (mnemonic : String)
  deriving DecidableEq, Repr

/-- The outcome of a step. -/
abbrev Result := Host.Outcome State Fault Refusal

/-- The chip port after reset (R39): the safe state of R191; the registers R39 leaves unspecified hold 0 (log 1). -/
def Port.reset : Port where
  ce := .inactive
  oe := .inactive
  pgm := .inactive
  lle := .inactive
  hle := .inactive
  addrLo := 0
  addrHi := 0
  addrExt := 0
  dataOut := 0
  dataDir := .input

/-- The environment before anything has happened (log 2). DESIGN CHOICE: R38 gives it no start value. In particular
the transmit peripheral starts ready (R38 c gives its readiness none), and the list of pauses starts empty, so that a
processing is not paused. -/
def Env.start : Env where
  rst := false
  rx := []
  tx := []
  txReady := true
  chipIn := []
  captures := 0
  now := 0
  draws := 0
  trace := []
  xlatLo := 0
  xlatHi := 0
  cuts := []

/-- The machine right after reset (R39, R290); the elements R39 leaves unspecified hold 0 (log 1). -/
def State.reset : State where
  fstate := .idle
  cmd := .identify
  expectedLen := 0
  receivedLen := 0
  crc := 0
  buf := []
  port := Port.reset
  busy := false
  seq := Seq.none
  env := Env.start

end Sys2Proof.Machine
end

