-- ==== Sys2Proof/Machine/Ops.lean ====
section
/-! DEFINITION. The named operations over the frame buffer, the accumulator, the chip port and the two streams. The
block has no exceptions (60_exceptions.md R260), so there is no operation that takes or leaves one. -/

namespace Sys2Proof.Machine

/-! ### Encodings of the enumerated state (R21, R22, D16) -/

/-- `Idle` = 0, `Assembling` = 1 (R21). -/
def FState.code : FState → BitVec 1
  | .idle => 0
  | .assembling => 1

/-- `Identify` = 0, `Read` = 1, `Write` = 2, `FastDump` = 3 (R22). -/
def cmdCode : Cmd → BitVec 2
  | .identify => 0
  | .read => 1
  | .write => 2
  | .fastDump => 3

/-! ### Results -/

/-- Go on with a next state; a fault or a refusal stays. -/
def andThen (r : Result) (f : State → Result) : Result :=
  match r with
  | .next s => f s
  | .fault e => .fault e
  | .refused e => .refused e

/-! ### The frame buffer (R26, R61, R65, R75) -/

/-- The byte at an address; an unlisted address reads as 0 (R71; log 15). -/
def Memory.get (a : Nat) : Memory → Byte
  | [] => 0#8
  | (a', b) :: m => if a = a' then b else Memory.get a m

/-- Put a byte at an address, keeping the canonical form: a zero is not listed. -/
def Memory.put (a : Nat) (b : Byte) : Memory → Memory
  | [] => if b = 0#8 then [] else [(a, b)]
  | (a', b') :: m =>
    if a < a' then
      if b = 0#8 then (a', b') :: m else (a, b) :: (a', b') :: m
    else if a = a' then
      if b = 0#8 then m else (a, b) :: m
    else (a', b') :: Memory.put a b m

/-- The canonical form: addresses strictly rising and inside the buffer, no entry equal to what an unlisted address
reads as. -/
abbrev Memory.wf (m : Memory) : Prop :=
  m.Pairwise (fun x y => x.1 < y.1) ∧ ∀ c ∈ m, c.1 < bufCap ∧ c.2 ≠ 0#8

/-- A read of `buf`; nothing outside the 260 bytes (R75). -/
def Memory.read (a : Nat) (m : Memory) : Option Byte :=
  if a < bufCap then some (m.get a) else none

/-- A write of `buf`; nothing outside the 260 bytes (R75). A byte that already has the value leaves the list alone. -/
def Memory.write (a : Nat) (b : Byte) (m : Memory) : Option Memory :=
  if a < bufCap then
    if m.get a = b then some m else some (m.put a b)
  else none

/-- `buf` with every byte 0 (R71). -/
def Memory.zeroed : Memory := []

/-- `buf[0], ..., buf[n - 1]`. -/
def Memory.firstBytes (n : Nat) (m : Memory) : List Byte :=
  (List.range n).map fun k => m.get k

/-- `buf[0..255]`, the page as captured (R61, R190). -/
def Memory.page (m : Memory) : List Byte := m.firstBytes pageSize

/-- The buffer whose first bytes are `bs` from offset `at_` on, over `m`. -/
def Memory.putAll (start : Nat) (m : Memory) : List Byte → Memory
  | [] => m
  | b :: bs => Memory.putAll (start + 1) (m.put start b) bs

/-! ### Plain updates of one element -/

/-- `fstate <- f`. -/
def State.setFState (f : FState) (s : State) : State := { s with fstate := f }

/-- `crc <- c`. -/
def State.setCrc (c : Word) (s : State) : State := { s with crc := c }

/-- `buf <- m`. -/
def State.setBuf (m : Memory) (s : State) : State := { s with buf := m }

/-- The chip port takes the value `p`. -/
def State.setPort (p : Port) (s : State) : State := { s with port := p }

/-- `busy <- b`. -/
def State.setBusy (b : Bool) (s : State) : State := { s with busy := b }

/-- `seq <- q`. -/
def State.setSeq (q : Seq) (s : State) : State := { s with seq := q }

/-- A byte is in process and `q` is left to do: `busy <- 1`, `seq <- q` (R32, R33). -/
def State.enter (q : Seq) (s : State) : State := { s with busy := true, seq := q }

/-- The environment takes the value `e`. -/
def State.setEnv (e : Env) (s : State) : State := { s with env := e }

/-- The bytes offered are `bs`. -/
def State.setRx (bs : List Byte) (s : State) : State := { s with env := { s.env with rx := bs } }

/-- `tx_ready` is `r` (R41). -/
def State.setTxReady (r : Bool) (s : State) : State := { s with env := { s.env with txReady := r } }

/-- The places where the environment ends a step are `cs`. -/
def State.setCuts (cs : List Nat) (s : State) : State := { s with env := { s.env with cuts := cs } }

/-! ### The accumulator (40_crc16.md R120 to R125) -/

/-- `CRC.SEED` (R121). -/
def State.seedCrc (s : State) : State := { s with crc := crcSeed }

/-- `CRC.UPDATE b` (R122). -/
def State.updateCrc (b : Byte) (s : State) : State := { s with crc := crcUpdate s.crc b }

/-! ### The byte transmitter (42_byte_transmitter.md) -/

/-- `Tx(b)`, at the edge where the peripheral takes the byte: one byte more on the transmit stream (R170, R171). -/
def State.send (b : Byte) (s : State) : State :=
  { s with env := { s.env with tx := s.env.tx ++ [b] } }

/-! ### The chip port (43_sequencer.md R181 to R188) -/

/-- The effect of a micro-operation on the output registers. -/
def Port.apply (p : Port) : MicroOp → Port
  | .setCE v => { p with ce := v }
  | .setOE v => { p with oe := v }
  | .setPGM v => { p with pgm := v }
  | .setLLE v => { p with lle := v }
  | .setHLE v => { p with hle := v }
  | .setAddrLo b => { p with addrLo := b }
  | .setAddrHi b => { p with addrHi := b, addrExt := 0 }
  | .setDataDir d => { p with dataDir := d }
  | .setData b => { p with dataOut := b }
  | .wait _ => p
  | .capture _ _ => p

/-- The safe state of the chip port (R191). -/
abbrev Port.safe (p : Port) : Prop :=
  p.ce = .inactive ∧ p.oe = .inactive ∧ p.pgm = .inactive ∧ p.lle = .inactive ∧ p.hle = .inactive ∧
    p.dataDir = .input

/-- The reading state (R187). -/
abbrev Port.reading (p : Port) : Prop :=
  p.ce = .active ∧ p.oe = .active ∧ p.pgm = .inactive ∧ p.dataDir = .input

/-- The least time a micro-operation takes, in clock ticks (R186, R304). -/
def MicroOp.leastTicks : MicroOp → Nat
  | .wait us => us * Config.ticksPerUs
  | _ => 0

/-- The low latch after a micro-operation: it takes `addr_lo` when its enable is pulsed (R38 b, R189; log 18). -/
def latchLo (p : Port) (old : Byte) : MicroOp → Byte
  | .setLLE .active => p.addrLo
  | _ => old

/-- The high latch after a micro-operation (R38 b, R189; log 18). -/
def latchHi (p : Port) (old : Byte) : MicroOp → Byte
  | .setHLE .active => p.addrLo
  | _ => old

/-- The environment after a micro-operation: time advances by a free amount and by at least the wait, the operation
joins the trace with the time at which it took effect, the external latches follow their enables (R180, R186, R189). -/
def Env.after (p : Port) (o : MicroOp) (e : Env) : Env :=
  let t := e.now + Config.freeAdvance e.draws + o.leastTicks
  { e with
    now := t
    draws := e.draws + 1
    trace := e.trace ++ [{ time := t, op := o }]
    xlatLo := latchLo p e.xlatLo o
    xlatHi := latchHi p e.xlatHi o }

/-- A micro-operation takes effect (R180 to R188). -/
def State.micro (o : MicroOp) (s : State) : State :=
  { s with port := s.port.apply o, env := s.env.after s.port o }

/-- The chip's answer to the `i`-th capture from now on (R187; log 6). -/
def Env.answer (e : Env) (i : Nat) : Byte :=
  e.chipIn.getD i (Config.freeByte (e.captures + i))

/-- The chip's answers to the next `n` captures. -/
def Env.answers (e : Env) (n : Nat) : List Byte :=
  (List.range n).map e.answer

/-- `Capture(k)`: `buf[k] <- d_in` (R187). The answer is used up. -/
def State.capture (k : Byte) (s : State) : State :=
  let d := s.env.answer 0
  let s' := s.micro (.capture k d)
  { s' with
    buf := s'.buf.put k.toNat d
    env := { s'.env with chipIn := s'.env.chipIn.tail, captures := s'.env.captures + 1 } }

/-! ### Addresses (20_memory.md R62, R63) -/

/-- The address on the direct path, `{addr_ext, addr_hi, addr_lo}` (R62). -/
def Port.directAddr (p : Port) : BitVec 19 := p.addrExt ++ p.addrHi ++ p.addrLo

/-- The address on the latched path, `{xlat_hi, xlat_lo}` (R63). -/
def Env.latchedAddr (e : Env) : BitVec 16 := e.xlatHi ++ e.xlatLo

end Sys2Proof.Machine
end

