-- ==== Sys2Proof/Machine/Flags.lean ====
section
/-! DEFINITION. The conditions the block computes, uses at once and never keeps (10_state.md R36). The first of the
three, "the byte is a recognized selector", is `selectorOf` in Decode.lean. -/

namespace Sys2Proof.Machine

/-- The fold condition (R148): the byte stored at offset `o` is payload, not one of the two trailing CRC bytes. -/
def isPayload (o expected : Len) : Bool := o < expected - 2

/-- "The counter reaches the expected length" (R149). -/
def State.frameComplete (s : State) : Bool := s.receivedLen == s.expectedLen

/-- "Received CRC equals computed CRC" (R150). -/
def gateMatch (received computed : Word) : Bool := received == computed

/-- `rx_ready`: a byte is accepted only while `busy = 0` (R32, R40). -/
def State.rxReady (s : State) : Bool := !s.busy

end Sys2Proof.Machine
end

