-- ==== Sys2Proof/Machine/Operands.lean ====
section
/-! DEFINITION. The operand forms of the sequencer's operations: a constant, a byte of the frame buffer, a byte of the
accumulator (20_memory.md R61, R64; 40_crc16.md R125). -/

namespace Sys2Proof.Machine

/-- The byte an operand stands for. -/
def Src.value (v : Src) (s : State) : Byte :=
  match v with
  | .lit b => b
  | .buf i => s.buf.get i.val
  | .crcLo => loByte s.crc
  | .crcHi => hiByte s.crc

/-- `buf[2 + k]`, the payload byte of a Write at offset `k` (R61, D22). -/
def Src.payload (k : Byte) : Src := .buf ⟨2 + k.toNat, by omega⟩

/-- `buf[k]` for an offset of a page (R61). -/
def Src.offset (k : Byte) : Src := .buf ⟨k.toNat, by omega⟩

end Sys2Proof.Machine
end

