-- ==== Sys2Proof/Machine/Handlers.lean ====
section
/-! DEFINITION. The lists of the four handlers (43_sequencer.md R192 to R195) and of the response frames, as the spec
numbers their steps. -/

namespace Sys2Proof.Machine

/-- `for k = 0 to 255` (R10): the loop index in increasing order, never wrapped into a 257th iteration (R129). -/
def offsets : List Byte := (List.range pageSize).map (BitVec.ofNat 8)

/-- `TxLE16(crc)` (R125, R172). -/
def txCrc : List SeqOp := [.tx .crcLo, .tx .crcHi]

/-- The three transmissions of ACK (R100, R151). -/
def ackOps : List SeqOp := [.tx (.lit rspAck), .tx (.lit ackMagic0), .tx (.lit ackMagic1)]

/-- The three transmissions of ERR (R101, R152). -/
def errOps (computed : Word) : List SeqOp :=
  [.tx (.lit rspErr), .tx (.lit (loByte computed)), .tx (.lit (hiByte computed))]

/-- Seed, then for each byte transmit and fold, then the CRC: I1 to I4 and W16 to W19 (R192, R194, D15). -/
def literalOps (bytes : List Byte) : List SeqOp :=
  .crcSeed :: (bytes.flatMap fun b => [.tx (.lit b), .crcUpdate (.lit b)]) ++ txCrc

/-- I1 to I4: the Identify handler (R192). -/
def identOps : List SeqOp := literalOps Config.identString

/-- W16 to W19: the end of the Write handler (R194). -/
def doneOps : List SeqOp := literalOps doneLit

/-- `StreamPage` (R190). -/
def streamPage : List SeqOp := (offsets.map fun k => .tx (.offset k)) ++ txCrc

/-- The transmissions of a PAGE frame with given bytes (R103). -/
def pageFrameOps (data : List Byte) (crc : Word) : List SeqOp :=
  (data ++ le16 crc).map fun b => .tx (.lit b)

/-- `Strobe(L, v)` (R189). -/
def strobeLow (v : Src) : List SeqOp := [.setAddrLo v, .setLLE .active, .setLLE .inactive]

/-- `Strobe(H, v)` (R189). -/
def strobeHigh (v : Src) : List SeqOp := [.setAddrLo v, .setHLE .active, .setHLE .inactive]

/-- R6 to R11: one iteration of Read (R193). -/
def readIter (k : Byte) : List SeqOp :=
  [.setAddrLo (.lit k), .setOE .active, .wait tOE, .capture k, .setOE .inactive, .crcUpdate (.offset k)]

/-- R1 to R12: the chip-port part of Read (R193). -/
def readOps : List SeqOp :=
  [.setCE .active, .setOE .inactive, .setAddrLo (.buf 0), .setAddrHi (.buf 1), .crcSeed] ++
    offsets.flatMap readIter ++ [.setCE .inactive]

/-- W6 to W13: one iteration of Write (R194). -/
def writeIter (k : Byte) : List SeqOp :=
  [.setAddrLo (.lit k), .setData (.payload k), .setCE .active, .wait tSU, .setPGM .active, .wait tPW,
    .setPGM .inactive, .wait tHD]

/-- W1 to W15: the chip-port part of Write (R194). -/
def writeOps : List SeqOp :=
  [.setOE .inactive, .setPGM .inactive, .setAddrLo (.buf 0), .setAddrHi (.buf 1), .setDataDir .output] ++
    offsets.flatMap writeIter ++ [.setCE .inactive, .setDataDir .input]

/-- F7 to F14: one iteration of FastDump (R195). -/
def fastDumpIter (k : Byte) : List SeqOp :=
  strobeLow (.lit k) ++
    [.setCE .active, .setOE .active, .wait tOE, .capture k, .setOE .inactive, .setCE .inactive,
      .crcUpdate (.offset k)]

/-- F1 to F14: the chip-port part of FastDump (R195). -/
def fastDumpOps : List SeqOp :=
  [.setData (.buf 0), .setDataDir .output] ++ strobeLow (.buf 0) ++ strobeHigh (.buf 0) ++
    [.setDataDir .input, .crcSeed] ++ offsets.flatMap fastDumpIter

/-- The chip-port part of a command's handler; Identify has none (R192). -/
def bodyOps : Cmd → List SeqOp
  | .identify => []
  | .read => readOps
  | .write => writeOps
  | .fastDump => fastDumpOps

/-- The operations of a phase. -/
def Phase.ops : Phase → List SeqOp
  | .ack => ackOps
  | .err computed => errOps computed
  | .ident => identOps
  | .page => streamPage
  | .done => doneOps
  | .body c => bodyOps c

/-- The phases of the handler bound to a command (R192 to R195). -/
def handlerPhases : Cmd → List Phase
  | .identify => [.ident]
  | .read => [.body .read, .page]
  | .write => [.body .write, .done]
  | .fastDump => [.body .fastDump, .page]

/-- A frame that passes the gate: the ACK, then the handler (R151, R202). -/
def matchPhases (c : Cmd) : List Phase := .ack :: handlerPhases c

/-- A frame that does not: the ERR and nothing more (R152). -/
def mismatchPhases (computed : Word) : List Phase := [.err computed]

end Sys2Proof.Machine
end

