-- ==== Sys2Proof/Machine/Sequencer.lean ====
section
/-! DEFINITION. The sequencer (43_sequencer.md R180): operations run one at a time in list order, each complete before
the next; a position in the middle of the processing of a byte is a state of the machine (10_state.md R33; log 4). -/

namespace Sys2Proof.Machine

/-- The micro-operation an operation makes on the chip port, its operand read; none for a CRC operation and a
transmission. -/
def SeqOp.micro? (o : SeqOp) (s : State) : Option MicroOp :=
  match o with
  | .setCE v => some (.setCE v)
  | .setOE v => some (.setOE v)
  | .setPGM v => some (.setPGM v)
  | .setLLE v => some (.setLLE v)
  | .setHLE v => some (.setHLE v)
  | .setAddrLo v => some (.setAddrLo (v.value s))
  | .setAddrHi v => some (.setAddrHi (v.value s))
  | .setDataDir d => some (.setDataDir d)
  | .setData v => some (.setData (v.value s))
  | .wait us => some (.wait us)
  | .capture k => some (.capture k (s.env.answer 0))
  | .crcSeed => none
  | .crcUpdate _ => none
  | .tx _ => none

/-- The effect of one operation (R121, R122, R170, R181 to R188). -/
def doOp (o : SeqOp) (s : State) : State :=
  match o with
  | .setCE v => s.micro (.setCE v)
  | .setOE v => s.micro (.setOE v)
  | .setPGM v => s.micro (.setPGM v)
  | .setLLE v => s.micro (.setLLE v)
  | .setHLE v => s.micro (.setHLE v)
  | .setAddrLo v => s.micro (.setAddrLo (v.value s))
  | .setAddrHi v => s.micro (.setAddrHi (v.value s))
  | .setDataDir d => s.micro (.setDataDir d)
  | .setData v => s.micro (.setData (v.value s))
  | .wait us => s.micro (.wait us)
  | .capture k => s.capture k
  | .crcSeed => s.seedCrc
  | .crcUpdate v => s.updateCrc (v.value s)
  | .tx v => s.send (v.value s)

/-- Operations in list order (R69, R180). -/
def runOps (ops : List SeqOp) (s : State) : State :=
  ops.foldl (fun t o => doOp o t) s

/-- Every operation left of the processing in progress. -/
def Seq.ops (q : Seq) : List SeqOp := q.curr ++ q.phases.flatMap Phase.ops

/-- The position `n` operations after the beginning of `curr` and then `phases`; it stands at the beginning of a phase
rather than at the end of the one before. -/
def positionAfter (n : Nat) (curr : List SeqOp) : List Phase → Seq
  | [] => { curr := curr.drop n, phases := [] }
  | p :: ps =>
    if n < curr.length then { curr := curr.drop n, phases := p :: ps }
    else if n = curr.length then { curr := [], phases := p :: ps }
    else positionAfter (n - curr.length) p.ops ps

/-- The position `n` operations further on. -/
def Seq.drop (n : Nat) (q : Seq) : Seq := { positionAfter n q.curr q.phases with noFrame := q.noFrame }

/-- The end of the processing of a byte: `fstate <- Idle` if it completed a frame (R153), then `busy <- 0`
(R140, R269). -/
def finish (s : State) : State :=
  { s with fstate := if s.seq.noFrame then s.fstate else .idle, busy := false, seq := Seq.none }

/-- The operation is a transmission. -/
def SeqOp.isTx : SeqOp → Bool
  | .tx _ => true
  | _ => false

/-- The operations before the first transmission. -/
def beforeTx (ops : List SeqOp) : Nat := (ops.takeWhile fun o => !o.isTx).length

/-- How many of the operations `ops` a resumption performs at most: the environment's next pause (log 4), and a
peripheral that is not ready, at which a transmission waits (R170, R173). Nothing when neither bounds it. -/
def Env.stopAt (e : Env) (ops : List SeqOp) : Option Nat :=
  match e.cuts, e.txReady with
  | [], true => none
  | [], false => some (beforeTx ops)
  | n :: _, true => some n
  | n :: _, false => some (min n (beforeTx ops))

/-- Run the processing in progress: to its end, or as far as the environment lets it go. -/
def resume (s : State) : State :=
  let t := s.setCuts s.env.cuts.tail
  match s.env.stopAt s.seq.ops with
  | none => finish (runOps s.seq.ops t)
  | some n =>
    if n < s.seq.ops.length then (runOps (s.seq.ops.take n) t).setSeq (s.seq.drop n)
    else finish (runOps s.seq.ops t)

/-- The end of the processing of a byte that completed no frame: `busy <- 0` (R140). A pause of the environment that
allows no operation falls into the short window before it (R156, R296; log 4). -/
def settle (s : State) : State :=
  match s.env.cuts with
  | [] => { s with busy := false }
  | 0 :: rest => (s.setCuts rest).enter Seq.window
  | _ :: rest => { s.setCuts rest with busy := false }

/-- Begin the processing of the phases `ps` and run it. -/
def startPhases (ps : List Phase) (s : State) : State :=
  resume (s.enter { curr := [], phases := ps })

/-- Transmit a response frame whose operations are `ops`, then go on with what `seq` holds after it. -/
def respond (ops : List SeqOp) (s : State) : State :=
  resume (s.enter { s.seq with curr := ops ++ s.seq.curr })

end Sys2Proof.Machine
end

