-- ==== Sys2Proof/Machine/Assembler.lean ====
section
/-! DEFINITION. The frame assembler and the CRC gate (41_frame_assembler.md): the processing of one accepted byte. -/

namespace Sys2Proof.Machine

/-- Accept of a recognized selector (R141 with R142 to R145). -/
def accept (b : Byte) (c : Cmd) (s : State) : State :=
  { s with
    buf := Memory.zeroed
    receivedLen := 0
    expectedLen := c.len
    cmd := c
    fstate := .assembling
    crc := crcUpdate crcSeed b }

/-- Append (R147) and fold (R148). -/
def append (b : Byte) (s : State) : Result :=
  match s.buf.write s.receivedLen.toNat b with
  | some m =>
    let folded := if isPayload s.receivedLen s.expectedLen then crcUpdate s.crc b else s.crc
    evalWord folded fun c => .next { s with buf := m, receivedLen := s.receivedLen + 1, crc := c }
  | none => .fault .bufferIndex

/-- The received CRC at the gate (R150, R64 b). -/
def State.rxCrc (s : State) : Option Word :=
  match s.buf.read (s.expectedLen - 2).toNat, s.buf.read (s.expectedLen - 1).toNat with
  | some lo, some hi => some (ofLoHi lo hi)
  | _, _ => none

/-- The gate (R150): ACK and the bound handler on a match (R151), ERR on a mismatch (R152), and the return to Idle at
the end of either (R153). -/
def gate (s : State) : Result :=
  match s.rxCrc with
  | some received =>
    if gateMatch received s.crc then .next (startPhases (matchPhases s.cmd) s)
    else .next (startPhases (mismatchPhases s.crc) s)
  | none => .fault .bufferIndex

/-- Completion test (R149): the gate when the count is reached, else the event ends. -/
def completion (s : State) : Result :=
  if s.frameComplete then gate s else .next (settle s)

/-- `RX b`, the processing of one accepted byte (R140, R157). -/
def rxByte (b : Byte) (s : State) : Result :=
  let s := { s with busy := true }
  match s.fstate with
  | .idle =>
    match selectorOf b with
    | some c => .next (settle (accept b c s))
    | none => .next (settle s)
  | .assembling => andThen (append b s) completion

/-- The block accepts the next offered bytes, at most `n`, while `rx_ready = 1` (R40); a byte offered while `busy = 1`
stays offered (R296; log 11). -/
def takeBytes : Nat → State → Result
  | 0, s => .next s
  | n + 1, s =>
    match s.env.rx with
    | [] => .next s
    | b :: rest =>
      if s.rxReady then andThen (rxByte b (s.setRx rest)) (takeBytes n)
      else .next s

/-- The bytes of a frame arrive: they are offered before what was offered already, and the block accepts what it will
of them (log 16). -/
def receiveFrame (bytes : List Byte) (s : State) : Result :=
  takeBytes bytes.length (s.setRx (bytes ++ s.env.rx))

end Sys2Proof.Machine
end

