-- ==== Sys2Proof/Machine/Requests.lean ====
section
/-! DEFINITION. The meanings of the request rows of the opcode table: the frame arrives byte by byte
(41_frame_assembler.md R140 to R157), and the bound handler runs if it passes the gate (43_sequencer.md). -/

namespace Sys2Proof.Machine

/-- IDENTIFY: format R93, accept R142, gate R150 to R153, handler R192. -/
def execIdentify (crc : Word) (s : State) : Result :=
  receiveFrame (selI :: le16 crc) s

/-- READ: format R94, accept R143, gate R150 to R153, handler R193. -/
def execRead (addrLo addrHi : Byte) (crc : Word) (s : State) : Result :=
  receiveFrame (selR :: addrLo :: addrHi :: le16 crc) s

/-- WRITE: format R95, accept R144, gate R150 to R153, handler R194. -/
def execWrite (addrLo addrHi : Byte) (data : List Byte) (crc : Word) (s : State) : Result :=
  receiveFrame (selW :: addrLo :: addrHi :: (data ++ le16 crc)) s

/-- FASTDUMP: format R96, accept R145, gate R150 to R153, handler R195. -/
def execFastDump (lowLatch unused : Byte) (crc : Word) (s : State) : Result :=
  receiveFrame (selF :: lowLatch :: unused :: le16 crc) s

/-- UNRECOGNIZED: ignored in Idle (R105, R146), frame content in Assembling (R106, R147). -/
def execUnrecognized (b : Byte) (s : State) : Result :=
  receiveFrame [b] s

end Sys2Proof.Machine
end

