-- ==== Sys2Proof/Machine/Responses.lean ====
section
/-! DEFINITION. The meanings of the response rows of the opcode table: the block transmits the frame
(30_encoding.md R100 to R104) and goes on with the processing it is part of, to the return to Idle
(41_frame_assembler.md R151 to R153). -/

namespace Sys2Proof.Machine

/-- ACK (R100, R151). -/
def execAck (s : State) : Result := .next (respond ackOps s)

/-- ERR (R101, R152). -/
def execErr (computed : Word) (s : State) : Result := .next (respond (errOps computed) s)

/-- IDENT (R102, R192). -/
def execIdent (s : State) : Result := .next (respond identOps s)

/-- PAGE (R103, R190). -/
def execPage (data : List Byte) (crc : Word) (s : State) : Result :=
  .next (respond (pageFrameOps data crc) s)

/-- DONE (R104, W16 to W19 of R194). -/
def execDone (s : State) : Result := .next (respond doneOps s)

end Sys2Proof.Machine
end

