-- ==== Sys2Proof/Machine/Dispatch.lean ====
section
/-! DEFINITION. The meaning of each instruction: one arm per constructor of Instr. -/

namespace Sys2Proof.Machine

def exec (i : Instr) (s : State) : Host.Outcome State Fault Refusal :=
  match i with
  | .identify crc => Sys2Proof.Machine.execIdentify crc s
  | .read addrLo addrHi crc => Sys2Proof.Machine.execRead addrLo addrHi crc s
  | .write addrLo addrHi data crc => Sys2Proof.Machine.execWrite addrLo addrHi data crc s
  | .fastDump lowLatch unused crc => Sys2Proof.Machine.execFastDump lowLatch unused crc s
  | .ack => Sys2Proof.Machine.execAck s
  | .err computed => Sys2Proof.Machine.execErr computed s
  | .ident => Sys2Proof.Machine.execIdent s
  | .page data crc => Sys2Proof.Machine.execPage data crc s
  | .done => Sys2Proof.Machine.execDone s
  | .unrecognized b => Sys2Proof.Machine.execUnrecognized b s

end Sys2Proof.Machine
end

