-- ==== Sys2Proof/Machine/Fetch.lean ====
section
/-! DEFINITION. What the machine does next: where an instruction comes from, what happens when there is none, and how an
instruction is placed to be the next one (log 3, log 10). -/

namespace Sys2Proof.Machine

/-- Reset (R290): every element of the block takes its value of R39; what is outside the block stays. The request is
used up (log 12). -/
def State.applyReset (s : State) : State :=
  { State.reset with env := { s.env with rst := false } }

/-- The response instruction of a phase; the chip-port part of a handler is none (R99). -/
def Phase.instr (p : Phase) (s : State) : Option Instr :=
  match p with
  | .ack => some .ack
  | .err computed => some (.err computed)
  | .ident => some .ident
  | .page => some (.page s.buf.page s.crc)
  | .done => some .done
  | .body _ => none

/-- The next instruction, and the state in which it runs: while a byte is in process, the response the thread of
control stands at the beginning of (R33); in Idle, a complete request at the front of the offered bytes (R91). -/
def fetch (s : State) : Option (Instr × State) :=
  if s.env.rst then none
  else if s.busy then
    match s.seq.curr, s.seq.phases with
    | [], p :: rest => (p.instr s).map fun i => (i, s.setSeq { s.seq with phases := rest })
    | _, _ => none
  else
    match s.fstate with
    | .assembling => none
    | .idle =>
      match decodeRequest s.env.rx with
      | .ok (i, rest) => some (i, s.setRx rest)
      | .error _ => none

/-- What happens when no instruction is fetched: reset (R290), the processing in progress goes on (R180), or one offered
byte is accepted (R140); with no byte offered nothing happens (R266). -/
def advance (s : State) : Result :=
  if s.env.rst then .next s.applyReset
  else if s.busy then .next (resume s)
  else takeBytes 1 s

/-- Put an instruction where the next step fetches it: a request at the front of the offered bytes of an idle block, a
response at the position of the thread of control (log 10). -/
def State.place (i : Instr) (s : State) : State :=
  let at_ (p : Phase) : State :=
    { s.enter { curr := [], phases := [p] } with env := { s.env with rst := false } }
  let offered : State :=
    { s with fstate := .idle, busy := false, seq := Seq.none,
             env := { s.env with rst := false, rx := encode i ++ s.env.rx } }
  match i with
  | .identify _ => offered
  | .read _ _ _ => offered
  | .write _ _ _ _ => offered
  | .fastDump _ _ _ => offered
  | .ack => at_ .ack
  | .err computed => at_ (.err computed)
  | .ident => at_ .ident
  | .page data crc => { at_ .page with buf := Memory.putAll 0 s.buf data, crc := crc }
  | .done => at_ .done
  | .unrecognized _ => offered

/-- Put the instruction whose table bits are `w` where the next step fetches it. -/
def placeTableWord (nbits w : Nat) (s : State) : State :=
  match decodeTableWord nbits w with
  | some i => s.place i
  | none => s.setRx (tableBytes nbits w)

end Sys2Proof.Machine
end

