-- ==== Sys2Proof/Machine/Environment.lean ====
section
/-! DEFINITION. What the outside world can do to the machine between its steps (10_state.md R40, R43;
70_reset_and_hazards.md R290, R295, R296). -/

namespace Sys2Proof.Machine

/-- The host offers bytes after those it offered already (R40, R295). -/
def State.offer (bs : List Byte) (s : State) : State := s.setRx (s.env.rx ++ bs)

/-- The serial receiver loses the `k`-th offered byte; only a byte that arrives while `busy = 1` can be lost
(R296, U2; log 11). -/
def State.lose (k : Nat) (s : State) : State :=
  if s.busy then s.setRx (s.env.rx.eraseIdx k) else s

/-- `k` steps, the transmit peripheral moving before each of them (R38 c, R41; log 17): before step `i` it is ready if
`ready i`. One such move is `State.setTxReady`; the environment's pauses are `State.setCuts` (both in
Machine/Ops.lean). -/
def runPaced : Nat → (Nat → Bool) → State → Result
  | 0, _, s => .next s
  | k + 1, ready, s => andThen (step (s.setTxReady (ready 0))) (runPaced k fun i => ready (i + 1))

/-- D20, an ASSUMPTION about the environment (R173; log 17): from every step on, the transmit peripheral is ready again
within finitely many steps. Only claims that a cycle ends rest on it. -/
def TxFair (ready : Nat → Bool) : Prop := ∀ n, ∃ m, n ≤ m ∧ ready m = true

/-- `rst` is raised (R43). -/
def State.raiseReset (s : State) : State := { s with env := { s.env with rst := true } }

/-- The chip will answer the next captures with these bytes (R187; log 6). -/
def State.loadChip (bs : List Byte) (s : State) : State :=
  { s with env := { s.env with chipIn := bs } }

end Sys2Proof.Machine
end

