-- ==== Sys2Proof/Machine/IdealChip.lean ====
section
/-! DEFINITION. The ideal chip of 95_test_vectors.md section 5, a test fixture that is NOT part of the block (R3 e,
R200; log 21): it says which bytes the captures of a trace would get and what the program pulses store, so that the
round trip of 20_memory.md R67 can be stated. -/

namespace Sys2Proof.Machine

/-- Which address path reaches the chip's pins (95_test_vectors.md section 5, N9). -/
inductive Board where
  | direct
  | latched
  deriving DecidableEq, Repr

/-- The ideal chip with what it sees of the block: the port and the two latches. -/
structure Chip where
  port : Port
  xlatLo : Byte
  xlatHi : Byte
  mem : BitVec 16 → Byte

/-- The address at the chip's pins (R62, R63). -/
def Chip.addr (board : Board) (c : Chip) : BitVec 16 :=
  match board with
  | .direct => c.port.addrHi ++ c.port.addrLo
  | .latched => c.xlatHi ++ c.xlatLo

/-- A memory with one byte changed. -/
def programByte (mem : BitVec 16 → Byte) (a : BitVec 16) (d : Byte) : BitVec 16 → Byte :=
  fun x => if x = a then d else mem x

/-- The chip after a micro-operation: the end of a program pulse stores `data_out` at the address, nothing else
changes the memory. -/
def Chip.apply (board : Board) (c : Chip) (o : MicroOp) : Chip where
  port := c.port.apply o
  xlatLo := latchLo c.port c.xlatLo o
  xlatHi := latchHi c.port c.xlatHi o
  mem :=
    match o, c.port.pgm with
    | .setPGM .inactive, .active => programByte c.mem (c.addr board) c.port.dataOut
    | _, _ => c.mem

/-- The chip after a list of micro-operations. -/
def Chip.after (board : Board) (c : Chip) (os : List MicroOp) : Chip :=
  os.foldl (Chip.apply board) c

/-- Every capture got the byte the chip stores at the address on its pins. -/
def Chip.Answers (board : Board) (c : Chip) : List MicroOp → Prop
  | [] => True
  | o :: os =>
    (match o with
      | .capture _ d => c.port.reading ∧ d = c.mem (c.addr board)
      | _ => True) ∧ Chip.Answers board (c.apply board o) os

/-- The chip connected to the block in a state. -/
def State.chip (mem : BitVec 16 → Byte) (s : State) : Chip where
  port := s.port
  xlatLo := s.env.xlatLo
  xlatHi := s.env.xlatHi
  mem := mem

/-- The page of a memory at a high address byte, offsets 0 to 255 in order (R65). -/
def pageAt (mem : BitVec 16 → Byte) (hi : Byte) : List Byte :=
  (List.range pageSize).map fun k => mem (hi ++ BitVec.ofNat 8 k)

/-- A memory after one page was programmed (95_test_vectors.md section 5). -/
def withPage (mem : BitVec 16 → Byte) (hi : Byte) (data : List Byte) : BitVec 16 → Byte :=
  fun x =>
    if (x >>> 8).setWidth 8 = hi then data.getD (x.setWidth 8 : Byte).toNat 0 else mem x

end Sys2Proof.Machine
end

