-- ==== Sys2Proof/Machine/Pins.lean ====
section
/-! DEFINITION. The signals of the block's ports as functions of its state (10_state.md R40 to R42, R9). -/

namespace Sys2Proof.Machine

/-- The electrical level of a control pin: `X_LEVEL` when the line is active, the other level when it is not (R9). -/
def pinLevel (level : Bool) : Line → Bool
  | .active => level
  | .inactive => !level

/-- `CE` (R42). -/
def State.pinCE (s : State) : Bool := pinLevel Config.ceLevel s.port.ce

/-- `OE` (R42). -/
def State.pinOE (s : State) : Bool := pinLevel Config.oeLevel s.port.oe

/-- `PGM` (R42). -/
def State.pinPGM (s : State) : Bool := pinLevel Config.pgmLevel s.port.pgm

/-- `LLE` (R42). -/
def State.pinLLE (s : State) : Bool := pinLevel Config.lleLevel s.port.lle

/-- `HLE` (R42). -/
def State.pinHLE (s : State) : Bool := pinLevel Config.hleLevel s.port.hle

/-- `A_EXT`, the extension lines that exist, lowest first (R29, R42). -/
def State.pinsAExt (s : State) : List Bool :=
  (List.range Config.addrExtBits.val).map fun i => s.port.addrExt.getLsbD i

/-- What the block drives onto `D[7:0]`; nothing while `data_dir = in` (R30, R42). -/
def State.drivenData (s : State) : Option Byte :=
  match s.port.dataDir with
  | .output => some s.port.dataOut
  | .input => none

/-- The byte offered on the transmit port, `tx_data` while `tx_valid = 1`: the thread of control stands at a
transmission (R41, R170). -/
def State.txOffer (s : State) : Option Byte :=
  if s.busy then
    match s.seq.ops with
    | .tx v :: _ => some (v.value s)
    | _ => none
  else none

end Sys2Proof.Machine
end

