-- ==== Sys2Proof/Machine/Traces.lean ====
section
/-! DEFINITION. The chip-port traces of the handlers as lists of micro-operations with their operands
(43_sequencer.md R192 to R198; 95_test_vectors.md T4.3 to T4.6), and the times of a trace (R180). Claims compare the
machine with them; the machine does not use them. -/

namespace Sys2Proof.Machine

/-- R6 to R10 at offset `k`, the chip answering `d` (R193). -/
def readIterTrace (k d : Byte) : List MicroOp :=
  [.setAddrLo k, .setOE .active, .wait 1, .capture k d, .setOE .inactive]

/-- The trace of Read for the request bytes `lo`, `hi` and the captured page (R193). -/
def readTrace (lo hi : Byte) (page : List Byte) : List MicroOp :=
  [.setCE .active, .setOE .inactive, .setAddrLo lo, .setAddrHi hi] ++
    ((offsets.zip page).flatMap fun x => readIterTrace x.1 x.2) ++ [.setCE .inactive]

/-- W6 to W13 at offset `k` with data byte `d` (R194). -/
def writeIterTrace (k d : Byte) : List MicroOp :=
  [.setAddrLo k, .setData d, .setCE .active, .wait 5, .setPGM .active, .wait 100, .setPGM .inactive, .wait 5]

/-- The trace of Write for the request bytes `lo`, `hi` and `data` (R194). -/
def writeTrace (lo hi : Byte) (data : List Byte) : List MicroOp :=
  [.setOE .inactive, .setPGM .inactive, .setAddrLo lo, .setAddrHi hi, .setDataDir .output] ++
    ((offsets.zip data).flatMap fun x => writeIterTrace x.1 x.2) ++ [.setCE .inactive, .setDataDir .input]

/-- F7 to F13 at offset `k`, the chip answering `d` (R195). -/
def fastDumpIterTrace (k d : Byte) : List MicroOp :=
  [.setAddrLo k, .setLLE .active, .setLLE .inactive, .setCE .active, .setOE .active, .wait 1, .capture k d,
    .setOE .inactive, .setCE .inactive]

/-- The trace of FastDump for the request byte `low` and the captured page (R195). -/
def fastDumpTrace (low : Byte) (page : List Byte) : List MicroOp :=
  [.setData low, .setDataDir .output, .setAddrLo low, .setLLE .active, .setLLE .inactive, .setAddrLo low,
    .setHLE .active, .setHLE .inactive, .setDataDir .input] ++
    (offsets.zip page).flatMap fun x => fastDumpIterTrace x.1 x.2

/-- The trace of Identify: the chip port is not touched (R192, R240). -/
def identifyTrace : List MicroOp := []

/-- The times of a list of micro-operations that starts after time `t`: each takes effect a free advance `adv n` and
its least time after the one before (R8, R180, R186). -/
def stamp (adv : Nat → Nat) (n t : Nat) : List MicroOp → List Event
  | [] => []
  | o :: os =>
    let t' := t + adv n + o.leastTicks
    { time := t', op := o } :: stamp adv (n + 1) t' os

/-- The time at which the last of the micro-operations took effect (R180). -/
def timeAfter (adv : Nat → Nat) (n t : Nat) : List MicroOp → Nat
  | [] => t
  | o :: os => timeAfter adv (n + 1) (t + adv n + o.leastTicks) os

end Sys2Proof.Machine
end

