-- ==== Sys2Proof/Machine/Validator.lean ====
section
/-! DEFINITION. The transition validator (44_transition_validator.md): a predicate over a timed chip-port trace. The
block has no such circuit (R242), so the machine does not use it (log 20). -/

namespace Sys2Proof.Machine

/-- The port state of R230, with the time of the last real change of each element; none before any change. -/
structure VState where
  port : Port
  tCE : Option Nat
  tOE : Option Nat
  tPGM : Option Nat
  tLLE : Option Nat
  tHLE : Option Nat
  tDir : Option Nat
  tALo : Option Nat
  tAHi : Option Nat
  tDOut : Option Nat
  deriving DecidableEq, Repr

/-- A port no element of which has changed yet (R230: every time is minus infinity). -/
def VState.start (p : Port) : VState where
  port := p
  tCE := none
  tOE := none
  tPGM := none
  tLLE := none
  tHLE := none
  tDir := none
  tALo := none
  tAHi := none
  tDOut := none

/-- The conditions (R231 to R238). -/
inductive Cond where
  | v1
  | v2
  | v3
  | v4
  | v5
  | v6
  | v7
  | v8
  deriving DecidableEq, Repr

/-- At least `us` microseconds have passed since `t`; met when there was no change (R230). -/
def elapsed (us : Nat) (t : Option Nat) (now : Nat) : Bool :=
  match t with
  | none => true
  | some t => decide (t + us * Config.ticksPerUs ≤ now)

/-- The micro-operation changes the element `f` of the port: a real change (R230). -/
def Port.changes {α : Type} [DecidableEq α] (f : Port → α) (p : Port) (o : MicroOp) : Bool :=
  decide (f (p.apply o) ≠ f p)

/-- The time of the last real change of the element `f` after an event. -/
def lastChange {α : Type} [DecidableEq α] (f : Port → α) (p : Port) (e : Event) (old : Option Nat) : Option Nat :=
  if p.changes f e.op then some e.time else old

/-- The port state after an event (R230). -/
def VState.observe (v : VState) (e : Event) : VState where
  port := v.port.apply e.op
  tCE := lastChange Port.ce v.port e v.tCE
  tOE := lastChange Port.oe v.port e v.tOE
  tPGM := lastChange Port.pgm v.port e v.tPGM
  tLLE := lastChange Port.lle v.port e v.tLLE
  tHLE := lastChange Port.hle v.port e v.tHLE
  tDir := lastChange Port.dataDir v.port e v.tDir
  tALo := lastChange Port.addrLo v.port e v.tALo
  tAHi := lastChange Port.addrHi v.port e v.tAHi
  tDOut := lastChange Port.dataOut v.port e v.tDOut

/-- The line is inactive. -/
def Line.off (l : Line) : Bool := decide (l = .inactive)

/-- The line is active. -/
def Line.on (l : Line) : Bool := decide (l = .active)

/-- V1, no contention (R231). -/
def condV1 (p : Port) : MicroOp → Bool
  | .setDataDir .output => p.oe.off
  | .setOE .active => decide (p.dataDir = .input)
  | _ => true

/-- An operation that V2 freezes under `pgm = active` would change something (R232). -/
def Port.disturbs (p : Port) (o : MicroOp) : Bool :=
  p.changes Port.ce o || p.changes Port.oe o || p.changes Port.dataDir o || p.changes Port.lle o ||
    p.changes Port.hle o || p.changes Port.addrLo o || p.changes Port.addrHi o || p.changes Port.dataOut o

/-- V2, program pulse only in the programming state (R232). -/
def condV2 (p : Port) (o : MicroOp) : Bool :=
  (match o with
    | .setPGM .active =>
      p.ce.on && p.oe.off && decide (p.dataDir = .output) && p.lle.off && p.hle.off
    | _ => true) &&
  (p.pgm.off || !p.disturbs o)

/-- V3, output-enable nests inside chip-enable (R233). -/
def condV3 (p : Port) : MicroOp → Bool
  | .setOE .active => p.ce.on && p.pgm.off
  | .setCE .inactive => p.oe.off && p.pgm.off
  | _ => true

/-- The access time of V4: `now - max(t_oe, t_ce, t_addr) >= T_OE` (R230, R234). -/
def accessTime (v : VState) (now : Nat) : Bool :=
  elapsed tOE v.tOE now && elapsed tOE v.tCE now && elapsed tOE v.tALo now && elapsed tOE v.tAHi now &&
    elapsed tOE v.tLLE now && elapsed tOE v.tHLE now

/-- V4, capture only in the reading state, after the access time (R234). -/
def condV4 (v : VState) (e : Event) : Bool :=
  match e.op with
  | .capture _ _ =>
    v.port.ce.on && v.port.oe.on && v.port.pgm.off && decide (v.port.dataDir = .input) && v.port.lle.off &&
      v.port.hle.off && accessTime v e.time
  | _ => true

/-- V5, addresses, data and direction change only while the chip is neither reading nor being programmed (R235). -/
def condV5 (p : Port) : MicroOp → Bool
  | .setAddrLo _ => p.oe.off && p.pgm.off
  | .setAddrHi _ => p.oe.off && p.pgm.off
  | .setData _ => p.oe.off && p.pgm.off
  | .setDataDir _ => p.oe.off && p.pgm.off
  | .setLLE _ => p.oe.off && p.pgm.off
  | .setHLE _ => p.oe.off && p.pgm.off
  | _ => true

/-- V6 a, set-up (R236). -/
def setUp (v : VState) (e : Event) : Bool :=
  match e.op with
  | .setPGM .active =>
    elapsed tSU v.tCE e.time && elapsed tSU v.tALo e.time && elapsed tSU v.tAHi e.time &&
      elapsed tSU v.tDOut e.time && elapsed tSU v.tDir e.time
  | _ => true

/-- V6 b, width of a pulse that ends (R236). -/
def width (v : VState) (e : Event) : Bool :=
  match e.op with
  | .setPGM .inactive => v.port.pgm.off || elapsed tPW v.tPGM e.time
  | _ => true

/-- V6 c, hold after a pulse has ended (R236). -/
def hold (v : VState) (e : Event) : Bool :=
  if v.port.pgm.off &&
      (v.port.changes Port.ce e.op || v.port.changes Port.addrLo e.op || v.port.changes Port.addrHi e.op ||
        v.port.changes Port.dataOut e.op || v.port.changes Port.dataDir e.op) then
    elapsed tHD v.tPGM e.time
  else true

/-- V6, programming times (R236). -/
def condV6 (v : VState) (e : Event) : Bool := setUp v e && width v e && hold v e

/-- V7, latch strobes with the chip disabled, one latch at a time (R237). -/
def condV7 (p : Port) : MicroOp → Bool
  | .setLLE .active => p.ce.off && p.oe.off && p.pgm.off && p.hle.off
  | .setHLE .active => p.ce.off && p.oe.off && p.pgm.off && p.lle.off
  | _ => true

/-- The conditions V1 to V7 that an event breaks in a port state. -/
def broken (v : VState) (e : Event) : List Cond :=
  [(Cond.v1, condV1 v.port e.op), (Cond.v2, condV2 v.port e.op), (Cond.v3, condV3 v.port e.op),
    (Cond.v4, condV4 v e), (Cond.v5, condV5 v.port e.op), (Cond.v6, condV6 v e), (Cond.v7, condV7 v.port e.op)].filterMap
    fun c => if c.2 then none else some c.1

/-- The event meets V1 to V7 (R230). -/
def stepOk (v : VState) (e : Event) : Bool :=
  condV1 v.port e.op && condV2 v.port e.op && condV3 v.port e.op && condV4 v e && condV5 v.port e.op &&
    condV6 v e && condV7 v.port e.op

/-- Every event of a trace meets V1 to V7. -/
def traceOk (v : VState) : List Event → Bool
  | [] => true
  | e :: es => stepOk v e && traceOk (v.observe e) es

/-- The port state after a trace. -/
def VState.after (v : VState) (es : List Event) : VState := es.foldl VState.observe v

/-- A trace is valid: it starts in the safe state, every step meets the conditions, and it ends in the safe state
(R230, V8 of R238). -/
def ValidTrace (v : VState) (es : List Event) : Prop :=
  v.port.safe ∧ traceOk v es = true ∧ (v.after es).port.safe

/-- The number of the first step that breaks a condition, and the conditions it breaks; V8 at the end of the trace. -/
def firstViolation (v : VState) (n : Nat) : List Event → Option (Nat × List Cond)
  | [] => if v.port.safe then none else some (n, [.v8])
  | e :: es =>
    match broken v e with
    | [] => firstViolation (v.observe e) (n + 1) es
    | cs => some (n, cs)

/-- The conditions as a table, one row per micro-operation (R239). -/
def tableOk (v : VState) (e : Event) : Bool :=
  let p := v.port
  match e.op with
  | .setCE .active => p.pgm.off && hold v e
  | .setCE .inactive => p.oe.off && p.pgm.off && hold v e
  | .setOE .active => p.ce.on && p.pgm.off && decide (p.dataDir = .input)
  | .setOE .inactive => true
  | .setPGM .active =>
    p.ce.on && p.oe.off && p.lle.off && p.hle.off && decide (p.dataDir = .output) && setUp v e
  | .setPGM .inactive => width v e
  | .setAddrLo _ => p.oe.off && p.pgm.off && hold v e
  | .setAddrHi _ => p.oe.off && p.pgm.off && hold v e
  | .setData _ => p.oe.off && p.pgm.off && hold v e
  | .setDataDir _ => p.oe.off && p.pgm.off && hold v e
  | .setLLE .active => p.ce.off && p.oe.off && p.pgm.off && p.hle.off
  | .setHLE .active => p.ce.off && p.oe.off && p.pgm.off && p.lle.off
  | .setLLE .inactive => p.oe.off && p.pgm.off
  | .setHLE .inactive => p.oe.off && p.pgm.off
  | .capture _ _ =>
    p.ce.on && p.oe.on && p.pgm.off && p.lle.off && p.hle.off && decide (p.dataDir = .input) &&
      accessTime v e.time
  | .wait _ => true

end Sys2Proof.Machine
end

