-- ==== Sys2Proof/Safety.lean ====
section
/-! DEFINITION. The terms claims use: what a state that runs reach looks like, and when a request runs from its first
byte to its end in one piece. -/

namespace Sys2Proof.Machine

/-- The six elements of the safe state (R191). -/
structure Lines where
  ce : Line
  oe : Line
  pgm : Line
  lle : Line
  hle : Line
  dataDir : Dir
  deriving DecidableEq, Repr

/-- The six elements of the safe state, of a port. -/
def Port.lines (p : Port) : Lines :=
  { ce := p.ce, oe := p.oe, pgm := p.pgm, lle := p.lle, hle := p.hle, dataDir := p.dataDir }

/-- The safe state (R191). -/
def Lines.safe : Lines :=
  { ce := .inactive, oe := .inactive, pgm := .inactive, lle := .inactive, hle := .inactive, dataDir := .input }

/-- The effect of an operation of the sequencer on the lines, which no operand and no answer of the chip changes. -/
def SeqOp.onLines (l : Lines) : SeqOp → Lines
  | .setCE v => { l with ce := v }
  | .setOE v => { l with oe := v }
  | .setPGM v => { l with pgm := v }
  | .setLLE v => { l with lle := v }
  | .setHLE v => { l with hle := v }
  | .setDataDir d => { l with dataDir := d }
  | .setAddrLo _ => l
  | .setAddrHi _ => l
  | .setData _ => l
  | .wait _ => l
  | .capture _ => l
  | .crcSeed => l
  | .crcUpdate _ => l
  | .tx _ => l

/-- The lines after operations. -/
def linesAfter (ops : List SeqOp) (l : Lines) : Lines := ops.foldl SeqOp.onLines l

/-- The bytes folded into the accumulator so far while a frame is assembled: the selector and the payload received
(R148, R154). -/
def State.foldedBytes (s : State) : List Byte :=
  s.cmd.selector :: s.buf.firstBytes (min s.receivedLen.toNat (s.expectedLen.toNat - 2))

/-- What holds while a frame is assembled and not complete. -/
structure FrameInv (s : State) : Prop where
  /-- R27: the count is below the length of the command. -/
  count : s.receivedLen < s.expectedLen ∧ s.expectedLen = s.cmd.len
  /-- The buffer is zero from the count on (R71). -/
  fresh : ∀ a, s.receivedLen.toNat ≤ a → s.buf.get a = 0
  /-- R148, R154: the accumulator holds the CRC16 of the selector and the payload received so far. -/
  folded : s.crc = crc16 s.foldedBytes

/-- No completed frame is in process: no byte is, or one that completed none (R149). -/
def State.quiet (s : State) : Prop := s.busy = true → s.seq.noFrame = true

/-- The invariant of the machine. -/
structure Inv (s : State) : Prop where
  /-- The frame buffer is in its canonical form, inside its 260 bytes (R75). -/
  bufWf : s.buf.wf
  /-- The extension lines are always driven 0 (R29). -/
  extZero : s.port.addrExt = 0
  /-- While a frame is assembled and not complete, in the short window of a byte too (R156), it is as it should be. -/
  frame : s.fstate = .assembling → s.quiet → FrameInv s
  /-- A byte that completes no frame leaves no operation to do (R149, R156). -/
  window : s.seq.noFrame = true → s.seq.ops = []
  /-- R191, R196: with no byte in process the chip port is in the safe state. -/
  idleSafe : s.busy = false → s.port.safe ∧ s.seq = Seq.none
  /-- R196: what is left of the processing in progress leaves the chip port in the safe state. -/
  busySafe : s.busy = true → linesAfter s.seq.ops s.port.lines = Lines.safe

/-- The environment holds up no step: no pause, and the transmit peripheral takes each byte (R170). -/
structure Env.Prompt (e : Env) : Prop where
  uncut : e.cuts = []
  ready : e.txReady = true

/-- The block waits for a selector, and the environment holds up no step. -/
structure Ready (s : State) : Prop where
  idle : s.fstate = .idle
  notBusy : s.busy = false
  prompt : s.env.Prompt

/-- `u` is the state a byte that completes no frame leaves, and `t` is it, one pause used up, or its short window
(R156); with no pause `t` is `u`. -/
def State.SettlesTo (u t : State) : Prop :=
  (u.env.cuts = [] → t = u) ∧
    (t = u.setCuts u.env.cuts.tail ∨ t = (u.setCuts u.env.cuts.tail).enter Seq.window)

/-- The environment after chip-port operations `os` that used up `n` answers of the chip. -/
def Env.played (e : Env) (os : List MicroOp) (n : Nat) (xlatLo xlatHi : Byte) : Env :=
  { e with
    now := timeAfter Config.freeAdvance e.draws e.now os
    draws := e.draws + os.length
    trace := e.trace ++ stamp Config.freeAdvance e.draws e.now os
    chipIn := e.chipIn.drop n
    captures := e.captures + n
    xlatLo := xlatLo
    xlatHi := xlatHi }

/-- The environment after bytes were transmitted. -/
def Env.sent (e : Env) (bs : List Byte) : Env := { e with tx := e.tx ++ bs }

/-- The machine's processing of the byte in process, run to its end (R180): what is left of it, then nothing. -/
def State.playedOut (s : State) : State := runOps s.seq.ops s

/-- The port state of a trace at time `t` between handlers (R230, R240): the safe state, no change later than `t`, and
the hold time of the last program pulse is over. -/
def VState.settled (v : VState) (t : Nat) : Prop :=
  v.port.safe ∧ elapsed 0 v.tCE t ∧ elapsed 0 v.tOE t ∧ elapsed 0 v.tLLE t ∧ elapsed 0 v.tHLE t ∧
    elapsed 0 v.tDir t ∧ elapsed 0 v.tALo t ∧ elapsed 0 v.tAHi t ∧ elapsed 0 v.tDOut t ∧ elapsed tHD v.tPGM t

/-- The chip-port trace, from port state `v` on and with what is left of the processing in progress, meets V1 to V7
and ends settled with the port the block has (R240). -/
structure TraceInv (v : VState) (s : State) : Prop where
  ok : traceOk v s.playedOut.env.trace = true
  port : (v.after s.playedOut.env.trace).port = s.playedOut.port
  settled : (v.after s.playedOut.env.trace).settled s.playedOut.env.now

/-- The host offers one byte at a time and the machine takes one step for each. -/
def arriveSingly : List Byte → State → Result
  | [], s => .next s
  | b :: bs, s => andThen (step (s.offer [b])) (arriveSingly bs)

end Sys2Proof.Machine
end

