-- ==== Sys2Proof/Certificates/Slice0/Obligations.lean ====
section
/-! DEFINITION. The statements for the provers. Each docstring names the rules of spec/ it comes from, and the log entry
where it rests on a choice of the model. -/

open Sys2Proof Sys2Proof.Machine

/-! ### Requests that pass the gate -/

/-- IDENTIFY (R93, R151, R153, R192, R61). With the CRC of its selector the frame is answered by ACK and IDENT: the
next state is given whole, so it is also the frame of the instruction: no chip-port operation, and no register but the
frame fields, the accumulator and the buffer. -/
def Obligations.IdentifyAnswersTheString : Prop :=
  ∀ s : State, Ready s → ∃ m : Memory, m.wf ∧
    (∀ a, m.get a = if a = 0 then loByte (crc16 [selI]) else if a = 1 then hiByte (crc16 [selI]) else 0) ∧
    exec (.identify (crc16 [selI])) s = .next { s with
      cmd := .identify, expectedLen := 2, receivedLen := 2
      crc := crc16 Config.identString
      buf := m
      busy := false
      seq := Seq.none
      env := s.env.sent ([0x61, 0x7E, 0xA8] ++ Config.identString ++ le16 (crc16 Config.identString)) }

/-- READ (R94, R151, R153, R193, R61, R62). With the CRC of its selector and payload the frame is answered by ACK, then
the chip-port trace of R193 runs, then PAGE with the 256 bytes the chip answered. The next state is given whole. -/
def Obligations.ReadAnswersThePage : Prop :=
  ∀ (s : State) (lo hi : Byte), Ready s →
    let page := s.env.answers 256
    ∃ m : Memory, m.wf ∧ (∀ a, m.get a = if a < 256 then page.getD a 0 else 0) ∧
      exec (.read lo hi (crc16 [selR, lo, hi])) s = .next { s with
        cmd := .read, expectedLen := 4, receivedLen := 4
        crc := crc16 page
        buf := m
        port := { s.port with ce := .inactive, oe := .inactive, addrLo := 0xFF, addrHi := hi, addrExt := 0 }
        busy := false
        seq := Seq.none
        env := ((s.env.sent [0x61, 0x7E, 0xA8]).played (readTrace lo hi page) 256 s.env.xlatLo s.env.xlatHi).sent
          (page ++ le16 (crc16 page)) }

/-- WRITE (R95, R151, R153, R194, R61, R62, D22). With the CRC of its selector and payload the frame is answered by ACK,
then the chip-port trace of R194 runs with the 256 data bytes, then DONE. The next state is given whole. -/
def Obligations.WriteProgramsAndAnswersDone : Prop :=
  ∀ (s : State) (lo hi : Byte) (data : List Byte), Ready s → data.length = 256 →
    let crc := crc16 (selW :: lo :: hi :: data)
    ∃ m : Memory, m.wf ∧ (∀ a, m.get a = (lo :: hi :: (data ++ le16 crc)).getD a 0) ∧
      exec (.write lo hi data crc) s = .next { s with
        cmd := .write, expectedLen := 260, receivedLen := 260
        crc := 0x42C3
        buf := m
        port := { s.port with
          ce := .inactive, oe := .inactive, pgm := .inactive, addrLo := 0xFF, addrHi := hi, addrExt := 0,
          dataOut := data.getD 255 0, dataDir := .input }
        busy := false
        seq := Seq.none
        env := ((s.env.sent [0x61, 0x7E, 0xA8]).played (writeTrace lo hi data) 0 s.env.xlatLo s.env.xlatHi).sent
          [0x64, 0x6F, 0x6E, 0x65, 0xC3, 0x42] }

/-- FASTDUMP (R96, R151, R153, R195, R61, R63, D13). With the CRC of its selector and payload the frame is answered by
ACK, then the chip-port trace of R195 runs, then PAGE with the 256 bytes the chip answered; `addr_hi` is not touched and
the high latch holds the preset. The next state is given whole. -/
def Obligations.FastDumpAnswersThePage : Prop :=
  ∀ (s : State) (low unused : Byte), Ready s →
    let page := s.env.answers 256
    ∃ m : Memory, m.wf ∧ (∀ a, m.get a = if a < 256 then page.getD a 0 else 0) ∧
      exec (.fastDump low unused (crc16 [selF, low, unused])) s = .next { s with
        cmd := .fastDump, expectedLen := 4, receivedLen := 4
        crc := crc16 page
        buf := m
        port := { s.port with
          ce := .inactive, oe := .inactive, lle := .inactive, hle := .inactive, addrLo := 0xFF, dataOut := low,
          dataDir := .input }
        busy := false
        seq := Seq.none
        env := ((s.env.sent [0x61, 0x7E, 0xA8]).played (fastDumpTrace low page) 256 0xFF low).sent
          (page ++ le16 (crc16 page)) }

/-! ### Requests that do not, and bytes that select nothing -/

/-- R152, R262: a completed frame of any of the four commands whose received CRC `v` is not the computed one is
answered by 0x65 and the computed CRC, low byte first, and by nothing more; no handler runs and no chip-port operation
happens; `buf` keeps the bytes received and `crc` keeps the computed value; the block is in Idle. -/
def Obligations.MismatchAnswersErr : Prop :=
  ∀ (s : State) (v : Word), Ready s →
    let after (c : Cmd) (body : List Byte) (m : Memory) : State := { s with
      cmd := c, expectedLen := c.len, receivedLen := c.len
      crc := crc16 (c.selector :: body)
      buf := m
      busy := false
      seq := Seq.none
      env := s.env.sent (0x65 :: le16 (crc16 (c.selector :: body))) }
    let errs (i : Instr) (c : Cmd) (body : List Byte) : Prop :=
      v ≠ crc16 (c.selector :: body) → ∃ m : Memory, m.wf ∧ (∀ a, m.get a = (body ++ le16 v).getD a 0) ∧
        exec i s = .next (after c body m)
    errs (.identify v) .identify [] ∧
      (∀ lo hi : Byte, errs (.read lo hi v) .read [lo, hi]) ∧
      (∀ (lo hi : Byte) (data : List Byte), data.length = 256 →
        errs (.write lo hi data v) .write (lo :: hi :: data)) ∧
      ∀ low unused : Byte, errs (.fastDump low unused v) .fastDump [low, unused]

/-- R146, R261: a byte that is none of the four selectors, in Idle, changes no state element and draws no response: the
state after it is the state before. Where the environment pauses (log 4), the state before or its short window. -/
def Obligations.UnrecognizedSelectorChangesNothing : Prop :=
  ∀ (s : State) (b : Byte), (Instr.unrecognized b).WellFormed → s.fstate = .idle → s.busy = false →
    (s.env.cuts = [] → exec (.unrecognized b) s = .next s) ∧
    ∃ t : State, exec (.unrecognized b) s = .next t ∧ s.SettlesTo t

/-! ### Responses -/

/-- ACK (R100, R151): the three constants go on the transmit stream and the processing goes on; with nothing left to do
the block is in Idle again and nothing else has changed. Where the environment pauses the step or the peripheral is not
ready, `PausingDoesNotChangeTheResult` and `StalledTransmitterHoldsEverything` say the rest. That the ACK is an
instruction a state can run is the model's choice (log 9). -/
def Obligations.AckSendsThreeConstants : Prop :=
  ∀ s : State, s.env.Prompt →
    exec .ack s = .next (resume { s with busy := true, env := s.env.sent [0x61, 0x7E, 0xA8] }) ∧
    (s.seq = Seq.none →
      exec .ack s = .next { s with fstate := .idle, busy := false, env := s.env.sent [0x61, 0x7E, 0xA8] })

/-- ERR with any operand (the format is R101): 0x65 and the operand, low byte first. That ERR sends whatever operand a
caller of `exec` gives is the model's choice (log 9); that the block gives it the computed CRC (R152) is said by
`MismatchAnswersErr` and `CompletedFrameMeetsTheGate`. -/
def Obligations.ErrSendsItsOperand : Prop :=
  ∀ (s : State) (c : Word), s.env.Prompt →
    exec (.err c) s = .next (resume { s with busy := true, env := s.env.sent [0x65, loByte c, hiByte c] }) ∧
    (s.seq = Seq.none →
      exec (.err c) s = .next { s with fstate := .idle, busy := false, env := s.env.sent [0x65, loByte c, hiByte c] })

/-- IDENT (R102, R192, R153): the string, then its CRC, which the accumulator is left at. That it is an instruction a
state can run is the model's choice (log 9). -/
def Obligations.IdentSendsTheStringAndItsCrc : Prop :=
  ∀ s : State, s.env.Prompt →
    let crc := crc16 Config.identString
    exec .ident s = .next (resume { s with
      busy := true, crc := crc, env := s.env.sent (Config.identString ++ [loByte crc, hiByte crc]) }) ∧
    (s.seq = Seq.none →
      exec .ident s = .next { s with
        fstate := .idle, busy := false, crc := crc
        env := s.env.sent (Config.identString ++ [loByte crc, hiByte crc]) })

/-- PAGE with any operands (the format is R103): the bytes of its first operand in order, whatever their number, then
its second operand, low byte first. That PAGE sends whatever operands a caller of `exec` gives is the model's choice
(log 9); that the block gives it `buf[0]` to `buf[255]` and their CRC (R190) is said by
`StreamPageSendsTheCapturedPage`, `ReadAnswersThePage` and `FastDumpAnswersThePage`. -/
def Obligations.PageSendsItsOperands : Prop :=
  ∀ (s : State) (page : List Byte) (crc : Word), s.env.Prompt →
    exec (.page page crc) s = .next (resume { s with
      busy := true, env := s.env.sent (page ++ [loByte crc, hiByte crc]) }) ∧
    (s.seq = Seq.none →
      exec (.page page crc) s = .next { s with
        fstate := .idle, busy := false, env := s.env.sent (page ++ [loByte crc, hiByte crc]) })

/-- DONE (R104, W16 to W19 of R194, R153): `"done"` and 0xC3, 0x42; the accumulator is left at 0x42C3.
That it is an instruction a state can run is the model's choice (log 9). -/
def Obligations.DoneSendsTheLiteral : Prop :=
  ∀ s : State, s.env.Prompt →
    exec .done s = .next (resume { s with
      busy := true, crc := 0x42C3, env := s.env.sent [0x64, 0x6F, 0x6E, 0x65, 0xC3, 0x42] }) ∧
    (s.seq = Seq.none →
      exec .done s = .next { s with
        fstate := .idle, busy := false, crc := 0x42C3
        env := s.env.sent [0x64, 0x6F, 0x6E, 0x65, 0xC3, 0x42] })

/-! ### One step -/

/-- A step runs the decoded instruction (R5, R91): in Idle with no byte in process, the request that stands at the
front of the offered bytes, whose bytes are then no longer offered; with a byte in process, the response the thread of
control stands at the beginning of. That a step takes a whole request at once is the model's choice (log 3), and so is
that a step fetches a response as an instruction (log 9). -/
def Obligations.StepRunsTheDecodedInstruction : Prop :=
  ∀ s : State, s.env.rst = false →
    (∀ i rest, s.busy = false → s.fstate = .idle → decodeRequest s.env.rx = .ok (i, rest) →
      step s = exec i (s.setRx rest)) ∧
    (∀ p ps i, s.busy = true → s.seq.curr = [] → s.seq.phases = p :: ps → p.instr s = some i →
      step s = exec i (s.setSeq { s.seq with phases := ps }))

/-- R180, R197, R153: with a byte in process and an environment that holds up nothing, one step runs every operation
left, in list order, and ends in Idle, or, for a byte that completed no frame (R149), where it stood; the instruction it
fetches on the way is part of that list. -/
def Obligations.StepFinishesTheProcessing : Prop :=
  ∀ s : State, s.env.rst = false → s.busy = true → s.env.Prompt →
    step s = .next { runOps s.seq.ops s with
      fstate := if s.seq.noFrame then s.fstate else .idle, busy := false, seq := Seq.none }

/-- R147, R148: a byte accepted in Assembling is stored at offset `received_len`, which grows by 1; it is folded into
the accumulator if its offset is below `expected_len - 2`, and not otherwise. A byte that does not complete the frame
does nothing else (R149). Where the environment pauses (log 4) the step may end in the byte's short window. -/
def Obligations.StepStoresAndFoldsAFrameByte : Prop :=
  ∀ (s : State) (b : Byte) (rest : List Byte), Inv s → s.env.rst = false → s.busy = false → s.fstate = .assembling →
    s.env.rx = b :: rest → s.receivedLen.toNat + 1 ≠ s.expectedLen.toNat →
    ∃ m : Memory, m.wf ∧ (∀ a, m.get a = if a = s.receivedLen.toNat then b else s.buf.get a) ∧
      ∃ t : State, step s = .next t ∧ State.SettlesTo { s with
        buf := m
        receivedLen := s.receivedLen + 1
        crc := if s.receivedLen.toNat < s.expectedLen.toNat - 2 then crcUpdate s.crc b else s.crc
        env := { s.env with rx := rest } } t

/-- R149 to R154: the byte that makes the count equal to the length meets the gate. The received CRC is the last two
bytes, low byte first; the computed one is the CRC16 of the selector and the payload. If they are equal the ACK and the
handler of the recorded command run, if not the ERR does; either way the block is in Idle. -/
def Obligations.CompletedFrameMeetsTheGate : Prop :=
  ∀ (s : State) (b : Byte) (rest : List Byte), Inv s → s.env.rst = false → s.env.Prompt → s.busy = false →
    s.fstate = .assembling → s.env.rx = b :: rest → s.receivedLen.toNat + 1 = s.expectedLen.toNat →
    let computed := crc16 s.foldedBytes
    let received := ofLoHi (s.buf.get (s.expectedLen.toNat - 2)) b
    let ops := if received = computed then ackOps ++ (handlerPhases s.cmd).flatMap Phase.ops else errOps computed
    ∃ m : Memory, m.wf ∧ (∀ a, m.get a = if a = s.receivedLen.toNat then b else s.buf.get a) ∧
      step s = .next { runOps ops { s with
          buf := m, receivedLen := s.expectedLen, crc := computed, env := { s.env with rx := rest } } with
        fstate := .idle, busy := false, seq := Seq.none }

/-- R266 (and R155, R263: a frame in assembly waits for ever): with no byte in process and none offered nothing
happens. -/
def Obligations.NothingHappensWithoutAByte : Prop :=
  ∀ s : State, s.env.rst = false → s.busy = false → s.env.rx = [] → step s = .next s

/-- R290, R39: with `rst` raised a step abandons whatever was in progress and gives the elements R39 names their reset
values; nothing is transmitted and the trace does not grow. The values of the elements R39 leaves unspecified are the
model's (log 1) and are not stated; that a step takes the reset where a step can end is the model's choice (log 12). -/
def Obligations.ResetPutsTheBlockInIdle : Prop :=
  ∀ s : State, s.env.rst = true → ∃ t : State, step s = .next t ∧
    t.fstate = .idle ∧ t.busy = false ∧ t.seq = Seq.none ∧ t.port.safe ∧ t.port.addrExt = 0 ∧
    t.env = { s.env with rst := false }

/-- R39, R191: the reset values the spec gives. -/
def Obligations.ResetValuesTheSpecGives : Prop :=
  State.reset.fstate = .idle ∧ State.reset.busy = false ∧ State.reset.seq = Seq.none ∧
    State.reset.port.safe ∧ State.reset.port.addrExt = 0

/-- R32, R40: while a byte is in process no offered byte is accepted. A step leaves the offered bytes alone; that they
wait unless the receiver loses them is the model's choice (log 11). The meaning of a request only puts its bytes back
at the front of the offered ones, where `fetch` takes a request's bytes from: that is the model's choice (log 16), not
an arrival order. -/
def Obligations.BusyBlockAcceptsNothing : Prop :=
  ∀ s : State, s.busy = true →
    (∀ i : Instr, i.position = .request → exec i s = .next (s.setRx (encode i ++ s.env.rx))) ∧
    (s.env.rst = false → ∃ t : State, step s = .next t ∧ t.env.rx = s.env.rx)

/-- R106, R297: while a frame is assembled every byte of what the host meant as a fresh request is content, whatever
its value, selectors included: the bytes are stored one after another, folded up to offset `expected_len - 2`, and
nothing is answered. With no pause; for pauses see `PausingDoesNotChangeTheResult`. -/
def Obligations.SelectorsInsideAFrameAreData : Prop :=
  ∀ (s : State) (i : Instr), Inv s → s.busy = false → s.fstate = .assembling → s.env.cuts = [] →
    i.position = .request → s.receivedLen.toNat + (encode i).length < s.expectedLen.toNat →
    ∃ m : Memory, m.wf ∧
      (∀ a, m.get a = if s.receivedLen.toNat ≤ a ∧ a < s.receivedLen.toNat + (encode i).length
        then (encode i).getD (a - s.receivedLen.toNat) 0 else s.buf.get a) ∧
      exec i s = .next { s with
        buf := m
        receivedLen := BitVec.ofNat 9 (s.receivedLen.toNat + (encode i).length)
        crc := ((encode i).take (s.expectedLen.toNat - 2 - s.receivedLen.toNat)).foldl crcUpdate s.crc }

/-- R141 to R145: a selector accepted in Idle zeroes the whole buffer, resets the count, records length and command and
seeds the accumulator with the selector folded in; nothing is transmitted and no line moves. Where the environment
pauses (log 4) the state is this one or its short window. -/
def Obligations.SelectorStartsAFrame : Prop :=
  ∀ (s : State) (c : Cmd), s.fstate = .idle → s.busy = false →
    (∃ m : Memory, (∀ a, m.get a = 0) ∧
      ∃ t : State, rxByte c.selector s = .next t ∧ State.SettlesTo { s with
        fstate := .assembling, cmd := c, expectedLen := c.len, receivedLen := 0, buf := m
        crc := crcUpdate 0xFFFF c.selector } t) ∧
    Cmd.identify.selector = 0x69 ∧ Cmd.identify.len = 2 ∧ Cmd.read.selector = 0x72 ∧ Cmd.read.len = 4 ∧
    Cmd.write.selector = 0x77 ∧ Cmd.write.len = 260 ∧ Cmd.fastDump.selector = 0x66 ∧ Cmd.fastDump.len = 4

/-! ### Encoding -/

/-- R91 to R105: the decoder reads back every well-formed instruction from its wire bytes, with every operand, and
leaves the bytes after them. -/
def Obligations.DecodeOfEncodeIsTheInstruction : Prop :=
  ∀ (i : Instr) (rest : List Byte), i.WellFormed → decodeAt i.position (encode i ++ rest) = .ok (i, rest)

/-- R91 to R105, the other direction: what the decoder accepts at a position is a well-formed instruction, and its wire
bytes are the bytes it was read from. -/
def Obligations.EncodeOfDecodeIsTheBytes : Prop :=
  ∀ (p : Position) (bs rest : List Byte) (i : Instr), decodeAt p bs = .ok (i, rest) →
    i.WellFormed ∧ i.position = p ∧ encode i ++ rest = bs

/-- R107, R92, R105: the length of a request comes from its first byte alone. There is no request without a byte; a
selector with too few bytes after it is incomplete; every other byte sequence starts with a request, of one byte if it
starts with no selector and of the announced length if it does. -/
def Obligations.RequestLengthComesFromTheSelector : Prop :=
  decodeRequest [] = .error .noByte ∧
    ∀ (b : Byte) (bs : List Byte),
      (selectorOf b = none → decodeRequest (b :: bs) = .ok (.unrecognized b, bs)) ∧
      ∀ c, selectorOf b = some c →
        (bs.length < c.len.toNat → decodeRequest (b :: bs) = .error .incomplete) ∧
        (c.len.toNat ≤ bs.length → ∃ i, decodeRequest (b :: bs) = .ok (i, bs.drop c.len.toNat))

/-- Words written out from R93, R94, R96, R100, R101, R104, R105 and the table T2.14 decode to what they stand for. -/
def Obligations.SampleWordsDecode : Prop :=
  decodeRequest [0x69, 0x7F, 0x6E] = .ok (.identify 0x6E7F, []) ∧
    decodeRequest [0x72, 0x34, 0x12, 0x47, 0x16] = .ok (.read 0x34 0x12 0x1647, []) ∧
    decodeRequest [0x66, 0x05, 0xAA, 0x12, 0xF0] = .ok (.fastDump 0x05 0xAA 0xF012, []) ∧
    decodeRequest [0x78] = .ok (.unrecognized 0x78, []) ∧
    decodeAt .verdict [0x61, 0x7E, 0xA8] = .ok (.ack, []) ∧
    decodeAt .verdict [0x65, 0xD1, 0xDB] = .ok (.err 0xDBD1, []) ∧
    decodeAt .afterWrite [0x64, 0x6F, 0x6E, 0x65, 0xC3, 0x42] = .ok (.done, [])

/-! ### Invariants -/

/-- The invariant holds right after reset (R39, R191). -/
def Obligations.InvHoldsAtReset : Prop := Inv State.reset

/-- Every step keeps the invariant (R27, R29, R71, R75, R148, R154, R191, R196): the buffer keeps its canonical form
inside its 260 bytes; the extension lines stay 0; between bytes the count is below the length of the command, the buffer
is zero from the count on and the accumulator holds the CRC16 of the selector and the payload so far; with no byte in
process the chip port is in the safe state, and what is left of a processing leads there. -/
def Obligations.StepKeepsInv : Prop :=
  ∀ s t : State, Inv s → step s = .next t → Inv t

/-- R27, R75, R260: a state that meets the invariant never stops; the fault of the model lies outside. -/
def Obligations.InvStatesNeverStop : Prop :=
  ∀ s : State, Inv s → ∃ t : State, step s = .next t

/-- R40, R41, R43, R187, R295, R296: what the outside world can do between steps keeps the invariant. -/
def Obligations.EnvironmentKeepsInv : Prop :=
  ∀ s : State, Inv s → (∀ bs, Inv (s.offer bs)) ∧ (∀ k, Inv (s.lose k)) ∧ Inv s.raiseReset ∧
    (∀ bs, Inv (s.loadChip bs)) ∧ (∀ r, Inv (s.setTxReady r)) ∧ ∀ cs, Inv (s.setCuts cs)

/-- The one fault of the model (log 13): a count outside the buffer, which R27 and R75 exclude. -/
def Obligations.CountOutsideTheBufferFaults : Prop :=
  ∀ s : State, s.env.rst = false → s.busy = false → s.fstate = .assembling → s.env.rx ≠ [] →
    260 ≤ s.receivedLen.toNat → step s = .fault .bufferIndex

/-! ### The accumulator -/

/-- R121: `CRC.SEED` loads 0xFFFF and changes nothing else; twice is once; the earlier value is lost. -/
def Obligations.SeedForgetsTheAccumulator : Prop :=
  ∀ s : State, doOp .crcSeed s = { s with crc := 0xFFFF } ∧ doOp .crcSeed (doOp .crcSeed s) = doOp .crcSeed s ∧
    ∀ c, doOp .crcSeed (s.setCrc c) = doOp .crcSeed s

/-- R125, R172: the accumulator is read by transmitting its low byte and then its high byte, and the reading changes
nothing but the transmit stream; 0xA87E is sent as 0x7E, 0xA8. -/
def Obligations.CrcIsSentLowByteFirst : Prop :=
  ∀ s : State,
    runOps txCrc s = { s with env := { s.env with tx := s.env.tx ++ [s.crc.setWidth 8, (s.crc >>> 8).setWidth 8] } } ∧
    (s.crc = 0xA87E → (runOps txCrc s).env.tx = s.env.tx ++ [0x7E, 0xA8])

/-- R124: `CRC16(s)` is the accumulator after a seed and an update for each byte in order; 0xFFFF for the empty
sequence; and incremental. -/
def Obligations.CrcOfASequenceIsIncremental : Prop :=
  (∀ (bs : List Byte) (s : State),
    runOps (.crcSeed :: bs.map fun b => .crcUpdate (.lit b)) s = { s with crc := crc16 bs }) ∧
  crc16 [] = 0xFFFF ∧ ∀ (bs : List Byte) (b : Byte), crc16 (bs ++ [b]) = crcUpdate (crc16 bs) b

/-- R123: the table form of the update step. -/
def Obligations.CrcTableForm : Prop :=
  ∀ (c : Word) (b : Byte), crcUpdate c b = (c >>> 8) ^^^ crcUpdate 0 ((c ^^^ b.setWidth 16).setWidth 8)

/-- R127 a: a sequence followed by its CRC, low byte first, has the CRC 0. -/
def Obligations.CrcResidueIsZero : Prop :=
  ∀ bs : List Byte, crc16 (bs ++ [loByte (crc16 bs), hiByte (crc16 bs)]) = 0

/-- R127 b: a change of any single byte changes the CRC. -/
def Obligations.CrcSeesEverySingleByteChange : Prop :=
  ∀ (pre post : List Byte) (a b : Byte), a ≠ b → crc16 (pre ++ a :: post) ≠ crc16 (pre ++ b :: post)

/-! ### The sequencer and the transmitter -/

/-- R181, R182, R184, R185, R188: each of these micro-operations writes its register, joins the trace with the time at
which it takes effect, and changes no other register; the pin of a control line takes its level; `data_out` reaches
the bus exactly while the direction is out. `SetAddrHi` also drives the extension lines 0 (R183). The times and the
external latches are the model's environment (log 5, log 18). -/
def Obligations.MicroOperationsWriteTheirRegister : Prop :=
  ∀ s : State,
    let sets (o : SeqOp) (p : Port) (m : MicroOp) : Prop :=
      doOp o s = { s with port := p, env := (doOp o s).env } ∧
        ∃ time, s.env.now ≤ time ∧ (doOp o s).env = { s.env with
          now := time, draws := s.env.draws + 1, trace := s.env.trace ++ [{ time := time, op := m }],
          xlatLo := if m = .setLLE .active then s.port.addrLo else s.env.xlatLo,
          xlatHi := if m = .setHLE .active then s.port.addrLo else s.env.xlatHi }
    (∀ v, sets (.setCE v) { s.port with ce := v } (.setCE v)) ∧
    (∀ v, sets (.setOE v) { s.port with oe := v } (.setOE v)) ∧
    (∀ v, sets (.setPGM v) { s.port with pgm := v } (.setPGM v)) ∧
    (∀ v, sets (.setLLE v) { s.port with lle := v } (.setLLE v)) ∧
    (∀ v, sets (.setHLE v) { s.port with hle := v } (.setHLE v)) ∧
    (∀ v : Src, sets (.setAddrLo v) { s.port with addrLo := v.value s } (.setAddrLo (v.value s))) ∧
    (∀ v : Src, sets (.setAddrHi v) { s.port with addrHi := v.value s, addrExt := 0 } (.setAddrHi (v.value s))) ∧
    (∀ d, sets (.setDataDir d) { s.port with dataDir := d } (.setDataDir d)) ∧
    (∀ v : Src, sets (.setData v) { s.port with dataOut := v.value s } (.setData (v.value s))) ∧
    (∀ v : Src, (doOp (.setData v) s).drivenData = if s.port.dataDir = .output then some (v.value s) else none) ∧
    (doOp (.setDataDir .output) s).drivenData = some s.port.dataOut ∧ (doOp (.setDataDir .input) s).drivenData = none ∧
    ∀ v, (doOp (.setCE v) s).pinCE = pinLevel Config.ceLevel v ∧ (doOp (.setOE v) s).pinOE = pinLevel Config.oeLevel v ∧
      (doOp (.setPGM v) s).pinPGM = pinLevel Config.pgmLevel v ∧ (doOp (.setLLE v) s).pinLLE = pinLevel Config.lleLevel v ∧
      (doOp (.setHLE v) s).pinHLE = pinLevel Config.hleLevel v

/-- R186, R304: `Wait(n)` changes no state of the block; the next operation takes effect at least `n` microseconds, in
clock ticks, after the operation before the wait. -/
def Obligations.WaitOnlyLetsTimePass : Prop :=
  ∀ (s : State) (n : Nat), ∃ time, s.env.now + n * Config.ticksPerUs ≤ time ∧
    doOp (.wait n) s = { s with env := { s.env with
      now := time, draws := s.env.draws + 1, trace := s.env.trace ++ [{ time := time, op := .wait n }] } }

/-- R187: `Capture(k)` stores the byte on the data bus at `buf[k]` and changes no other byte and no register; the byte
is the chip's answer. Where the model takes the answer from is its choice (log 6). -/
def Obligations.CaptureStoresTheBusByte : Prop :=
  ∀ (s : State) (k : Byte), s.buf.wf →
    let d := s.env.answer 0
    ∃ (m : Memory) (time : Nat), m.wf ∧ (∀ a, m.get a = if a = k.toNat then d else s.buf.get a) ∧ s.env.now ≤ time ∧
      doOp (.capture k) s = { s with
        buf := m
        env := { s.env with
          now := time, draws := s.env.draws + 1, trace := s.env.trace ++ [{ time := time, op := .capture k d }],
          chipIn := s.env.chipIn.tail, captures := s.env.captures + 1 } }

/-- R189, D13: a strobe leaves its byte on `addr_lo` and in the external latch it pulses, and nothing in the other; its
enable is inactive again. -/
def Obligations.StrobeLoadsOneLatch : Prop :=
  ∀ (s : State) (b : Byte),
    (let t := runOps (strobeLow (.lit b)) s;
      t = { s with port := { s.port with addrLo := b, lle := .inactive }, env := t.env } ∧
        t.env.xlatLo = b ∧ t.env.xlatHi = s.env.xlatHi ∧
        t.env.trace.map Event.op = s.env.trace.map Event.op ++ [.setAddrLo b, .setLLE .active, .setLLE .inactive]) ∧
    (let t := runOps (strobeHigh (.lit b)) s;
      t = { s with port := { s.port with addrLo := b, hle := .inactive }, env := t.env } ∧
        t.env.xlatHi = b ∧ t.env.xlatLo = s.env.xlatLo ∧
        t.env.trace.map Event.op = s.env.trace.map Event.op ++ [.setAddrLo b, .setHLE .active, .setHLE .inactive])

/-- R190: `StreamPage` transmits `buf[0]` to `buf[255]` in increasing offset and then the accumulator, low byte first,
and does nothing else; after the captures of Read and of FastDump the accumulator is the CRC16 of those 256 bytes. -/
def Obligations.StreamPageSendsTheCapturedPage : Prop :=
  (∀ s : State, runOps streamPage s =
    { s with env := s.env.sent (s.buf.firstBytes 256 ++ [loByte s.crc, hiByte s.crc]) }) ∧
  ∀ s : State, s.buf.wf →
    (runOps readOps s).crc = crc16 ((runOps readOps s).buf.firstBytes 256) ∧
    (runOps fastDumpOps s).crc = crc16 ((runOps fastDumpOps s).buf.firstBytes 256)

/-- R171, R8, R180: a step only adds to the transmit stream and to the chip-port trace, and the times of what it adds
never go back. -/
def Obligations.TransmitStreamAndTraceOnlyGrow : Prop :=
  ∀ s t : State, step s = .next t →
    ∃ (bs : List Byte) (es : List Event), t.env.tx = s.env.tx ++ bs ∧ t.env.trace = s.env.trace ++ es ∧
      (es.map Event.time).Pairwise (· ≤ ·) ∧ (∀ e ∈ es, s.env.now ≤ e.time ∧ e.time ≤ t.env.now) ∧
      s.env.now ≤ t.env.now

/-- R202, R151: wherever the processing of a request pauses, no line has moved before the three bytes of the ACK are on
the transmit stream. -/
def Obligations.AckPrecedesTheFirstChipOperation : Prop :=
  ∀ (s t : State) (i : Instr), s.fstate = .idle → s.busy = false → i.WellFormed → i.position = .request →
    exec i s = .next t →
    (t.port = s.port ∧ t.env.trace = s.env.trace) ∨ ∃ more, t.env.tx = s.env.tx ++ [0x61, 0x7E, 0xA8] ++ more

/-- R198: the numbers of chip-port steps of Read, Write and FastDump, and the least time each takes, in clock ticks. -/
def Obligations.HandlerLengthsAndLeastDurations : Prop :=
  ∀ (lo hi : Byte) (page : List Byte) (adv : Nat → Nat) (n t : Nat), page.length = 256 →
    (readTrace lo hi page).length = 1285 ∧ (writeTrace lo hi page).length = 2055 ∧
    (fastDumpTrace lo page).length = 2313 ∧
    t + 256 * Config.ticksPerUs ≤ timeAfter adv n t (readTrace lo hi page) ∧
    t + 28160 * Config.ticksPerUs ≤ timeAfter adv n t (writeTrace lo hi page) ∧
    t + 256 * Config.ticksPerUs ≤ timeAfter adv n t (fastDumpTrace lo page)

/-- R170, R173, R41: while the peripheral is not ready to take the offered byte, or the environment pauses there
(log 4), the block holds: a step changes no register, transmits nothing, moves no line, accepts no byte; the same byte
is still offered, and what is left to do, to its end, is what was left before. Only the way the position is written may
change (log 9: a response at its beginning may be written out), and one pause is used up. -/
def Obligations.StalledTransmitterHoldsEverything : Prop :=
  ∀ (s : State) (b : Byte), s.env.rst = false → s.txOffer = some b →
    (s.env.txReady = false ∨ s.env.cuts.head? = some 0) →
    ∃ q : Seq, q.noFrame = s.seq.noFrame ∧ q.ops.length = s.seq.ops.length ∧ runOps q.ops s = runOps s.seq.ops s ∧
      step s = .next { s with seq := q, env := { s.env with cuts := s.env.cuts.tail } } ∧
      State.txOffer { s with seq := q, env := { s.env with cuts := s.env.cuts.tail } } = some b

/-- R33: pausing inside the processing of a byte and going on gives what going through in one piece gives, for a request
that arrives in any state that meets the invariant with no byte in process, whose bytes not yet accepted are then accepted, and for a processing already under way. With
a peripheral that is ready; for one that is not see `StalledTransmitterHoldsEverything`. The pauses are the model's
(log 4). -/
def Obligations.PausingDoesNotChangeTheResult : Prop :=
  (∀ (s t : State) (i : Instr), Inv s → s.busy = false → s.env.rst = false → s.env.txReady = true →
    i.position = .request → exec i s = .next t →
    andThen (if t.busy then step (t.setCuts []) else .next (t.setCuts []))
      (takeBytes (t.env.rx.length - s.env.rx.length)) = exec i (s.setCuts [])) ∧
  ∀ s t : State, s.busy = true → s.env.rst = false → s.env.txReady = true → step s = .next t →
    if t.busy then step (t.setCuts []) = step (s.setCuts []) else .next (t.setCuts []) = step (s.setCuts [])

/-- R140, R91: a request that arrives byte by byte, one step of the machine for each, ends where the request taken as a
whole ends. -/
def Obligations.ByteByByteArrivalEqualsTheWholeFrame : Prop :=
  ∀ (s : State) (i : Instr), Ready s → Inv s → s.env.rst = false → s.env.rx = [] → i.WellFormed →
    i.position = .request → arriveSingly (encode i) s = exec i s

/-- R297: whatever frame is in assembly, 260 bytes 0x00 bring the block back to Idle. -/
def Obligations.ZeroBytesEndAStall : Prop :=
  ∀ s : State, Inv s → s.busy = false → s.fstate = .assembling → s.env.rst = false → s.env.rx = [] →
    s.env.Prompt →
    ∃ t : State, arriveSingly (List.replicate 260 0x00) s = .next t ∧ t.fstate = .idle ∧ t.busy = false ∧ t.port.safe

/-! ### The validator -/

/-- R240: the trace of each of the four handlers meets V1 to V7 from any settled port state, for every operand, every
byte the chip answers and every choice of the time advances, and leaves the port state settled, so the handlers can
follow one another in any order (V8). The conditions are the spec's own (D17). -/
def Obligations.HandlerTracesAreValid : Prop :=
  ∀ (v : VState) (adv : Nat → Nat) (n t : Nat) (lo hi : Byte) (page : List Byte), v.settled t → page.length = 256 →
    ∀ os ∈ [identifyTrace, readTrace lo hi page, writeTrace lo hi page, fastDumpTrace lo page],
      ValidTrace v (stamp adv n t os) ∧ (v.after (stamp adv n t os)).settled (timeAfter adv n t os)

/-- R240, R196: every step that takes no reset keeps the chip-port trace valid, together with what is left of the
processing in progress. A reset in the middle of a handler is outside (R294, U10, log 12). -/
def Obligations.StepKeepsTheTraceValid : Prop :=
  ∀ (v : VState) (s t : State), Inv s → TraceInv v s → s.env.rst = false → step s = .next t → TraceInv v t

/-- R231, R232, R241: in a trace that meets the conditions the block never drives the data bus under output-enable, and
output-enable and program-enable are never active together, at any point. -/
def Obligations.ValidTracesNeverContend : Prop :=
  ∀ (v : VState) (es : List Event), v.port.safe → traceOk v es = true → ∀ n,
    ¬ ((v.after (es.take n)).port.dataDir = .output ∧ (v.after (es.take n)).port.oe = .active) ∧
    ¬ ((v.after (es.take n)).port.oe = .active ∧ (v.after (es.take n)).port.pgm = .active)

/-- R239: a step that meets its row of the table meets the conditions V1 to V7, wherever output-enable and
program-enable are not active together. -/
def Obligations.TableRowsMeetTheConditions : Prop :=
  ∀ (v : VState) (e : Event), ¬ (v.port.oe = .active ∧ v.port.pgm = .active) → tableOk v e = true →
    condV1 v.port e.op ∧ condV2 v.port e.op ∧ condV3 v.port e.op ∧ condV4 v e ∧ condV5 v.port e.op ∧ condV6 v e ∧
      condV7 v.port e.op

/-! ### With the ideal chip (a fixture outside the block, log 21) -/

/-- R62, R63, R65: on the direct path the captures of Read get exactly the page of the high address byte, and on the
latched path those of FastDump the page of the preset byte, offsets 0 to 255 in order. -/
def Obligations.IdealChipAnswersThePage : Prop :=
  ∀ (c : Chip) (lo hi : Byte) (page : List Byte), c.port.safe → page.length = 256 →
    (c.Answers .direct (readTrace lo hi page) ↔ page = pageAt c.mem hi) ∧
    (c.Answers .latched (fastDumpTrace lo page) ↔ page = pageAt c.mem lo) ∧
    (c.after .direct (readTrace lo hi page)).mem = c.mem ∧ (c.after .latched (fastDumpTrace lo page)).mem = c.mem

/-- R62, R194: on the direct path a Write programs the 256 data bytes into the page of its high address byte and leaves
every other address alone. -/
def Obligations.IdealChipIsProgrammedWithThePage : Prop :=
  ∀ (c : Chip) (lo hi : Byte) (data : List Byte), c.port.safe → data.length = 256 →
    (c.after .direct (writeTrace lo hi data)).mem = withPage c.mem hi data ∧
    pageAt (withPage c.mem hi data) hi = data ∧
    ∀ hi' : Byte, hi' ≠ hi → pageAt (withPage c.mem hi data) hi' = pageAt c.mem hi'

/-- R67, S11: a Write of a page followed by a Read with the same high address byte, by the machine itself with the ideal
chip on the direct path: if the captures get what the chip holds after the program pulses, the Read answers ACK, the
page that was written, and its CRC. -/
def Obligations.WriteThenReadReturnsThePage : Prop :=
  ∀ (s : State) (mem : BitVec 16 → Byte) (lo lo' hi : Byte) (data : List Byte), Ready s → Inv s → data.length = 256 →
    ∃ (t : State) (es : List Event),
      exec (.write lo hi data (crc16 (selW :: lo :: hi :: data))) s = .next t ∧ t.env.trace = s.env.trace ++ es ∧
      (Chip.Answers .direct (t.chip ((s.chip mem).after .direct (es.map Event.op)).mem)
          (readTrace lo' hi (t.env.answers 256)) →
        ∃ u : State, exec (.read lo' hi (crc16 [selR, lo', hi])) t = .next u ∧
          u.env.tx = t.env.tx ++ [0x61, 0x7E, 0xA8] ++ data ++ le16 (crc16 data))

/-! ### What has no effect -/

/-- R62, R65, R63: the low address byte of a Read has no effect on what is captured, sent and left behind, nor that of
a Write on the response; the unused byte of a FastDump has no effect on anything, times and trace included; and the
response of a Write depends on no operand. -/
def Obligations.IgnoredOperandsHaveNoEffect : Prop :=
  ∀ (s : State) (lo lo' hi : Byte), Ready s →
    (∃ t t' : State, exec (.read lo hi (crc16 [selR, lo, hi])) s = .next t ∧
      exec (.read lo' hi (crc16 [selR, lo', hi])) s = .next t' ∧
      t' = { t with env := { t.env with trace := t'.env.trace } } ∧
      t.env.trace.map Event.time = t'.env.trace.map Event.time) ∧
    exec (.fastDump hi lo (crc16 [selF, hi, lo])) s = exec (.fastDump hi lo' (crc16 [selF, hi, lo'])) s ∧
    (∀ (hi' : Byte) (data data' : List Byte), data.length = 256 → data'.length = 256 →
      ∃ t t' : State, exec (.write lo hi data (crc16 (selW :: lo :: hi :: data))) s = .next t ∧
        exec (.write lo' hi' data' (crc16 (selW :: lo' :: hi' :: data'))) s = .next t' ∧
        t.env.tx = t'.env.tx ∧ t.env.tx = s.env.tx ++ [0x61, 0x7E, 0xA8, 0x64, 0x6F, 0x6E, 0x65, 0xC3, 0x42])

/-! ### Pins and buffer -/

/-- R9, R30, R40, R42: a control pin is at its active level exactly when its line is active; the data bus is driven with
`data_out` exactly when the direction is out; the block is ready for a byte exactly when it is not busy. -/
def Obligations.PinsFollowTheRegisters : Prop :=
  ∀ s : State,
    (s.pinCE = Config.ceLevel ↔ s.port.ce = .active) ∧ (s.pinOE = Config.oeLevel ↔ s.port.oe = .active) ∧
    (s.pinPGM = Config.pgmLevel ↔ s.port.pgm = .active) ∧ (s.pinLLE = Config.lleLevel ↔ s.port.lle = .active) ∧
    (s.pinHLE = Config.hleLevel ↔ s.port.hle = .active) ∧
    (∀ d, s.drivenData = some d ↔ s.port.dataDir = .output ∧ d = s.port.dataOut) ∧
    (s.rxReady = true ↔ s.busy = false) ∧
    (s.port.addrExt = 0 → ∀ x ∈ s.pinsAExt, x = false)

/-- R26, R60, R65, R75: a byte written to the frame buffer is read back, every other byte is as before, the canonical
form is kept, and there is no byte at 260 or above; two buffers in the canonical form that read alike are equal. -/
def Obligations.BufferReadsBackWhatWasWritten : Prop :=
  (∀ (m : Memory) (a : Nat) (b : Byte), m.wf → a < 260 →
    ∃ m' : Memory, m.write a b = some m' ∧ m'.wf ∧ ∀ x, m'.read x = if x = a then some b else m.read x) ∧
  (∀ (m : Memory) (a : Nat) (b : Byte), 260 ≤ a → m.write a b = none ∧ m.read a = none) ∧
  ∀ m m' : Memory, m.wf → m'.wf → (∀ a, m.read a = m'.read a) → m = m'

/-! ### The environment: lost bytes, and the progress of the transmitter -/

/-- R32, R156, R296: a byte that completes no frame has a short window in which `busy = 1`. Where the environment lets a
step end there (log 4), the block is not ready for a byte, the bytes offered are still there, and the receiver may keep
or lose any of them; either way the next step ends the window in the state the byte leaves when it comes alone. -/
def Obligations.BytesInTheShortWindowAreKeptOrLost : Prop :=
  ∀ (s : State) (b : Byte) (rest : List Byte) (cs : List Nat), Inv s → s.env.rst = false → s.busy = false →
    s.env.rx = b :: rest → s.env.cuts = 0 :: cs →
    (s.fstate = .assembling → s.receivedLen.toNat + 1 ≠ s.expectedLen.toNat) →
    ∃ t u : State, step s = .next t ∧ t.busy = true ∧ t.rxReady = false ∧ t.env.rx = rest ∧
      step ((s.setCuts []).setRx [b]) = .next u ∧ u.busy = false ∧
      step t = .next ((u.setRx rest).setCuts cs.tail) ∧
      ∀ k, step (t.lose k) = .next ((u.setRx (rest.eraseIdx k)).setCuts cs.tail)

/-- R173, D20, R305: under the ASSUMPTION `TxFair` about the environment, that the peripheral is ready again and again,
every processing ends, whatever the finitely many pauses (log 4); without it a peripheral that is never ready holds the block for ever, busy
and offering the same byte, with nothing sent and no line moved. -/
def Obligations.FairPeripheralEndsTheProcessing : Prop :=
  (∀ (s : State) (ready : Nat → Bool), s.busy = true → s.env.rst = false → TxFair ready →
    ∃ (k : Nat) (t : State), runPaced k ready s = .next t ∧ t.busy = false) ∧
  ∀ (s : State) (b : Byte), s.env.rst = false → s.txOffer = some b → ∀ k, ∃ t : State,
    runPaced k (fun _ => false) s = .next t ∧ t.busy = true ∧ t.txOffer = some b ∧ t.env.tx = s.env.tx ∧
      t.port = s.port ∧ t.env.trace = s.env.trace
end

