-- ==== Sys2Proof/Laws/Crc.lean ====
section
/-! SUPPORT. Laws of the byte order and of the accumulator's functions. -/

namespace Sys2Proof.Machine

/-- The two bytes of a word put together again. -/
@[simp] theorem ofLoHi_lo_hi (v : Word) : ofLoHi (loByte v) (hiByte v) = v := by
  apply BitVec.eq_of_getLsbD_eq
  intro i hi
  simp only [ofLoHi, BitVec.getLsbD_append, loByte, hiByte, BitVec.getLsbD_setWidth, BitVec.getLsbD_ushiftRight]
  by_cases h : i < 8
  · simp [h]
  · simp [h, show i - 8 < 8 by omega, show 8 + (i - 8) = i by omega]

@[simp] theorem loByte_ofLoHi (lo hi : Byte) : loByte (ofLoHi lo hi) = lo := by
  apply BitVec.eq_of_getLsbD_eq
  intro i hi
  rw [loByte, BitVec.getLsbD_setWidth, ofLoHi, BitVec.getLsbD_append]
  simp [hi]

@[simp] theorem hiByte_ofLoHi (lo hi : Byte) : hiByte (ofLoHi lo hi) = hi := by
  apply BitVec.eq_of_getLsbD_eq
  intro i h
  rw [hiByte, BitVec.getLsbD_setWidth, BitVec.getLsbD_ushiftRight, ofLoHi, BitVec.getLsbD_append]
  simp [h]

@[simp] theorem le16_length (v : Word) : (le16 v).length = 2 := rfl

/-- Computing the numeral of a word first changes no value. -/
@[simp] theorem evalWord_eq {α : Type} (v : Word) (f : Word → α) : evalWord v f = f v := by
  unfold evalWord
  split
  · rename_i h
    rw [show v = 0 from BitVec.eq_of_toNat_eq (by simpa using h)]
  · rename_i n h
    rw [show n + 1 = v.toNat from h.symm]
    simp

@[simp] theorem crc16_nil : crc16 [] = crcSeed := rfl

/-- The CRC is incremental (R124): one byte more is one update more. -/
theorem crc16_snoc (s : List Byte) (b : Byte) : crc16 (s ++ [b]) = crcUpdate (crc16 s) b := by
  simp [crc16]

/-- The CRC of `"done"` is the one the opcode table fixes (R104). -/
theorem crc16_doneLit : crc16 doneLit = 0x42C3 := by decide +kernel

theorem crc16_singleton (b : Byte) : crc16 [b] = crcUpdate crcSeed b := rfl

end Sys2Proof.Machine
end

