-- ==== Sys2Proof/Laws/Memory.lean ====
section
/-! SUPPORT. The laws of the frame buffer: a read after a write, and the canonical form under every operation. -/

namespace Sys2Proof.Machine

@[simp] theorem Memory.get_nil (a : Nat) : Memory.get a [] = 0#8 := rfl

@[simp] theorem Memory.get_zeroed (a : Nat) : Memory.get a Memory.zeroed = 0#8 := rfl

theorem Memory.wf_zeroed : Memory.wf Memory.zeroed := by decide

theorem Memory.wf_nil : Memory.wf [] := by decide

/-- The tail of a canonical list is canonical. -/
theorem Memory.wf_tail {c : Host.Cell} {m : Memory} (h : Memory.wf (c :: m)) : Memory.wf m :=
  ⟨(List.pairwise_cons.mp h.1).2, fun x hx => h.2 x (List.mem_cons_of_mem _ hx)⟩

/-- An address below every listed one reads as 0. -/
theorem Memory.get_of_lt {a : Nat} {m : Memory} (h : ∀ c ∈ m, a < c.1) : m.get a = 0#8 := by
  induction m with
  | nil => rfl
  | cons c m ih =>
    have h1 := h c (by simp)
    simp only [Memory.get]
    rw [if_neg (by omega)]
    exact ih fun x hx => h x (by simp [hx])

/-- An address the buffer does not have reads as 0. -/
theorem Memory.get_of_ge {a : Nat} {m : Memory} (h : m.wf) (ha : bufCap ≤ a) : m.get a = 0#8 := by
  induction m with
  | nil => rfl
  | cons c m ih =>
    have h1 := (h.2 c (by simp)).1
    simp only [Memory.get]
    rw [if_neg (by omega)]
    exact ih (Memory.wf_tail h)

/-- A read of the byte just put gives it. -/
theorem Memory.get_put_same (a : Nat) (b : Byte) (m : Memory) (h : m.wf) : (m.put a b).get a = b := by
  induction m with
  | nil => by_cases hb : b = 0#8 <;> simp [Memory.put, Memory.get, hb]
  | cons c m ih =>
    obtain ⟨x, y⟩ := c
    have hlt : ∀ d ∈ m, x < d.1 := fun d hd => (List.pairwise_cons.mp h.1).1 d hd
    by_cases h1 : a < x
    · by_cases hb : b = 0#8
      · simp only [Memory.put, if_pos h1, if_pos hb, Memory.get, if_neg (show a ≠ x by omega)]
        rw [hb]
        exact Memory.get_of_lt fun d hd => by have := hlt d hd; omega
      · simp [Memory.put, h1, hb, Memory.get]
    · by_cases h2 : a = x
      · subst h2
        by_cases hb : b = 0#8
        · simp only [Memory.put, if_neg h1, if_true, if_pos hb]
          rw [hb]
          exact Memory.get_of_lt hlt
        · simp [Memory.put, hb, Memory.get]
      · simp only [Memory.put, if_neg h1, if_neg h2, Memory.get]
        exact ih (Memory.wf_tail h)

/-- A put leaves every other byte alone. -/
theorem Memory.get_put_other {a a' : Nat} (b : Byte) (m : Memory) (hne : a' ≠ a) :
    (m.put a b).get a' = m.get a' := by
  induction m with
  | nil => by_cases hb : b = 0#8 <;> simp [Memory.put, Memory.get, hb, hne]
  | cons c m ih =>
    obtain ⟨x, y⟩ := c
    by_cases h1 : a < x
    · by_cases hb : b = 0#8 <;> simp [Memory.put, h1, hb, Memory.get, hne]
    · by_cases h2 : a = x
      · subst h2
        by_cases hb : b = 0#8 <;> simp [Memory.put, hb, Memory.get, hne]
      · simp only [Memory.put, if_neg h1, if_neg h2, Memory.get]
        rw [ih]

/-- A read after a put. -/
theorem Memory.get_put (a a' : Nat) (b : Byte) (m : Memory) (h : m.wf) :
    (m.put a b).get a' = if a' = a then b else m.get a' := by
  by_cases hne : a' = a
  · subst hne; simp [Memory.get_put_same _ _ _ h]
  · simp [hne, Memory.get_put_other b m hne]

/-- The addresses a put lists are the old ones and its own. -/
theorem Memory.mem_put {a : Nat} {b : Byte} {m : Memory} {c : Host.Cell} (hc : c ∈ m.put a b) :
    c ∈ m ∨ (c = (a, b) ∧ b ≠ 0#8) := by
  induction m with
  | nil =>
    by_cases hb : b = 0#8
    · simp [Memory.put, hb] at hc
    · simp [Memory.put, hb] at hc; exact .inr ⟨hc, hb⟩
  | cons d m ih =>
    obtain ⟨x, y⟩ := d
    by_cases h1 : a < x
    · by_cases hb : b = 0#8
      · simp [Memory.put, h1, hb] at hc; simp [hc]
      · simp [Memory.put, h1, hb] at hc; rcases hc with h | h | h <;> simp [h, hb]
    · by_cases h2 : a = x
      · by_cases hb : b = 0#8
        · simp [Memory.put, h2, hb] at hc; simp [hc]
        · simp [Memory.put, h2, hb] at hc; rcases hc with h | h <;> simp [h, hb, h2]
      · simp only [Memory.put, if_neg h1, if_neg h2, List.mem_cons] at hc
        rcases hc with h | h
        · simp [h]
        · rcases ih h with h' | h'
          · simp [h']
          · exact .inr h'

/-- A put inside the buffer keeps the canonical form. -/
theorem Memory.wf_put {a : Nat} (b : Byte) {m : Memory} (h : m.wf) (ha : a < bufCap) : (m.put a b).wf := by
  constructor
  · induction m with
    | nil => by_cases hb : b = 0#8 <;> simp [Memory.put, hb]
    | cons d m ih =>
      obtain ⟨x, y⟩ := d
      have hlt : ∀ d ∈ m, x < d.1 := fun d hd => (List.pairwise_cons.mp h.1).1 d hd
      by_cases h1 : a < x
      · by_cases hb : b = 0#8
        · simp only [Memory.put, if_pos h1, if_pos hb]; exact h.1
        · simp only [Memory.put, if_pos h1, if_neg hb]
          refine List.pairwise_cons.mpr ⟨fun d hd => ?_, h.1⟩
          rcases List.mem_cons.mp hd with rfl | hd
          · exact h1
          · have := hlt d hd; simp only; omega
      · by_cases h2 : a = x
        · by_cases hb : b = 0#8
          · simp only [Memory.put, if_neg h1, if_pos h2, if_pos hb]; exact (Memory.wf_tail h).1
          · simp only [Memory.put, if_neg h1, if_pos h2, if_neg hb]
            subst h2
            exact List.pairwise_cons.mpr ⟨hlt, (Memory.wf_tail h).1⟩
        · simp only [Memory.put, if_neg h1, if_neg h2]
          refine List.pairwise_cons.mpr ⟨fun d hd => ?_, ih (Memory.wf_tail h)⟩
          rcases Memory.mem_put hd with hd | ⟨rfl, -⟩
          · exact hlt d hd
          · simp only; omega
  · intro c hc
    rcases Memory.mem_put hc with hc | ⟨rfl, hb⟩
    · exact h.2 c hc
    · exact ⟨ha, hb⟩

/-- What a write of the frame buffer can do: outside the 260 bytes it fails; inside, it puts the byte. -/
theorem Memory.write_eq_some {a : Nat} {b : Byte} {m m' : Memory} (h : m.wf) (hw : m.write a b = some m') :
    a < bufCap ∧ m'.wf ∧ ∀ x, m'.get x = if x = a then b else m.get x := by
  unfold Memory.write at hw
  split at hw
  · rename_i ha
    split at hw
    · rename_i hb
      obtain rfl := Option.some.inj hw
      refine ⟨ha, h, fun x => ?_⟩
      split
      · rename_i hx; rw [hx, hb]
      · rfl
    · obtain rfl := Option.some.inj hw
      exact ⟨ha, Memory.wf_put b h ha, fun x => Memory.get_put a x b m h⟩
  · exact absurd hw (by simp)

/-- A write inside the buffer succeeds. -/
theorem Memory.write_isSome {a : Nat} (b : Byte) (m : Memory) (ha : a < bufCap) : ∃ m', m.write a b = some m' := by
  unfold Memory.write
  rw [if_pos ha]
  split <;> exact ⟨_, rfl⟩

/-- A write outside the buffer fails. -/
theorem Memory.write_eq_none {a : Nat} (b : Byte) (m : Memory) (ha : bufCap ≤ a) : m.write a b = none := by
  unfold Memory.write
  rw [if_neg (by omega)]

@[simp] theorem Memory.firstBytes_length (n : Nat) (m : Memory) : (m.firstBytes n).length = n := by
  simp [Memory.firstBytes]

/-- One byte more of the buffer. -/
theorem Memory.firstBytes_succ (n : Nat) (m : Memory) : m.firstBytes (n + 1) = m.firstBytes n ++ [m.get n] := by
  simp [Memory.firstBytes, List.range_succ]

/-- Buffers that agree below `n` have the same first `n` bytes. -/
theorem Memory.firstBytes_congr {n : Nat} {m m' : Memory} (h : ∀ a, a < n → m.get a = m'.get a) :
    m.firstBytes n = m'.firstBytes n := by
  simp only [Memory.firstBytes]
  exact List.map_congr_left fun a ha => h a (List.mem_range.mp ha)

/-- Two canonical lists that read the same are the same list. -/
theorem Memory.ext_get {m m' : Memory} (h : m.wf) (h' : m'.wf) (hg : ∀ a, m.get a = m'.get a) : m = m' := by
  induction m generalizing m' with
  | nil =>
    cases m' with
    | nil => rfl
    | cons d m' =>
      have := hg d.1
      have hd := (h'.2 d (by simp)).2
      simp [Memory.get] at this
      exact absurd this.symm hd
  | cons c m ih =>
    cases m' with
    | nil =>
      have := hg c.1
      have hc := (h.2 c (by simp)).2
      simp [Memory.get] at this
      exact absurd this hc
    | cons d m' =>
      obtain ⟨a, b⟩ := c
      obtain ⟨a', b'⟩ := d
      have hm : ∀ x ∈ m, a < x.1 := fun x hx => (List.pairwise_cons.mp h.1).1 x hx
      have hm' : ∀ x ∈ m', a' < x.1 := fun x hx => (List.pairwise_cons.mp h'.1).1 x hx
      have hb := (h.2 (a, b) (by simp)).2
      have hb' := (h'.2 (a', b') (by simp)).2
      have hab : a = a' := by
        rcases Nat.lt_trichotomy a a' with hlt | heq | hgt
        · have := hg a
          simp only [Memory.get, if_true, if_neg (show a ≠ a' by omega)] at this
          rw [Memory.get_of_lt fun x hx => by have := hm' x hx; omega] at this
          exact absurd this hb
        · exact heq
        · have := hg a'
          simp only [Memory.get, if_true, if_neg (show a' ≠ a by omega)] at this
          rw [Memory.get_of_lt fun x hx => by have := hm x hx; omega] at this
          exact absurd this.symm hb'
      subst hab
      have hbb : b = b' := by simpa [Memory.get] using hg a
      subst hbb
      have : m = m' := by
        refine ih (Memory.wf_tail h) (Memory.wf_tail h') fun x => ?_
        have := hg x
        by_cases hx : x = a
        · subst hx
          rw [Memory.get_of_lt hm, Memory.get_of_lt hm']
        · simpa [Memory.get, hx] using this
      rw [this]

end Sys2Proof.Machine
end

