-- ==== Sys2Proof/Laws/State.lean ====
section
/-! SUPPORT. What each named update of State does to each field, so that no proof unfolds a record update. -/

namespace Sys2Proof.Machine

/-- The environment after `Capture(k)` (R187). -/
def Env.afterCapture (e : Env) (p : Port) (k : Byte) : Env :=
  { e.after p (.capture k (e.answer 0)) with chipIn := e.chipIn.tail, captures := e.captures + 1 }


/-! ### `State.setFState` -/

@[simp] theorem State.setFState_fstate (f : FState) (s : State) : (s.setFState f).fstate = f := rfl
@[simp] theorem State.setFState_cmd (f : FState) (s : State) : (s.setFState f).cmd = s.cmd := rfl
@[simp] theorem State.setFState_expectedLen (f : FState) (s : State) :
    (s.setFState f).expectedLen = s.expectedLen := rfl
@[simp] theorem State.setFState_receivedLen (f : FState) (s : State) :
    (s.setFState f).receivedLen = s.receivedLen := rfl
@[simp] theorem State.setFState_crc (f : FState) (s : State) : (s.setFState f).crc = s.crc := rfl
@[simp] theorem State.setFState_buf (f : FState) (s : State) : (s.setFState f).buf = s.buf := rfl
@[simp] theorem State.setFState_port (f : FState) (s : State) : (s.setFState f).port = s.port := rfl
@[simp] theorem State.setFState_busy (f : FState) (s : State) : (s.setFState f).busy = s.busy := rfl
@[simp] theorem State.setFState_seq (f : FState) (s : State) : (s.setFState f).seq = s.seq := rfl
@[simp] theorem State.setFState_env (f : FState) (s : State) : (s.setFState f).env = s.env := rfl

/-! ### `State.setCrc` -/

@[simp] theorem State.setCrc_fstate (c : Word) (s : State) : (s.setCrc c).fstate = s.fstate := rfl
@[simp] theorem State.setCrc_cmd (c : Word) (s : State) : (s.setCrc c).cmd = s.cmd := rfl
@[simp] theorem State.setCrc_expectedLen (c : Word) (s : State) : (s.setCrc c).expectedLen = s.expectedLen := rfl
@[simp] theorem State.setCrc_receivedLen (c : Word) (s : State) : (s.setCrc c).receivedLen = s.receivedLen := rfl
@[simp] theorem State.setCrc_crc (c : Word) (s : State) : (s.setCrc c).crc = c := rfl
@[simp] theorem State.setCrc_buf (c : Word) (s : State) : (s.setCrc c).buf = s.buf := rfl
@[simp] theorem State.setCrc_port (c : Word) (s : State) : (s.setCrc c).port = s.port := rfl
@[simp] theorem State.setCrc_busy (c : Word) (s : State) : (s.setCrc c).busy = s.busy := rfl
@[simp] theorem State.setCrc_seq (c : Word) (s : State) : (s.setCrc c).seq = s.seq := rfl
@[simp] theorem State.setCrc_env (c : Word) (s : State) : (s.setCrc c).env = s.env := rfl

/-! ### `State.setBuf` -/

@[simp] theorem State.setBuf_fstate (m : Memory) (s : State) : (s.setBuf m).fstate = s.fstate := rfl
@[simp] theorem State.setBuf_cmd (m : Memory) (s : State) : (s.setBuf m).cmd = s.cmd := rfl
@[simp] theorem State.setBuf_expectedLen (m : Memory) (s : State) : (s.setBuf m).expectedLen = s.expectedLen := rfl
@[simp] theorem State.setBuf_receivedLen (m : Memory) (s : State) : (s.setBuf m).receivedLen = s.receivedLen := rfl
@[simp] theorem State.setBuf_crc (m : Memory) (s : State) : (s.setBuf m).crc = s.crc := rfl
@[simp] theorem State.setBuf_buf (m : Memory) (s : State) : (s.setBuf m).buf = m := rfl
@[simp] theorem State.setBuf_port (m : Memory) (s : State) : (s.setBuf m).port = s.port := rfl
@[simp] theorem State.setBuf_busy (m : Memory) (s : State) : (s.setBuf m).busy = s.busy := rfl
@[simp] theorem State.setBuf_seq (m : Memory) (s : State) : (s.setBuf m).seq = s.seq := rfl
@[simp] theorem State.setBuf_env (m : Memory) (s : State) : (s.setBuf m).env = s.env := rfl

/-! ### `State.setPort` -/

@[simp] theorem State.setPort_fstate (p : Port) (s : State) : (s.setPort p).fstate = s.fstate := rfl
@[simp] theorem State.setPort_cmd (p : Port) (s : State) : (s.setPort p).cmd = s.cmd := rfl
@[simp] theorem State.setPort_expectedLen (p : Port) (s : State) : (s.setPort p).expectedLen = s.expectedLen := rfl
@[simp] theorem State.setPort_receivedLen (p : Port) (s : State) : (s.setPort p).receivedLen = s.receivedLen := rfl
@[simp] theorem State.setPort_crc (p : Port) (s : State) : (s.setPort p).crc = s.crc := rfl
@[simp] theorem State.setPort_buf (p : Port) (s : State) : (s.setPort p).buf = s.buf := rfl
@[simp] theorem State.setPort_port (p : Port) (s : State) : (s.setPort p).port = p := rfl
@[simp] theorem State.setPort_busy (p : Port) (s : State) : (s.setPort p).busy = s.busy := rfl
@[simp] theorem State.setPort_seq (p : Port) (s : State) : (s.setPort p).seq = s.seq := rfl
@[simp] theorem State.setPort_env (p : Port) (s : State) : (s.setPort p).env = s.env := rfl

/-! ### `State.setBusy` -/

@[simp] theorem State.setBusy_fstate (b : Bool) (s : State) : (s.setBusy b).fstate = s.fstate := rfl
@[simp] theorem State.setBusy_cmd (b : Bool) (s : State) : (s.setBusy b).cmd = s.cmd := rfl
@[simp] theorem State.setBusy_expectedLen (b : Bool) (s : State) : (s.setBusy b).expectedLen = s.expectedLen := rfl
@[simp] theorem State.setBusy_receivedLen (b : Bool) (s : State) : (s.setBusy b).receivedLen = s.receivedLen := rfl
@[simp] theorem State.setBusy_crc (b : Bool) (s : State) : (s.setBusy b).crc = s.crc := rfl
@[simp] theorem State.setBusy_buf (b : Bool) (s : State) : (s.setBusy b).buf = s.buf := rfl
@[simp] theorem State.setBusy_port (b : Bool) (s : State) : (s.setBusy b).port = s.port := rfl
@[simp] theorem State.setBusy_busy (b : Bool) (s : State) : (s.setBusy b).busy = b := rfl
@[simp] theorem State.setBusy_seq (b : Bool) (s : State) : (s.setBusy b).seq = s.seq := rfl
@[simp] theorem State.setBusy_env (b : Bool) (s : State) : (s.setBusy b).env = s.env := rfl

/-! ### `State.setSeq` -/

@[simp] theorem State.setSeq_fstate (q : Seq) (s : State) : (s.setSeq q).fstate = s.fstate := rfl
@[simp] theorem State.setSeq_cmd (q : Seq) (s : State) : (s.setSeq q).cmd = s.cmd := rfl
@[simp] theorem State.setSeq_expectedLen (q : Seq) (s : State) : (s.setSeq q).expectedLen = s.expectedLen := rfl
@[simp] theorem State.setSeq_receivedLen (q : Seq) (s : State) : (s.setSeq q).receivedLen = s.receivedLen := rfl
@[simp] theorem State.setSeq_crc (q : Seq) (s : State) : (s.setSeq q).crc = s.crc := rfl
@[simp] theorem State.setSeq_buf (q : Seq) (s : State) : (s.setSeq q).buf = s.buf := rfl
@[simp] theorem State.setSeq_port (q : Seq) (s : State) : (s.setSeq q).port = s.port := rfl
@[simp] theorem State.setSeq_busy (q : Seq) (s : State) : (s.setSeq q).busy = s.busy := rfl
@[simp] theorem State.setSeq_seq (q : Seq) (s : State) : (s.setSeq q).seq = q := rfl
@[simp] theorem State.setSeq_env (q : Seq) (s : State) : (s.setSeq q).env = s.env := rfl

/-! ### `State.enter` -/

@[simp] theorem State.enter_fstate (q : Seq) (s : State) : (s.enter q).fstate = s.fstate := rfl
@[simp] theorem State.enter_cmd (q : Seq) (s : State) : (s.enter q).cmd = s.cmd := rfl
@[simp] theorem State.enter_expectedLen (q : Seq) (s : State) : (s.enter q).expectedLen = s.expectedLen := rfl
@[simp] theorem State.enter_receivedLen (q : Seq) (s : State) : (s.enter q).receivedLen = s.receivedLen := rfl
@[simp] theorem State.enter_crc (q : Seq) (s : State) : (s.enter q).crc = s.crc := rfl
@[simp] theorem State.enter_buf (q : Seq) (s : State) : (s.enter q).buf = s.buf := rfl
@[simp] theorem State.enter_port (q : Seq) (s : State) : (s.enter q).port = s.port := rfl
@[simp] theorem State.enter_busy (q : Seq) (s : State) : (s.enter q).busy = true := rfl
@[simp] theorem State.enter_seq (q : Seq) (s : State) : (s.enter q).seq = q := rfl
@[simp] theorem State.enter_env (q : Seq) (s : State) : (s.enter q).env = s.env := rfl

/-! ### `State.setEnv` -/

@[simp] theorem State.setEnv_fstate (e : Env) (s : State) : (s.setEnv e).fstate = s.fstate := rfl
@[simp] theorem State.setEnv_cmd (e : Env) (s : State) : (s.setEnv e).cmd = s.cmd := rfl
@[simp] theorem State.setEnv_expectedLen (e : Env) (s : State) : (s.setEnv e).expectedLen = s.expectedLen := rfl
@[simp] theorem State.setEnv_receivedLen (e : Env) (s : State) : (s.setEnv e).receivedLen = s.receivedLen := rfl
@[simp] theorem State.setEnv_crc (e : Env) (s : State) : (s.setEnv e).crc = s.crc := rfl
@[simp] theorem State.setEnv_buf (e : Env) (s : State) : (s.setEnv e).buf = s.buf := rfl
@[simp] theorem State.setEnv_port (e : Env) (s : State) : (s.setEnv e).port = s.port := rfl
@[simp] theorem State.setEnv_busy (e : Env) (s : State) : (s.setEnv e).busy = s.busy := rfl
@[simp] theorem State.setEnv_seq (e : Env) (s : State) : (s.setEnv e).seq = s.seq := rfl
@[simp] theorem State.setEnv_env (e : Env) (s : State) : (s.setEnv e).env = e := rfl

/-! ### `State.setRx` -/

@[simp] theorem State.setRx_fstate (bs : List Byte) (s : State) : (s.setRx bs).fstate = s.fstate := rfl
@[simp] theorem State.setRx_cmd (bs : List Byte) (s : State) : (s.setRx bs).cmd = s.cmd := rfl
@[simp] theorem State.setRx_expectedLen (bs : List Byte) (s : State) : (s.setRx bs).expectedLen = s.expectedLen := rfl
@[simp] theorem State.setRx_receivedLen (bs : List Byte) (s : State) : (s.setRx bs).receivedLen = s.receivedLen := rfl
@[simp] theorem State.setRx_crc (bs : List Byte) (s : State) : (s.setRx bs).crc = s.crc := rfl
@[simp] theorem State.setRx_buf (bs : List Byte) (s : State) : (s.setRx bs).buf = s.buf := rfl
@[simp] theorem State.setRx_port (bs : List Byte) (s : State) : (s.setRx bs).port = s.port := rfl
@[simp] theorem State.setRx_busy (bs : List Byte) (s : State) : (s.setRx bs).busy = s.busy := rfl
@[simp] theorem State.setRx_seq (bs : List Byte) (s : State) : (s.setRx bs).seq = s.seq := rfl
@[simp] theorem State.setRx_env (bs : List Byte) (s : State) : (s.setRx bs).env = { s.env with rx := bs } := rfl

/-! ### `State.setCuts` -/

@[simp] theorem State.setCuts_fstate (cs : List Nat) (s : State) : (s.setCuts cs).fstate = s.fstate := rfl
@[simp] theorem State.setCuts_cmd (cs : List Nat) (s : State) : (s.setCuts cs).cmd = s.cmd := rfl
@[simp] theorem State.setCuts_expectedLen (cs : List Nat) (s : State) :
    (s.setCuts cs).expectedLen = s.expectedLen := rfl
@[simp] theorem State.setCuts_receivedLen (cs : List Nat) (s : State) :
    (s.setCuts cs).receivedLen = s.receivedLen := rfl
@[simp] theorem State.setCuts_crc (cs : List Nat) (s : State) : (s.setCuts cs).crc = s.crc := rfl
@[simp] theorem State.setCuts_buf (cs : List Nat) (s : State) : (s.setCuts cs).buf = s.buf := rfl
@[simp] theorem State.setCuts_port (cs : List Nat) (s : State) : (s.setCuts cs).port = s.port := rfl
@[simp] theorem State.setCuts_busy (cs : List Nat) (s : State) : (s.setCuts cs).busy = s.busy := rfl
@[simp] theorem State.setCuts_seq (cs : List Nat) (s : State) : (s.setCuts cs).seq = s.seq := rfl
@[simp] theorem State.setCuts_env (cs : List Nat) (s : State) : (s.setCuts cs).env = { s.env with cuts := cs } := rfl

/-! ### `State.setTxReady` -/

@[simp] theorem State.setTxReady_fstate (r : Bool) (s : State) : (s.setTxReady r).fstate = s.fstate := rfl
@[simp] theorem State.setTxReady_cmd (r : Bool) (s : State) : (s.setTxReady r).cmd = s.cmd := rfl
@[simp] theorem State.setTxReady_expectedLen (r : Bool) (s : State) :
    (s.setTxReady r).expectedLen = s.expectedLen := rfl
@[simp] theorem State.setTxReady_receivedLen (r : Bool) (s : State) :
    (s.setTxReady r).receivedLen = s.receivedLen := rfl
@[simp] theorem State.setTxReady_crc (r : Bool) (s : State) : (s.setTxReady r).crc = s.crc := rfl
@[simp] theorem State.setTxReady_buf (r : Bool) (s : State) : (s.setTxReady r).buf = s.buf := rfl
@[simp] theorem State.setTxReady_port (r : Bool) (s : State) : (s.setTxReady r).port = s.port := rfl
@[simp] theorem State.setTxReady_busy (r : Bool) (s : State) : (s.setTxReady r).busy = s.busy := rfl
@[simp] theorem State.setTxReady_seq (r : Bool) (s : State) : (s.setTxReady r).seq = s.seq := rfl
@[simp] theorem State.setTxReady_env (r : Bool) (s : State) :
    (s.setTxReady r).env = { s.env with txReady := r } := rfl

/-! ### `State.seedCrc` -/

@[simp] theorem State.seedCrc_fstate (s : State) : (s.seedCrc).fstate = s.fstate := rfl
@[simp] theorem State.seedCrc_cmd (s : State) : (s.seedCrc).cmd = s.cmd := rfl
@[simp] theorem State.seedCrc_expectedLen (s : State) : (s.seedCrc).expectedLen = s.expectedLen := rfl
@[simp] theorem State.seedCrc_receivedLen (s : State) : (s.seedCrc).receivedLen = s.receivedLen := rfl
@[simp] theorem State.seedCrc_crc (s : State) : (s.seedCrc).crc = crcSeed := rfl
@[simp] theorem State.seedCrc_buf (s : State) : (s.seedCrc).buf = s.buf := rfl
@[simp] theorem State.seedCrc_port (s : State) : (s.seedCrc).port = s.port := rfl
@[simp] theorem State.seedCrc_busy (s : State) : (s.seedCrc).busy = s.busy := rfl
@[simp] theorem State.seedCrc_seq (s : State) : (s.seedCrc).seq = s.seq := rfl
@[simp] theorem State.seedCrc_env (s : State) : (s.seedCrc).env = s.env := rfl

/-! ### `State.updateCrc` -/

@[simp] theorem State.updateCrc_fstate (b : Byte) (s : State) : (s.updateCrc b).fstate = s.fstate := rfl
@[simp] theorem State.updateCrc_cmd (b : Byte) (s : State) : (s.updateCrc b).cmd = s.cmd := rfl
@[simp] theorem State.updateCrc_expectedLen (b : Byte) (s : State) :
    (s.updateCrc b).expectedLen = s.expectedLen := rfl
@[simp] theorem State.updateCrc_receivedLen (b : Byte) (s : State) :
    (s.updateCrc b).receivedLen = s.receivedLen := rfl
@[simp] theorem State.updateCrc_crc (b : Byte) (s : State) : (s.updateCrc b).crc = crcUpdate s.crc b := rfl
@[simp] theorem State.updateCrc_buf (b : Byte) (s : State) : (s.updateCrc b).buf = s.buf := rfl
@[simp] theorem State.updateCrc_port (b : Byte) (s : State) : (s.updateCrc b).port = s.port := rfl
@[simp] theorem State.updateCrc_busy (b : Byte) (s : State) : (s.updateCrc b).busy = s.busy := rfl
@[simp] theorem State.updateCrc_seq (b : Byte) (s : State) : (s.updateCrc b).seq = s.seq := rfl
@[simp] theorem State.updateCrc_env (b : Byte) (s : State) : (s.updateCrc b).env = s.env := rfl

/-! ### `State.send` -/

@[simp] theorem State.send_fstate (b : Byte) (s : State) : (s.send b).fstate = s.fstate := rfl
@[simp] theorem State.send_cmd (b : Byte) (s : State) : (s.send b).cmd = s.cmd := rfl
@[simp] theorem State.send_expectedLen (b : Byte) (s : State) : (s.send b).expectedLen = s.expectedLen := rfl
@[simp] theorem State.send_receivedLen (b : Byte) (s : State) : (s.send b).receivedLen = s.receivedLen := rfl
@[simp] theorem State.send_crc (b : Byte) (s : State) : (s.send b).crc = s.crc := rfl
@[simp] theorem State.send_buf (b : Byte) (s : State) : (s.send b).buf = s.buf := rfl
@[simp] theorem State.send_port (b : Byte) (s : State) : (s.send b).port = s.port := rfl
@[simp] theorem State.send_busy (b : Byte) (s : State) : (s.send b).busy = s.busy := rfl
@[simp] theorem State.send_seq (b : Byte) (s : State) : (s.send b).seq = s.seq := rfl
@[simp] theorem State.send_env (b : Byte) (s : State) : (s.send b).env = s.env.sent [b] := rfl

/-! ### `State.micro` -/

@[simp] theorem State.micro_fstate (o : MicroOp) (s : State) : (s.micro o).fstate = s.fstate := rfl
@[simp] theorem State.micro_cmd (o : MicroOp) (s : State) : (s.micro o).cmd = s.cmd := rfl
@[simp] theorem State.micro_expectedLen (o : MicroOp) (s : State) : (s.micro o).expectedLen = s.expectedLen := rfl
@[simp] theorem State.micro_receivedLen (o : MicroOp) (s : State) : (s.micro o).receivedLen = s.receivedLen := rfl
@[simp] theorem State.micro_crc (o : MicroOp) (s : State) : (s.micro o).crc = s.crc := rfl
@[simp] theorem State.micro_buf (o : MicroOp) (s : State) : (s.micro o).buf = s.buf := rfl
@[simp] theorem State.micro_port (o : MicroOp) (s : State) : (s.micro o).port = s.port.apply o := rfl
@[simp] theorem State.micro_busy (o : MicroOp) (s : State) : (s.micro o).busy = s.busy := rfl
@[simp] theorem State.micro_seq (o : MicroOp) (s : State) : (s.micro o).seq = s.seq := rfl
@[simp] theorem State.micro_env (o : MicroOp) (s : State) : (s.micro o).env = s.env.after s.port o := rfl

/-! ### `State.capture` -/

@[simp] theorem State.capture_fstate (k : Byte) (s : State) : (s.capture k).fstate = s.fstate := rfl
@[simp] theorem State.capture_cmd (k : Byte) (s : State) : (s.capture k).cmd = s.cmd := rfl
@[simp] theorem State.capture_expectedLen (k : Byte) (s : State) : (s.capture k).expectedLen = s.expectedLen := rfl
@[simp] theorem State.capture_receivedLen (k : Byte) (s : State) : (s.capture k).receivedLen = s.receivedLen := rfl
@[simp] theorem State.capture_crc (k : Byte) (s : State) : (s.capture k).crc = s.crc := rfl
@[simp] theorem State.capture_buf (k : Byte) (s : State) :
    (s.capture k).buf = s.buf.put k.toNat (s.env.answer 0) := rfl
@[simp] theorem State.capture_port (k : Byte) (s : State) : (s.capture k).port = s.port := rfl
@[simp] theorem State.capture_busy (k : Byte) (s : State) : (s.capture k).busy = s.busy := rfl
@[simp] theorem State.capture_seq (k : Byte) (s : State) : (s.capture k).seq = s.seq := rfl
@[simp] theorem State.capture_env (k : Byte) (s : State) : (s.capture k).env = s.env.afterCapture s.port k := rfl

/-! ### `accept` -/

@[simp] theorem accept_fstate (b : Byte) (c : Cmd) (s : State) : (accept b c s).fstate = .assembling := rfl
@[simp] theorem accept_cmd (b : Byte) (c : Cmd) (s : State) : (accept b c s).cmd = c := rfl
@[simp] theorem accept_expectedLen (b : Byte) (c : Cmd) (s : State) : (accept b c s).expectedLen = c.len := rfl
@[simp] theorem accept_receivedLen (b : Byte) (c : Cmd) (s : State) : (accept b c s).receivedLen = 0 := rfl
@[simp] theorem accept_crc (b : Byte) (c : Cmd) (s : State) : (accept b c s).crc = crcUpdate crcSeed b := rfl
@[simp] theorem accept_buf (b : Byte) (c : Cmd) (s : State) : (accept b c s).buf = Memory.zeroed := rfl
@[simp] theorem accept_port (b : Byte) (c : Cmd) (s : State) : (accept b c s).port = s.port := rfl
@[simp] theorem accept_busy (b : Byte) (c : Cmd) (s : State) : (accept b c s).busy = s.busy := rfl
@[simp] theorem accept_seq (b : Byte) (c : Cmd) (s : State) : (accept b c s).seq = s.seq := rfl
@[simp] theorem accept_env (b : Byte) (c : Cmd) (s : State) : (accept b c s).env = s.env := rfl

/-! ### `settle` -/

/-- Emptying an empty list of pauses changes nothing. -/
theorem State.setCuts_nil {s : State} (h : s.env.cuts = []) : s.setCuts [] = s := by
  show { s with env := { s.env with cuts := [] } } = s
  rw [← h]

/-- All that `settle` can do: `busy` falls, or the step ends in the window before that; one pause is used up. -/
theorem settle_cases (s : State) :
    settle s = { s.setCuts s.env.cuts.tail with busy := false } ∨
      settle s = (s.setCuts s.env.cuts.tail).enter Seq.window := by
  unfold settle
  split
  · rename_i h; exact .inl (by rw [h, List.tail_nil, State.setCuts_nil h])
  · rename_i h; exact .inr (by simp only [h, List.tail_cons])
  · rename_i h; exact .inl (by simp only [h, List.tail_cons])

/-- With no pause `busy` falls. -/
theorem settle_uncut {s : State} (h : s.env.cuts = []) : settle s = { s with busy := false } := by
  simp only [settle, h]

@[simp] theorem settle_fstate (s : State) : (settle s).fstate = s.fstate := by unfold settle; split <;> rfl
@[simp] theorem settle_cmd (s : State) : (settle s).cmd = s.cmd := by unfold settle; split <;> rfl
@[simp] theorem settle_expectedLen (s : State) : (settle s).expectedLen = s.expectedLen := by
  unfold settle; split <;> rfl
@[simp] theorem settle_receivedLen (s : State) : (settle s).receivedLen = s.receivedLen := by
  unfold settle; split <;> rfl
@[simp] theorem settle_crc (s : State) : (settle s).crc = s.crc := by unfold settle; split <;> rfl
@[simp] theorem settle_buf (s : State) : (settle s).buf = s.buf := by unfold settle; split <;> rfl
@[simp] theorem settle_port (s : State) : (settle s).port = s.port := by unfold settle; split <;> rfl
@[simp] theorem settle_env (s : State) : (settle s).env = { s.env with cuts := s.env.cuts.tail } := by
  rcases settle_cases s with h | h <;> rw [h] <;> rfl

/-! ### `finish` -/

@[simp] theorem finish_fstate (s : State) :
    (finish s).fstate = if s.seq.noFrame then s.fstate else .idle := rfl
@[simp] theorem finish_cmd (s : State) : (finish s).cmd = s.cmd := rfl
@[simp] theorem finish_expectedLen (s : State) : (finish s).expectedLen = s.expectedLen := rfl
@[simp] theorem finish_receivedLen (s : State) : (finish s).receivedLen = s.receivedLen := rfl
@[simp] theorem finish_crc (s : State) : (finish s).crc = s.crc := rfl
@[simp] theorem finish_buf (s : State) : (finish s).buf = s.buf := rfl
@[simp] theorem finish_port (s : State) : (finish s).port = s.port := rfl
@[simp] theorem finish_busy (s : State) : (finish s).busy = false := rfl
@[simp] theorem finish_seq (s : State) : (finish s).seq = Seq.none := rfl
@[simp] theorem finish_env (s : State) : (finish s).env = s.env := rfl

/-! ### The chip port under a micro-operation -/

/-- No micro-operation makes the extension lines anything but 0 (R29). -/
theorem Port.apply_addrExt (p : Port) (o : MicroOp) (h : p.addrExt = 0) : (p.apply o).addrExt = 0 := by
  cases o <;> simp [Port.apply, h]

/-! ### The environment under a micro-operation -/

@[simp] theorem Env.after_rst (p : Port) (o : MicroOp) (e : Env) : (e.after p o).rst = e.rst := rfl
@[simp] theorem Env.after_rx (p : Port) (o : MicroOp) (e : Env) : (e.after p o).rx = e.rx := rfl
@[simp] theorem Env.after_tx (p : Port) (o : MicroOp) (e : Env) : (e.after p o).tx = e.tx := rfl
@[simp] theorem Env.after_chipIn (p : Port) (o : MicroOp) (e : Env) : (e.after p o).chipIn = e.chipIn := rfl
@[simp] theorem Env.after_captures (p : Port) (o : MicroOp) (e : Env) : (e.after p o).captures = e.captures := rfl
@[simp] theorem Env.after_txReady (p : Port) (o : MicroOp) (e : Env) : (e.after p o).txReady = e.txReady := rfl
@[simp] theorem Env.after_cuts (p : Port) (o : MicroOp) (e : Env) : (e.after p o).cuts = e.cuts := rfl
@[simp] theorem Env.after_draws (p : Port) (o : MicroOp) (e : Env) : (e.after p o).draws = e.draws + 1 := rfl
@[simp] theorem Env.after_now (p : Port) (o : MicroOp) (e : Env) :
    (e.after p o).now = e.now + Config.freeAdvance e.draws + o.leastTicks := rfl
@[simp] theorem Env.after_trace (p : Port) (o : MicroOp) (e : Env) :
    (e.after p o).trace =
      e.trace ++ [{ time := e.now + Config.freeAdvance e.draws + o.leastTicks, op := o }] := rfl

end Sys2Proof.Machine
end

