-- ==== Sys2Proof/Laws/Sequencer.lean ====
section
/-! SUPPORT. What the operations of the sequencer leave alone, what they do to the lines, and what a resumption can
do. -/

namespace Sys2Proof.Machine

/-! ### Lists of operations -/

@[simp] theorem runOps_nil (s : State) : runOps [] s = s := rfl

@[simp] theorem runOps_cons (o : SeqOp) (os : List SeqOp) (s : State) : runOps (o :: os) s = runOps os (doOp o s) := rfl

theorem runOps_append (os os' : List SeqOp) (s : State) : runOps (os ++ os') s = runOps os' (runOps os s) := by
  simp [runOps]

/-! ### What one operation leaves alone -/

@[simp] theorem doOp_fstate (o : SeqOp) (s : State) : (doOp o s).fstate = s.fstate := by cases o <;> rfl
@[simp] theorem doOp_cmd (o : SeqOp) (s : State) : (doOp o s).cmd = s.cmd := by cases o <;> rfl
@[simp] theorem doOp_expectedLen (o : SeqOp) (s : State) : (doOp o s).expectedLen = s.expectedLen := by
  cases o <;> rfl
@[simp] theorem doOp_receivedLen (o : SeqOp) (s : State) : (doOp o s).receivedLen = s.receivedLen := by
  cases o <;> rfl
@[simp] theorem doOp_busy (o : SeqOp) (s : State) : (doOp o s).busy = s.busy := by cases o <;> rfl
@[simp] theorem doOp_seq (o : SeqOp) (s : State) : (doOp o s).seq = s.seq := by cases o <;> rfl
@[simp] theorem doOp_rst (o : SeqOp) (s : State) : (doOp o s).env.rst = s.env.rst := by cases o <;> rfl
@[simp] theorem doOp_rx (o : SeqOp) (s : State) : (doOp o s).env.rx = s.env.rx := by cases o <;> rfl
@[simp] theorem doOp_txReady (o : SeqOp) (s : State) : (doOp o s).env.txReady = s.env.txReady := by cases o <;> rfl
@[simp] theorem doOp_cuts (o : SeqOp) (s : State) : (doOp o s).env.cuts = s.env.cuts := by cases o <;> rfl

@[simp] theorem runOps_fstate (os : List SeqOp) (s : State) : (runOps os s).fstate = s.fstate := by
  induction os generalizing s with
  | nil => rfl
  | cons o os ih => simp [ih]

@[simp] theorem runOps_cmd (os : List SeqOp) (s : State) : (runOps os s).cmd = s.cmd := by
  induction os generalizing s with
  | nil => rfl
  | cons o os ih => simp [ih]

@[simp] theorem runOps_expectedLen (os : List SeqOp) (s : State) : (runOps os s).expectedLen = s.expectedLen := by
  induction os generalizing s with
  | nil => rfl
  | cons o os ih => simp [ih]

@[simp] theorem runOps_receivedLen (os : List SeqOp) (s : State) : (runOps os s).receivedLen = s.receivedLen := by
  induction os generalizing s with
  | nil => rfl
  | cons o os ih => simp [ih]

@[simp] theorem runOps_busy (os : List SeqOp) (s : State) : (runOps os s).busy = s.busy := by
  induction os generalizing s with
  | nil => rfl
  | cons o os ih => simp [ih]

@[simp] theorem runOps_seq (os : List SeqOp) (s : State) : (runOps os s).seq = s.seq := by
  induction os generalizing s with
  | nil => rfl
  | cons o os ih => simp [ih]

@[simp] theorem runOps_rst (os : List SeqOp) (s : State) : (runOps os s).env.rst = s.env.rst := by
  induction os generalizing s with
  | nil => rfl
  | cons o os ih => simp [ih]

@[simp] theorem runOps_rx (os : List SeqOp) (s : State) : (runOps os s).env.rx = s.env.rx := by
  induction os generalizing s with
  | nil => rfl
  | cons o os ih => simp [ih]

@[simp] theorem runOps_txReady (os : List SeqOp) (s : State) : (runOps os s).env.txReady = s.env.txReady := by
  induction os generalizing s with
  | nil => rfl
  | cons o os ih => simp [ih]

@[simp] theorem runOps_cuts (os : List SeqOp) (s : State) : (runOps os s).env.cuts = s.env.cuts := by
  induction os generalizing s with
  | nil => rfl
  | cons o os ih => simp [ih]

/-! ### The lines, the extension lines and the canonical form -/

/-- An operation does to the lines what its list entry says, whatever its operands are. -/
theorem doOp_lines (o : SeqOp) (s : State) : (doOp o s).port.lines = SeqOp.onLines s.port.lines o := by
  cases o <;> rfl

theorem runOps_lines (os : List SeqOp) (s : State) : (runOps os s).port.lines = linesAfter os s.port.lines := by
  induction os generalizing s with
  | nil => rfl
  | cons o os ih => simp only [runOps_cons, ih, doOp_lines]; rfl

theorem linesAfter_append (os os' : List SeqOp) (l : Lines) :
    linesAfter (os ++ os') l = linesAfter os' (linesAfter os l) := by
  simp [linesAfter]

/-- The safe state, said of the port and of its lines (R191). -/
theorem Port.safe_iff_lines (p : Port) : p.safe ↔ p.lines = Lines.safe := by
  simp [Port.safe, Port.lines, Lines.safe]

theorem doOp_addrExt (o : SeqOp) (s : State) (h : s.port.addrExt = 0) : (doOp o s).port.addrExt = 0 := by
  cases o <;> first | exact h | rfl

theorem runOps_addrExt (os : List SeqOp) (s : State) (h : s.port.addrExt = 0) : (runOps os s).port.addrExt = 0 := by
  induction os generalizing s with
  | nil => exact h
  | cons o os ih => exact ih _ (doOp_addrExt o s h)

theorem doOp_bufWf (o : SeqOp) (s : State) (h : s.buf.wf) : (doOp o s).buf.wf := by
  cases o
  case capture k => exact Memory.wf_put _ h (by have := k.isLt; unfold bufCap; omega)
  all_goals exact h

theorem runOps_bufWf (os : List SeqOp) (s : State) (h : s.buf.wf) : (runOps os s).buf.wf := by
  induction os generalizing s with
  | nil => exact h
  | cons o os ih => exact ih _ (doOp_bufWf o s h)

/-! ### Positions -/

theorem Seq.ops_cons (curr : List SeqOp) (p : Phase) (ps : List Phase) (nf nf' : Bool) :
    (Seq.mk curr (p :: ps) nf).ops = curr ++ (Seq.mk p.ops ps nf').ops := by
  simp [Seq.ops]

/-- The operations left after `n` of them. -/
theorem positionAfter_ops (n : Nat) (curr : List SeqOp) (ps : List Phase) (nf : Bool) :
    (positionAfter n curr ps).ops = (Seq.mk curr ps nf).ops.drop n := by
  induction ps generalizing n curr nf with
  | nil => simp [positionAfter, Seq.ops]
  | cons p ps ih =>
    unfold positionAfter
    split
    · rename_i h
      rw [Seq.ops_cons _ _ _ _ false, Seq.ops_cons _ _ _ _ false, List.drop_append_of_le_length (by omega)]
    · split
      · rename_i h
        rw [Seq.ops_cons _ _ _ _ false, Seq.ops_cons _ _ _ _ false, h]
        simp
      · rename_i h h'
        rw [ih _ _ false, Seq.ops_cons _ _ _ _ false, List.drop_append,
          List.drop_eq_nil_of_le (by omega : curr.length ≤ n)]
        simp

@[simp] theorem Seq.drop_ops (n : Nat) (q : Seq) : (q.drop n).ops = q.ops.drop n :=
  positionAfter_ops n q.curr q.phases q.noFrame

@[simp] theorem Seq.drop_noFrame (n : Nat) (q : Seq) : (q.drop n).noFrame = q.noFrame := rfl

/-- No operation further on is the same position. -/
theorem Seq.drop_zero (q : Seq) (h : q.ops ≠ []) : q.drop 0 = q := by
  obtain ⟨c, ps, nf⟩ := q
  cases ps with
  | nil => simp [Seq.drop, positionAfter]
  | cons p ps => cases c <;> simp [Seq.drop, positionAfter]

@[simp] theorem Seq.none_ops : Seq.none.ops = [] := rfl

@[simp] theorem Seq.window_ops : Seq.window.ops = [] := rfl

/-! ### Resumption -/

/-- When the environment holds up nothing a resumption runs to the end. -/
theorem resume_uncut (s : State) (h : s.env.Prompt) : resume s = finish (runOps s.seq.ops s) := by
  simp [resume, Env.stopAt, h.uncut, h.ready, State.setCuts_nil h.uncut]

/-- All that a resumption can do: run every operation left and end the processing, or stop before the last of them; one
pause is used up. -/
theorem resume_cases (s : State) :
    resume s = finish (runOps s.seq.ops (s.setCuts s.env.cuts.tail)) ∨
      ∃ n, s.env.stopAt s.seq.ops = some n ∧ n < s.seq.ops.length ∧
        resume s = (runOps (s.seq.ops.take n) (s.setCuts s.env.cuts.tail)).setSeq (s.seq.drop n) := by
  unfold resume
  split
  · exact .inl rfl
  · rename_i n h
    by_cases hn : n < s.seq.ops.length
    · exact .inr ⟨n, h, hn, by simp [hn]⟩
    · exact .inl (by simp [hn])

/-- A processing with nothing left to do ends. -/
theorem resume_done {s : State} (h : s.seq.ops = []) : resume s = finish (s.setCuts s.env.cuts.tail) := by
  rcases resume_cases s with hr | ⟨n, -, hn, -⟩
  · rw [hr, h, runOps_nil]
  · rw [h] at hn; exact absurd hn (by simp)

/-- A resumption that is not let past its first operation only uses up a pause. -/
theorem resume_held {s : State} (h : s.seq.ops ≠ []) (h0 : s.env.stopAt s.seq.ops = some 0) :
    resume s = s.setCuts s.env.cuts.tail := by
  have hn : 0 < s.seq.ops.length := List.length_pos_iff.mpr h
  simp only [resume, h0, hn, if_true, List.take_zero, runOps_nil, Seq.drop_zero _ h]
  rfl

@[simp] theorem resume_rx (s : State) : (resume s).env.rx = s.env.rx := by
  rcases resume_cases s with h | ⟨n, -, -, h⟩ <;> simp [h]

@[simp] theorem resume_rst (s : State) : (resume s).env.rst = s.env.rst := by
  rcases resume_cases s with h | ⟨n, -, -, h⟩ <;> simp [h]

@[simp] theorem resume_txReady (s : State) : (resume s).env.txReady = s.env.txReady := by
  rcases resume_cases s with h | ⟨n, -, -, h⟩ <;> simp [h]

@[simp] theorem resume_cuts (s : State) : (resume s).env.cuts = s.env.cuts.tail := by
  rcases resume_cases s with h | ⟨n, -, -, h⟩ <;> simp [h]

/-! ### The position itself is not read -/

theorem doOp_setSeq (o : SeqOp) (q : Seq) (s : State) : doOp o (s.setSeq q) = (doOp o s).setSeq q := by
  cases o <;> rfl

theorem runOps_setSeq (os : List SeqOp) (q : Seq) (s : State) : runOps os (s.setSeq q) = (runOps os s).setSeq q := by
  induction os generalizing s with
  | nil => rfl
  | cons o os ih => simp [doOp_setSeq, ih]

/-- Of the position, the end of a processing reads only whether a frame was completed. -/
theorem finish_setSeq {q : Seq} {s : State} (h : q.noFrame = s.seq.noFrame) : finish (s.setSeq q) = finish s := by
  simp [finish, h, State.setSeq]

theorem doOp_setCuts (o : SeqOp) (cs : List Nat) (s : State) : doOp o (s.setCuts cs) = (doOp o s).setCuts cs := by
  cases o <;> rfl

theorem runOps_setCuts (os : List SeqOp) (cs : List Nat) (s : State) :
    runOps os (s.setCuts cs) = (runOps os s).setCuts cs := by
  induction os generalizing s with
  | nil => rfl
  | cons o os ih => simp [doOp_setCuts, ih]

/-- Transmitting a frame first and then going on is going on with the frame's operations first. -/
theorem respond_uncut (ops : List SeqOp) (s : State) (h : s.env.Prompt) :
    respond ops s = finish (runOps (ops ++ s.seq.ops) (s.enter { s.seq with curr := ops ++ s.seq.curr })) := by
  rw [respond, resume_uncut (s.enter _) h]
  simp [Seq.ops]

/-- A response with no pause: its operations run, then the processing goes on. -/
theorem respond_eq_resume (ops : List SeqOp) (s : State) (h : s.env.Prompt) :
    respond ops s = resume (runOps ops { s with busy := true }) := by
  rw [respond_uncut _ _ h, resume_uncut _ ⟨by simpa using h.uncut, by simpa using h.ready⟩]
  have : s.enter { s.seq with curr := ops ++ s.seq.curr } =
      ({ s with busy := true } : State).setSeq { s.seq with curr := ops ++ s.seq.curr } := rfl
  rw [this, runOps_setSeq, finish_setSeq (by simp), runOps_append, runOps_seq]

end Sys2Proof.Machine
end

