-- ==== Sys2Proof/Laws/Assembler.lean ====
section
/-! SUPPORT. What the operations of the frame assembler can do: one lemma per operation. -/

namespace Sys2Proof.Machine

@[simp] theorem andThen_next (s : State) (f : State → Result) : andThen (.next s) f = f s := rfl

/-- From a composed result that is a next state: the first part gave one. -/
theorem andThen_eq_next {r : Result} {f : State → Result} {t : State} (h : andThen r f = .next t) :
    ∃ s, r = .next s ∧ f s = .next t := by
  cases r with
  | next s => exact ⟨s, rfl, h⟩
  | fault e => exact absurd h (by simp [andThen])
  | refused e => exact absurd h (by simp [andThen])

/-! ### The selector map -/

/-- A selector selects its command (R92). -/
@[simp] theorem selectorOf_selector (c : Cmd) : selectorOf c.selector = some c := by cases c <;> rfl

/-- What the selector map can answer (R92). -/
theorem selectorOf_eq_some {b : Byte} {c : Cmd} (h : selectorOf b = some c) : b = c.selector := by
  unfold selectorOf at h
  split at h
  · rename_i hb; obtain rfl := Option.some.inj h; exact hb
  · split at h
    · rename_i hb; obtain rfl := Option.some.inj h; exact hb
    · split at h
      · rename_i hb; obtain rfl := Option.some.inj h; exact hb
      · split at h
        · rename_i hb; obtain rfl := Option.some.inj h; exact hb
        · exact absurd h (by simp)

/-- The lengths of the commands lie between 2 and the capacity (R91). -/
theorem Cmd.len_bounds (c : Cmd) : 2 ≤ c.len.toNat ∧ c.len.toNat ≤ bufCap := by cases c <;> decide

/-! ### Append, fold, gate -/

/-- Append and fold inside the buffer (R147, R148). -/
theorem append_eq {b : Byte} {s : State} {m : Memory} (h : s.buf.write s.receivedLen.toNat b = some m) :
    append b s = .next { s with
      buf := m
      receivedLen := s.receivedLen + 1
      crc := if isPayload s.receivedLen s.expectedLen then crcUpdate s.crc b else s.crc } := by
  simp [append, h]

/-- Append outside the buffer stops. -/
theorem append_fault {b : Byte} {s : State} (h : bufCap ≤ s.receivedLen.toNat) :
    append b s = .fault .bufferIndex := by
  simp [append, Memory.write_eq_none b s.buf h]

/-- All that append can do. -/
theorem append_cases (b : Byte) (s : State) :
    (∃ m, s.buf.write s.receivedLen.toNat b = some m ∧
      append b s = .next { s with
        buf := m
        receivedLen := s.receivedLen + 1
        crc := if isPayload s.receivedLen s.expectedLen then crcUpdate s.crc b else s.crc }) ∨
      append b s = .fault .bufferIndex := by
  cases h : s.buf.write s.receivedLen.toNat b with
  | some m => exact .inl ⟨m, rfl, append_eq h⟩
  | none => exact .inr (by simp [append, h])

/-- All that the gate can do (R150 to R152). -/
theorem gate_cases (s : State) :
    (∃ v, s.rxCrc = some v ∧
      gate s = .next (startPhases (if v = s.crc then matchPhases s.cmd else mismatchPhases s.crc) s)) ∨
      (s.rxCrc = none ∧ gate s = .fault .bufferIndex) := by
  cases h : s.rxCrc with
  | some v =>
    refine .inl ⟨v, rfl, ?_⟩
    by_cases hv : v = s.crc <;> simp [gate, h, gateMatch, hv]
  | none => exact .inr ⟨rfl, by simp [gate, h]⟩

/-- Inside the buffer the gate reads the two trailing bytes (R150). -/
theorem rxCrc_eq {s : State} (h2 : 2 ≤ s.expectedLen.toNat) (hc : s.expectedLen.toNat ≤ bufCap) :
    s.rxCrc = some (ofLoHi (s.buf.get (s.expectedLen.toNat - 2)) (s.buf.get (s.expectedLen.toNat - 1))) := by
  have e2 : (s.expectedLen - 2).toNat = s.expectedLen.toNat - 2 := by
    rw [BitVec.toNat_sub_of_le (by simpa [BitVec.le_def] using h2)]
    rfl
  have e1 : (s.expectedLen - 1).toNat = s.expectedLen.toNat - 1 := by
    rw [BitVec.toNat_sub_of_le (by simp [BitVec.le_def]; omega)]
    rfl
  have hb : bufCap = 260 := rfl
  simp only [State.rxCrc, Memory.read, e2, e1]
  rw [if_pos (by omega), if_pos (by omega)]

/-! ### One byte -/

/-- A byte that selects a command, in Idle (R141). -/
theorem rxByte_selector {b : Byte} {c : Cmd} {s : State} (hi : s.fstate = .idle) (hc : selectorOf b = some c) :
    rxByte b s = .next (settle { accept b c s with busy := true }) := by
  simp [rxByte, hi, hc, accept]

/-- A byte that selects nothing, in Idle (R146). -/
theorem rxByte_unrecognized {b : Byte} {s : State} (hi : s.fstate = .idle) (hc : selectorOf b = none) :
    rxByte b s = .next (settle { s with busy := true }) := by
  simp [rxByte, hi, hc]

/-- The processing of a byte that changed nothing but `busy` leaves the state it began with. -/
theorem settle_busy_uncut {s : State} (hb : s.busy = false) (hc : s.env.cuts = []) :
    settle { s with busy := true } = s := by
  rw [settle_uncut (s := { s with busy := true }) hc]
  show { s with busy := false } = s
  rw [← hb]

/-- A byte in Assembling (R147 to R149). -/
theorem rxByte_assembling {b : Byte} {s : State} (ha : s.fstate = .assembling) :
    rxByte b s = andThen (append b { s with busy := true }) completion := by
  simp [rxByte, ha]

/-! ### Several bytes -/

@[simp] theorem takeBytes_zero (s : State) : takeBytes 0 s = .next s := rfl

/-- Nothing is accepted while a byte is in process (R32, R40). -/
theorem takeBytes_busy (n : Nat) {s : State} (h : s.busy = true) : takeBytes n s = .next s := by
  cases n with
  | zero => rfl
  | succ n =>
    cases hr : s.env.rx <;> simp [takeBytes, hr, State.rxReady, h]

/-- Nothing is accepted when nothing is offered (R266). -/
theorem takeBytes_nil (n : Nat) {s : State} (h : s.env.rx = []) : takeBytes n s = .next s := by
  cases n <;> simp [takeBytes, h]

/-- One byte is accepted, then the rest. -/
theorem takeBytes_cons (n : Nat) {s : State} {b : Byte} {rest : List Byte} (hb : s.busy = false)
    (h : s.env.rx = b :: rest) : takeBytes (n + 1) s = andThen (rxByte b (s.setRx rest)) (takeBytes n) := by
  simp [takeBytes, h, State.rxReady, hb]

/-- Some bytes, then some more. -/
theorem takeBytes_add (n m : Nat) (s : State) : takeBytes (n + m) s = andThen (takeBytes n s) (takeBytes m) := by
  induction n generalizing s with
  | zero => simp
  | succ n ih =>
    rw [show n + 1 + m = (n + m) + 1 by omega]
    cases hr : s.env.rx with
    | nil => rw [takeBytes_nil _ hr, takeBytes_nil _ hr, andThen_next, takeBytes_nil _ hr]
    | cons b rest =>
      cases hb : s.busy with
      | true => rw [takeBytes_busy _ hb, takeBytes_busy _ hb, andThen_next, takeBytes_busy _ hb]
      | false =>
        rw [takeBytes_cons _ hb hr, takeBytes_cons _ hb hr]
        cases rxByte b (s.setRx rest) with
        | next u => simp only [andThen_next, ih]
        | fault e => rfl
        | refused e => rfl

theorem Memory.putAll_snoc (n : Nat) (m : Memory) (xs : List Byte) (y : Byte) :
    Memory.putAll n m (xs ++ [y]) = (Memory.putAll n m xs).put (n + xs.length) y := by
  induction xs generalizing n m with
  | nil => simp [Memory.putAll]
  | cons x xs ih =>
    simp only [List.cons_append, Memory.putAll, ih, List.length_cons]
    rw [show n + 1 + xs.length = n + (xs.length + 1) by omega]

/-- Bytes put into the buffer from offset `n` on. -/
theorem Memory.putAll_spec (n : Nat) (bs : List Byte) {m : Memory} (h : m.wf) (hn : n + bs.length ≤ bufCap) :
    (Memory.putAll n m bs).wf ∧
      ∀ a, (Memory.putAll n m bs).get a = if n ≤ a ∧ a < n + bs.length then bs.getD (a - n) 0 else m.get a := by
  induction bs generalizing n m with
  | nil => exact ⟨h, fun a => by simp [Memory.putAll]⟩
  | cons b bs ih =>
    simp only [List.length_cons] at hn
    obtain ⟨hw, hg⟩ := ih (n + 1) (Memory.wf_put b h (by omega : n < bufCap)) (by omega)
    refine ⟨hw, fun a => ?_⟩
    rw [Memory.putAll, hg, Memory.get_put n a b m h, List.length_cons]
    rcases Nat.lt_trichotomy a n with h1 | h1 | h1
    · simp [show ¬ n + 1 ≤ a by omega, show ¬ n ≤ a by omega, show a ≠ n by omega]
    · subst h1
      simp
    · obtain ⟨j, rfl⟩ : ∃ j, a = n + 1 + j := ⟨a - n - 1, by omega⟩
      simp only [show n + 1 ≤ n + 1 + j by omega, show n ≤ n + 1 + j by omega, true_and,
        show n + 1 + j ≠ n by omega, if_false, show n + 1 + j - (n + 1) = j by omega,
        show n + 1 + j - n = j + 1 by omega, List.getD_cons_succ]
      by_cases h2 : j < bs.length
      · rw [if_pos (by omega), if_pos (by omega)]
      · rw [if_neg (by omega), if_neg (by omega)]

/-- A write of the buffer is a put. -/
theorem Memory.write_eq_put {a : Nat} (b : Byte) {m : Memory} (h : m.wf) (ha : a < bufCap) :
    m.write a b = some (m.put a b) := by
  unfold Memory.write
  rw [if_pos ha]
  split
  · rename_i hb
    congr 1
    refine Memory.ext_get h (Memory.wf_put b h ha) fun x => ?_
    rw [Memory.get_put a x b m h]
    split
    · rename_i hx; rw [hx, hb]
    · rfl
  · rfl

/-- A byte that does not complete the frame (R147 to R149). -/
theorem rxByte_more {b : Byte} {s : State} (ha : s.fstate = .assembling) (hw : s.buf.wf)
    (hlt : s.receivedLen.toNat + 1 < s.expectedLen.toNat) (hc : s.expectedLen.toNat ≤ bufCap) :
    rxByte b s = .next (settle { s with
      buf := s.buf.put s.receivedLen.toNat b
      receivedLen := s.receivedLen + 1
      crc := if isPayload s.receivedLen s.expectedLen then crcUpdate s.crc b else s.crc
      busy := true }) := by
  have hb : bufCap = 260 := rfl
  have h1 : (s.receivedLen + 1).toNat = s.receivedLen.toNat + 1 := by
    rw [BitVec.toNat_add]
    exact Nat.mod_eq_of_lt (by simp; omega)
  have hne : ¬ s.receivedLen + 1#9 = s.expectedLen := by
    intro h
    have h1' : (s.receivedLen + 1#9).toNat = s.receivedLen.toNat + 1 := h1
    rw [h] at h1'
    omega
  rw [rxByte_assembling ha, append_eq (s := { s with busy := true })
    (Memory.write_eq_put b hw (by show s.receivedLen.toNat < bufCap; omega))]
  simp [completion, State.frameComplete, hne]

/-- The byte that completes the frame meets the gate (R149, R150). -/
theorem rxByte_last {b : Byte} {s : State} (ha : s.fstate = .assembling) (hw : s.buf.wf)
    (h2 : 2 ≤ s.expectedLen.toNat) (hlast : s.receivedLen.toNat + 1 = s.expectedLen.toNat)
    (hc : s.expectedLen.toNat ≤ bufCap) :
    rxByte b s = gate { s with
      buf := s.buf.put s.receivedLen.toNat b
      receivedLen := s.expectedLen
      busy := true } := by
  have hb : bufCap = 260 := rfl
  have h1 : s.receivedLen + 1#9 = s.expectedLen := by
    apply BitVec.eq_of_toNat_eq
    rw [BitVec.toNat_add, ← hlast]
    exact Nat.mod_eq_of_lt (by simp; omega)
  have hp : isPayload s.receivedLen s.expectedLen = false := by
    have e2 : (s.expectedLen - 2).toNat = s.expectedLen.toNat - 2 := by
      rw [BitVec.toNat_sub_of_le (by simpa [BitVec.le_def] using h2)]
      rfl
    simp only [isPayload, decide_eq_false_iff_not, BitVec.lt_def, e2]
    omega
  rw [rxByte_assembling ha, append_eq (s := { s with busy := true })
    (Memory.write_eq_put b hw (by show s.receivedLen.toNat < bufCap; omega))]
  simp [completion, State.frameComplete, h1, hp]

/-- The fold condition in natural numbers (R148). -/
theorem isPayload_iff {o e : Len} (h2 : 2 ≤ e.toNat) : isPayload o e = decide (o.toNat + 2 < e.toNat) := by
  have e2 : (e - 2).toNat = e.toNat - 2 := by
    rw [BitVec.toNat_sub_of_le (by simpa [BitVec.le_def] using h2)]
    rfl
  simp only [isPayload, BitVec.lt_def, e2, decide_eq_decide]
  omega

/-- Bytes that do not complete the frame, with no pause (R147 to R149): all are stored, those of the payload are
folded. -/
theorem takeBytes_more (bs rest : List Byte) (s : State) (ha : s.fstate = .assembling) (hb : s.busy = false)
    (hu : s.env.cuts = []) (hw : s.buf.wf) (h2 : 2 ≤ s.expectedLen.toNat) (hc : s.expectedLen.toNat ≤ bufCap)
    (hlt : s.receivedLen.toNat + bs.length < s.expectedLen.toNat) (hrx : s.env.rx = bs ++ rest) :
    takeBytes bs.length s = .next { s with
      buf := Memory.putAll s.receivedLen.toNat s.buf bs
      receivedLen := BitVec.ofNat 9 (s.receivedLen.toNat + bs.length)
      crc := (bs.take (s.expectedLen.toNat - 2 - s.receivedLen.toNat)).foldl crcUpdate s.crc
      env := { s.env with rx := rest } } := by
  induction bs generalizing s with
  | nil =>
    cases s
    simp only [List.nil_append] at hrx
    simp [Memory.putAll, ← hrx]
  | cons b bs ih =>
    have hcap : bufCap = 260 := rfl
    simp only [List.length_cons] at hlt ⊢
    have h1 : (s.receivedLen + 1).toNat = s.receivedLen.toNat + 1 := by
      rw [BitVec.toNat_add]
      exact Nat.mod_eq_of_lt (by simp; omega)
    rw [takeBytes_cons bs.length hb (by simpa using hrx),
      rxByte_more (s := s.setRx (bs ++ rest)) ha hw (by simp; omega) hc,
      settle_uncut (by exact hu), andThen_next]
    rw [ih _ (by exact ha) rfl (by exact hu) (by exact Memory.wf_put b hw (by show s.receivedLen.toNat < bufCap; omega)) (by exact h2) (by exact hc)
      (by show (s.receivedLen + 1).toNat + bs.length < s.expectedLen.toNat; omega) rfl]
    simp only [State.setRx_receivedLen, State.setRx_expectedLen, State.setRx_crc, State.setRx_buf,
      State.setRx_env, State.setRx_fstate, State.setRx_cmd, State.setRx_port, State.setRx_seq, h1, Memory.putAll,
      isPayload_iff h2, hb]
    congr 2
    · congr 1; omega
    · by_cases hp : s.receivedLen.toNat + 2 < s.expectedLen.toNat
      · obtain ⟨j, hj⟩ : ∃ j, s.expectedLen.toNat - 2 - s.receivedLen.toNat = j + 1 :=
          ⟨s.expectedLen.toNat - 2 - s.receivedLen.toNat - 1, by omega⟩
        rw [show s.expectedLen.toNat - 2 - (s.receivedLen.toNat + 1) = j by omega, hj]
        simp [hp]
      · rw [show s.expectedLen.toNat - 2 - (s.receivedLen.toNat + 1) = 0 by omega,
          show s.expectedLen.toNat - 2 - s.receivedLen.toNat = 0 by omega]
        simp [hp]

end Sys2Proof.Machine
end

