-- ==== Sys2Proof/Laws/Env.lean ====
section
/-! SUPPORT. The environment under lists of micro-operations: times, trace and the chip's answers add up. -/

namespace Sys2Proof.Machine

@[simp] theorem stamp_nil (adv : Nat → Nat) (n t : Nat) : stamp adv n t [] = [] := rfl

@[simp] theorem timeAfter_nil (adv : Nat → Nat) (n t : Nat) : timeAfter adv n t [] = t := rfl

theorem timeAfter_append (adv : Nat → Nat) (n t : Nat) (os os' : List MicroOp) :
    timeAfter adv n t (os ++ os') = timeAfter adv (n + os.length) (timeAfter adv n t os) os' := by
  induction os generalizing n t with
  | nil => rfl
  | cons o os ih =>
    simp only [List.cons_append, timeAfter, ih, List.length_cons]
    rw [show n + 1 + os.length = n + (os.length + 1) by omega]

theorem stamp_append (adv : Nat → Nat) (n t : Nat) (os os' : List MicroOp) :
    stamp adv n t (os ++ os') = stamp adv n t os ++ stamp adv (n + os.length) (timeAfter adv n t os) os' := by
  induction os generalizing n t with
  | nil => rfl
  | cons o os ih =>
    simp only [List.cons_append, stamp, timeAfter, ih, List.length_cons]
    rw [show n + 1 + os.length = n + (os.length + 1) by omega]

/-- Time never runs backwards (R8). -/
theorem timeAfter_ge (adv : Nat → Nat) (n t : Nat) (os : List MicroOp) : t ≤ timeAfter adv n t os := by
  induction os generalizing n t with
  | nil => exact Nat.le_refl t
  | cons o os ih => exact Nat.le_trans (by omega) (ih _ _)

/-- The operations of a stamped trace are those that were stamped. -/
theorem stamp_ops (adv : Nat → Nat) (n t : Nat) (os : List MicroOp) : (stamp adv n t os).map Event.op = os := by
  induction os generalizing n t with
  | nil => rfl
  | cons o os ih => simp [stamp, ih]

/-- One micro-operation is a list of one. -/
theorem Env.after_eq_played (p : Port) (o : MicroOp) (e : Env) :
    e.after p o = e.played [o] 0 (latchLo p e.xlatLo o) (latchHi p e.xlatHi o) := rfl

theorem Env.afterCapture_eq_played (p : Port) (k : Byte) (e : Env) :
    e.afterCapture p k = e.played [.capture k (e.answer 0)] 1 e.xlatLo e.xlatHi := by
  simp [Env.afterCapture, Env.after, Env.played, latchLo, latchHi, stamp, timeAfter]

theorem Env.played_nil (e : Env) : e.played [] 0 e.xlatLo e.xlatHi = e := by
  simp [Env.played]

/-- Two lists of micro-operations one after the other. -/
theorem Env.played_played (e : Env) (os os' : List MicroOp) (n n' : Nat) (lo hi lo' hi' : Byte) :
    (e.played os n lo hi).played os' n' lo' hi' = e.played (os ++ os') (n + n') lo' hi' := by
  simp only [Env.played, timeAfter_append, stamp_append, List.length_append, List.append_assoc, List.drop_drop,
    Nat.add_assoc]

@[simp] theorem Env.played_xlatLo (e : Env) (os : List MicroOp) (n : Nat) (lo hi : Byte) :
    (e.played os n lo hi).xlatLo = lo := rfl

@[simp] theorem Env.played_xlatHi (e : Env) (os : List MicroOp) (n : Nat) (lo hi : Byte) :
    (e.played os n lo hi).xlatHi = hi := rfl

/-- The answers after `n` of them were used up. -/
@[simp] theorem Env.played_answer (e : Env) (os : List MicroOp) (n i : Nat) (lo hi : Byte) :
    (e.played os n lo hi).answer i = e.answer (n + i) := by
  simp [Env.answer, Env.played, List.getD_eq_getElem?_getD, Nat.add_assoc]

@[simp] theorem Env.sent_answer (e : Env) (bs : List Byte) (i : Nat) : (e.sent bs).answer i = e.answer i := rfl

theorem Env.sent_sent (e : Env) (bs bs' : List Byte) : (e.sent bs).sent bs' = e.sent (bs ++ bs') := by
  simp [Env.sent]

@[simp] theorem Env.sent_nil (e : Env) : e.sent [] = e := by simp [Env.sent]

theorem Env.played_sent (e : Env) (os : List MicroOp) (n : Nat) (lo hi : Byte) (bs : List Byte) :
    (e.sent bs).played os n lo hi = (e.played os n lo hi).sent bs := rfl

/-- The first answer, then the rest. -/
theorem Env.answers_succ (e : Env) (n : Nat) :
    e.answers (n + 1) = e.answer 0 :: (List.range n).map fun i => e.answer (1 + i) := by
  simp only [Env.answers, List.range_succ_eq_map, List.map_cons, List.map_map]
  congr 1
  exact List.map_congr_left fun i _ => by simp [Nat.add_comm]

@[simp] theorem Env.answers_length (e : Env) (n : Nat) : (e.answers n).length = n := by simp [Env.answers]

end Sys2Proof.Machine
end

