-- ==== Sys2Proof/Laws/Chip.lean ====
section
/-! SUPPORT. The ideal chip under the traces of Read and Write (95_test_vectors.md section 5): lists one after another,
and the loops over the offsets. -/

namespace Sys2Proof.Machine

theorem Chip.after_append (board : Board) (c : Chip) (os os' : List MicroOp) :
    c.after board (os ++ os') = (c.after board os).after board os' := by simp [Chip.after]

theorem Chip.answers_append (board : Board) (c : Chip) (os os' : List MicroOp) :
    c.Answers board (os ++ os') ↔ c.Answers board os ∧ (c.after board os).Answers board os' := by
  induction os generalizing c with
  | nil => simp [Chip.Answers, Chip.after]
  | cons o os ih => simp only [List.cons_append, Chip.Answers, ih, and_assoc]; rfl

/-- The chip inside the loop of Read (R193): enabled, read from, at the page of `hi`. -/
structure Chip.InRead (c : Chip) (hi : Byte) (mem : BitVec 16 → Byte) : Prop where
  ce : c.port.ce = .active
  pgm : c.port.pgm = .inactive
  dir : c.port.dataDir = .input
  addrHi : c.port.addrHi = hi
  mem : c.mem = mem

/-- The captures of the iterations of Read get the bytes of the page at their offsets, and the loop goes on (R62,
R193). -/
theorem Chip.answers_readLoop {hi : Byte} {mem : BitVec 16 → Byte} (xs : List (Byte × Byte)) {c : Chip}
    (h : c.InRead hi mem) :
    (c.Answers .direct (xs.flatMap fun x => readIterTrace x.1 x.2) ↔ ∀ x ∈ xs, x.2 = mem (hi ++ x.1)) ∧
      (c.after .direct (xs.flatMap fun x => readIterTrace x.1 x.2)).InRead hi mem := by
  induction xs generalizing c with
  | nil => exact ⟨by simp [Chip.Answers], h⟩
  | cons x xs ih =>
    have h1 : c.Answers .direct (readIterTrace x.1 x.2) ↔ x.2 = mem (hi ++ x.1) := by
      simp [readIterTrace, Chip.Answers, Chip.apply, Port.apply, Port.reading, Chip.addr, h.ce, h.pgm, h.dir, h.addrHi,
        h.mem]
    have h2 : (c.after .direct (readIterTrace x.1 x.2)).InRead hi mem := ⟨h.ce, h.pgm, h.dir, h.addrHi, h.mem⟩
    obtain ⟨h3, h4⟩ := ih h2
    rw [List.flatMap_cons, Chip.answers_append, Chip.after_append, h1, h3]
    exact ⟨by simp, h4⟩

/-- The captures of Read are answered when each gets the byte of the page at its offset (R62, R193). -/
theorem Chip.answers_readTrace {c : Chip} (lo hi : Byte) (page : List Byte) (hp : c.port.pgm = .inactive)
    (hd : c.port.dataDir = .input) (h : ∀ x ∈ offsets.zip page, x.2 = c.mem (hi ++ x.1)) :
    c.Answers .direct (readTrace lo hi page) := by
  rw [readTrace, Chip.answers_append, Chip.answers_append]
  have hin : (c.after .direct [.setCE .active, .setOE .inactive, .setAddrLo lo, .setAddrHi hi]).InRead hi c.mem :=
    ⟨rfl, hp, hd, rfl, rfl⟩
  exact ⟨⟨⟨trivial, trivial, trivial, trivial, trivial⟩, (Chip.answers_readLoop _ hin).1.mpr h⟩, trivial, trivial⟩

/-- The memory after the pulses of the iterations of Write at the page of `hi` (R62, R194). -/
def programAll (mem : BitVec 16 → Byte) (hi : Byte) (xs : List (Byte × Byte)) : BitVec 16 → Byte :=
  xs.foldl (fun m x => programByte m (hi ++ x.1) x.2) mem

theorem Chip.mem_writeLoop {hi : Byte} (xs : List (Byte × Byte)) {c : Chip} (h : c.port.addrHi = hi) :
    (c.after .direct (xs.flatMap fun x => writeIterTrace x.1 x.2)).mem = programAll c.mem hi xs := by
  induction xs generalizing c with
  | nil => rfl
  | cons x xs ih =>
    have hx : (c.after .direct (writeIterTrace x.1 x.2)).mem = programByte c.mem (hi ++ x.1) x.2 := by
      simp [writeIterTrace, Chip.after, Chip.apply, Port.apply, Chip.addr, h]
    rw [List.flatMap_cons, Chip.after_append, ih (by exact h), hx]
    rfl

/-- The memory after a Write (R62, R194). -/
theorem Chip.mem_writeTrace {c : Chip} (lo hi : Byte) (data : List Byte) (hp : c.port.pgm = .inactive) :
    (c.after .direct (writeTrace lo hi data)).mem = programAll c.mem hi (offsets.zip data) := by
  have hpre : (c.after .direct [.setOE .inactive, .setPGM .inactive, .setAddrLo lo, .setAddrHi hi,
      .setDataDir .output]).mem = c.mem := by simp [Chip.after, Chip.apply, Port.apply, hp]
  rw [writeTrace, Chip.after_append, Chip.after_append, ← hpre]
  exact Chip.mem_writeLoop (hi := hi) (offsets.zip data) rfl

/-- One byte value programmed at some offsets stands at each of them. -/
theorem programAll_const {d : Byte} {hi : Byte} (xs : List (Byte × Byte)) (hd : ∀ x ∈ xs, x.2 = d)
    (mem : BitVec 16 → Byte) (a : BitVec 16) (ha : mem a = d ∨ ∃ x ∈ xs, a = hi ++ x.1) :
    programAll mem hi xs a = d := by
  induction xs generalizing mem with
  | nil => simpa [programAll] using ha
  | cons x xs ih =>
    refine ih (fun y hy => hd y (by simp [hy])) _ ?_
    have hx : x.2 = d := hd x (by simp)
    by_cases he : a = hi ++ x.1
    · exact .inl (by simp [programByte, he, hx])
    · rcases ha with ha | ⟨y, hy, hay⟩
      · exact .inl (by simp [programByte, he, ha])
      · rcases List.mem_cons.mp hy with rfl | hy
        · exact absurd hay he
        · exact .inr ⟨y, hy, hay⟩

end Sys2Proof.Machine
end

