-- ==== Sys2Proof/Laws/Decode.lean ====
section
/-! SUPPORT. Laws of the decoder and the encoder: pages, the bytes a decoded request was read from. -/

namespace Sys2Proof

open Machine

/-- A page with its CRC and what follows is split where it was joined. -/
theorem splitPage_append (data : List Byte) (crc : Word) (rest : List Byte) (h : data.length = pageSize) :
    splitPage (data ++ le16 crc ++ rest) = some (data, crc, rest) := by
  have hd : (data ++ le16 crc ++ rest).drop pageSize = loByte crc :: hiByte crc :: rest := by
    rw [List.append_assoc, ← h, List.drop_left]
    rfl
  have ht : (data ++ le16 crc ++ rest).take pageSize = data := by
    rw [List.append_assoc, ← h, List.take_left]
  unfold splitPage
  rw [if_neg (by simp; omega), hd, ht]
  simp

/-- What was split joins to what it was split from. -/
theorem splitPage_eq_some {bs data rest : List Byte} {crc : Word} (h : splitPage bs = some (data, crc, rest)) :
    data.length = pageSize ∧ data ++ le16 crc ++ rest = bs := by
  unfold splitPage at h
  split at h
  · exact absurd h (by simp)
  · rename_i hl
    split at h
    · rename_i cl ch r hd
      simp only [Option.some.injEq, Prod.mk.injEq] at h
      obtain ⟨rfl, rfl, rfl⟩ := h
      refine ⟨by simp; omega, ?_⟩
      simp only [le16, loByte_ofLoHi, hiByte_ofLoHi, List.append_assoc, List.cons_append, List.nil_append, ← hd,
        List.take_append_drop]
    · exact absurd h (by simp)

/-- A page needs 258 bytes. -/
theorem splitPage_isSome {bs : List Byte} (h : pageSize + 2 ≤ bs.length) : ∃ data crc rest, splitPage bs = some (data, crc, rest) := by
  unfold splitPage
  rw [if_neg (by omega)]
  have : (bs.drop pageSize).length = bs.length - pageSize := List.length_drop ..
  rcases hd : bs.drop pageSize with _ | ⟨a, _ | ⟨b, r⟩⟩
  · rw [hd] at this; simp at this; omega
  · rw [hd] at this; simp at this; omega
  · exact ⟨_, _, _, rfl⟩

/-- With fewer there is none. -/
theorem splitPage_eq_none {bs : List Byte} (h : bs.length < pageSize + 2) : splitPage bs = none := by
  cases hs : splitPage bs with
  | none => rfl
  | some x =>
    obtain ⟨data, crc, rest⟩ := x
    obtain ⟨hl, hb⟩ := splitPage_eq_some hs
    rw [← hb] at h
    simp at h
    omega

/-- A request is read from its own wire bytes (R91). -/
theorem decodeRequest_bytes {bs rest : List Byte} {i : Instr} (h : decodeRequest bs = .ok (i, rest)) :
    i.position = .request ∧ encode i ++ rest = bs := by
  unfold decodeRequest at h
  split at h
  · exact absurd h (by simp)
  · rename_i b bs
    split at h
    · simp only [Except.ok.injEq, Prod.mk.injEq] at h
      obtain ⟨rfl, rfl⟩ := h
      exact ⟨rfl, rfl⟩
    all_goals
      rename_i hs
      obtain rfl := selectorOf_eq_some hs
    · split at h
      · simp only [Except.ok.injEq, Prod.mk.injEq] at h
        obtain ⟨rfl, rfl⟩ := h
        exact ⟨rfl, by simp [encode, le16, Cmd.selector]⟩
      · exact absurd h (by simp)
    · split at h
      · simp only [Except.ok.injEq, Prod.mk.injEq] at h
        obtain ⟨rfl, rfl⟩ := h
        exact ⟨rfl, by simp [encode, le16, Cmd.selector]⟩
      · exact absurd h (by simp)
    · split at h
      · split at h
        · rename_i hp
          simp only [Except.ok.injEq, Prod.mk.injEq] at h
          obtain ⟨rfl, rfl⟩ := h
          exact ⟨rfl, by simp [encode, Cmd.selector, ← (splitPage_eq_some hp).2]⟩
        · exact absurd h (by simp)
      · exact absurd h (by simp)
    · split at h
      · simp only [Except.ok.injEq, Prod.mk.injEq] at h
        obtain ⟨rfl, rfl⟩ := h
        exact ⟨rfl, by simp [encode, le16, Cmd.selector]⟩
      · exact absurd h (by simp)

end Sys2Proof
end

