-- ==== Sys2Proof/Laws/Handlers.lean ====
section
/-! SUPPORT. What each list of Machine/Handlers.lean does as a whole: one lemma per response frame and per chip-port
part. -/

namespace Sys2Proof.Machine

/-! ### Response frames -/

/-- Transmissions of constants put them on the transmit stream in order (R171). -/
theorem runOps_txLits (bs : List Byte) (s : State) :
    runOps (bs.map fun b => .tx (.lit b)) s = { s with env := s.env.sent bs } := by
  induction bs generalizing s with
  | nil => simp
  | cons b bs ih =>
    simp only [List.map_cons, runOps_cons, ih]
    simp [doOp, State.send, Src.value, Env.sent]

theorem runOps_ackOps (s : State) :
    runOps ackOps s = { s with env := s.env.sent [rspAck, ackMagic0, ackMagic1] } :=
  runOps_txLits [rspAck, ackMagic0, ackMagic1] s

theorem runOps_errOps (c : Word) (s : State) :
    runOps (errOps c) s = { s with env := s.env.sent (rspErr :: le16 c) } :=
  runOps_txLits (rspErr :: le16 c) s

theorem runOps_pageFrameOps (data : List Byte) (c : Word) (s : State) :
    runOps (pageFrameOps data c) s = { s with env := s.env.sent (data ++ le16 c) } :=
  runOps_txLits (data ++ le16 c) s

/-- `TxLE16(crc)` (R125, R172). -/
theorem runOps_txCrc (s : State) : runOps txCrc s = { s with env := s.env.sent (le16 s.crc) } := by
  simp [txCrc, doOp, State.send, Src.value, Env.sent, le16]

/-- Transmit and fold, byte by byte (D15). -/
theorem runOps_txFold (bs : List Byte) (s : State) :
    runOps (bs.flatMap fun b => [.tx (.lit b), .crcUpdate (.lit b)]) s =
      { s with crc := bs.foldl crcUpdate s.crc, env := s.env.sent bs } := by
  induction bs generalizing s with
  | nil => simp
  | cons b bs ih =>
    simp only [List.flatMap_cons, runOps_append, ih]
    simp [doOp, State.send, State.updateCrc, Src.value, Env.sent]

/-- I1 to I4 and W16 to W19: the bytes, then their CRC; the accumulator is left at that CRC (R192, R194). -/
theorem runOps_literalOps (bs : List Byte) (s : State) :
    runOps (literalOps bs) s = { s with crc := crc16 bs, env := s.env.sent (bs ++ le16 (crc16 bs)) } := by
  simp only [literalOps, List.cons_append, runOps_cons, runOps_append, runOps_txFold, runOps_txCrc]
  simp [doOp, State.seedCrc, crc16, Env.sent_sent]

/-- Transmissions of buffer bytes. -/
theorem runOps_txOffsets (ks : List Byte) (s : State) :
    runOps (ks.map fun k => .tx (.offset k)) s =
      { s with env := s.env.sent (ks.map fun k => s.buf.get k.toNat) } := by
  induction ks generalizing s with
  | nil => simp
  | cons k ks ih =>
    simp only [List.map_cons, runOps_cons, ih]
    simp [doOp, State.send, Src.value, Src.offset, Env.sent]

/-- The offsets are 0 to 255 (R10, R129). -/
theorem offsets_map_get (m : Memory) : (offsets.map fun k => m.get k.toNat) = m.page := by
  simp only [offsets, Memory.page, Memory.firstBytes, List.map_map]
  refine List.map_congr_left fun a ha => ?_
  have : a < 256 := List.mem_range.mp ha
  simp [Nat.mod_eq_of_lt this]

/-- `StreamPage` (R190): the page of the buffer, then the accumulator. -/
theorem runOps_streamPage (s : State) :
    runOps streamPage s = { s with env := s.env.sent (s.buf.page ++ le16 s.crc) } := by
  simp only [streamPage, runOps_append, runOps_txOffsets, runOps_txCrc, offsets_map_get]
  simp [Env.sent_sent]

/-! ### The page captured into the buffer -/

/-- The buffer after captures at consecutive offsets. -/
def captured (m : Memory) (xs : List (Byte × Byte)) : Memory := xs.foldl (fun m x => m.put x.1.toNat x.2) m

theorem captured_wf (xs : List (Byte × Byte)) {m : Memory} (h : m.wf) : (captured m xs).wf := by
  induction xs generalizing m with
  | nil => exact h
  | cons x xs ih => exact ih (Memory.wf_put _ h (by have := x.1.isLt; unfold bufCap; omega))

/-- Captures from offset `n` on: the bytes captured stand at their offsets, the others are as before. -/
theorem captured_get (n : Nat) (ds : List Byte) {m : Memory} (h : m.wf) (hn : n + ds.length ≤ 256) (a : Nat) :
    (captured m (((List.range' n ds.length).map (BitVec.ofNat 8)).zip ds)).get a =
      if n ≤ a ∧ a < n + ds.length then ds.getD (a - n) 0 else m.get a := by
  induction ds generalizing n m with
  | nil => simp [captured]
  | cons d ds ih =>
    simp only [List.length_cons] at hn ⊢
    rw [List.range'_succ]
    simp only [List.map_cons, List.zip_cons_cons, captured, List.foldl_cons]
    have hk : (BitVec.ofNat 8 n : Byte).toNat = n := by simp; omega
    have hw : (m.put n d).wf := Memory.wf_put d h (by unfold bufCap; omega)
    rw [hk]
    have := ih (n + 1) hw (by omega)
    simp only [captured] at this
    rw [this, Memory.get_put n a d m h]
    rcases Nat.lt_trichotomy a n with h1 | h1 | h1
    · simp [show ¬ n + 1 ≤ a by omega, show ¬ n ≤ a by omega, show a ≠ n by omega]
    · subst h1
      simp
    · obtain ⟨j, rfl⟩ : ∃ j, a = n + 1 + j := ⟨a - n - 1, by omega⟩
      simp only [show n + 1 ≤ n + 1 + j by omega, show n ≤ n + 1 + j by omega, true_and,
        show n + 1 + j ≠ n by omega, if_false, show n + 1 + j - (n + 1) = j by omega,
        show n + 1 + j - n = j + 1 by omega, List.getD_cons_succ]
      by_cases h2 : j < ds.length
      · rw [if_pos (by omega), if_pos (by omega)]
      · rw [if_neg (by omega), if_neg (by omega)]

/-- A whole page captured over a buffer. -/
theorem captured_page_get (ds : List Byte) {m : Memory} (h : m.wf) (hd : ds.length = 256) (a : Nat) :
    (captured m (offsets.zip ds)).get a = if a < 256 then ds.getD a 0 else m.get a := by
  have := captured_get 0 ds h (by omega) a
  rw [hd] at this
  simpa [offsets, pageSize, List.range_eq_range'] using this

/-- The page of a buffer a whole page was captured into. -/
theorem captured_page (ds : List Byte) {m : Memory} (h : m.wf) (hd : ds.length = 256) :
    (captured m (offsets.zip ds)).page = ds := by
  apply List.ext_getElem
  · simp [Memory.page, pageSize, hd]
  · intro i h1 h2
    have hi : i < 256 := by rw [← hd]; exact h2
    simp [Memory.page, Memory.firstBytes, captured_page_get ds h hd, hi, h2]

/-! ### The chip-port parts -/

/-- The pairs of an offset and its answer, offset by offset. -/
theorem zip_answers_cons (k : Byte) (ks : List Byte) (e : Env) (os : List MicroOp) (lo hi : Byte) :
    (k :: ks).zip (e.answers (ks.length + 1)) =
      (k, e.answer 0) :: ks.zip ((e.played os 1 lo hi).answers ks.length) := by
  have : (e.played os 1 lo hi).answers ks.length = (List.range ks.length).map fun i => e.answer (1 + i) :=
    List.map_congr_left fun i _ => Env.played_answer e os 1 i lo hi
  rw [Env.answers_succ, this, List.zip_cons_cons]

/-- Only the last of a list of updates counts that each hide the one before. -/
theorem foldl_last {α β : Type} (f : α → β → α) (hf : ∀ p k k', f (f p k) k' = f p k') (ks : List β) (k : β) (p : α) :
    (ks ++ [k]).foldl f p = f p k := by
  induction ks generalizing p with
  | nil => rfl
  | cons x ks ih => simp only [List.cons_append, List.foldl_cons, ih, hf]

/-- The last offset is 0xFF. -/
theorem offsets_snoc : offsets = (List.range 255).map (BitVec.ofNat 8) ++ [0xFF] := by
  rw [offsets, pageSize, List.range_succ, List.map_append]
  rfl

@[simp] theorem offsets_length : offsets.length = 256 := by simp [offsets, pageSize]

theorem offsets_foldl {α : Type} (f : α → Byte → α) (hf : ∀ p k k', f (f p k) k' = f p k') (p : α) :
    offsets.foldl f p = f p 0xFF := by
  rw [offsets_snoc, foldl_last f hf]

/-- Answers to captures that come after none. -/
@[simp] theorem Env.played_answers_zero (e : Env) (os : List MicroOp) (lo hi : Byte) (n : Nat) :
    (e.played os 0 lo hi).answers n = e.answers n :=
  List.map_congr_left fun i _ => by simp

/-- The port after an iteration of Read. -/
def readPort (p : Port) (k : Byte) : Port := { p with addrLo := k, oe := .inactive }

/-- One iteration of Read (R6 to R11 of R193). -/
theorem runOps_readIter (k : Byte) (s : State) (h : s.buf.wf) :
    runOps (readIter k) s =
      { s with
        crc := crcUpdate s.crc (s.env.answer 0)
        buf := s.buf.put k.toNat (s.env.answer 0)
        port := readPort s.port k
        env := s.env.played (readIterTrace k (s.env.answer 0)) 1 s.env.xlatLo s.env.xlatHi } := by
  simp [readIter, readIterTrace, doOp, State.micro, State.capture, State.updateCrc, Src.value, Src.offset, Port.apply,
    Memory.get_put_same _ _ _ h, Env.after_eq_played, Env.played_played, latchLo, latchHi, tOE, readPort]
  simp [Env.played, Env.answer, stamp, timeAfter]

/-- The iterations of Read over any offsets (R193). -/
theorem runOps_readLoop (ks : List Byte) (s : State) (h : s.buf.wf) :
    runOps (ks.flatMap readIter) s =
      { s with
        crc := (s.env.answers ks.length).foldl crcUpdate s.crc
        buf := captured s.buf (ks.zip (s.env.answers ks.length))
        port := ks.foldl readPort s.port
        env := s.env.played ((ks.zip (s.env.answers ks.length)).flatMap fun x => readIterTrace x.1 x.2) ks.length
          s.env.xlatLo s.env.xlatHi } := by
  induction ks generalizing s with
  | nil => simp [captured, Env.answers, Env.played_nil]
  | cons k ks ih =>
    have hw : (s.buf.put k.toNat (s.env.answer 0)).wf :=
      Memory.wf_put _ h (by have := k.isLt; unfold bufCap; omega)
    have ha : (s.env.played (readIterTrace k (s.env.answer 0)) 1 s.env.xlatLo s.env.xlatHi).answers ks.length =
        (List.range ks.length).map fun i => s.env.answer (1 + i) :=
      List.map_congr_left fun i _ => Env.played_answer ..
    simp only [List.flatMap_cons, runOps_append, runOps_readIter k s h]
    rw [ih _ hw]
    simp only [List.length_cons, Env.answers_succ, ha, List.zip_cons_cons, List.flatMap_cons, List.foldl_cons,
      captured, Env.played_xlatLo, Env.played_xlatHi, Env.played_played, Nat.add_comm 1]

/-- R1 to R12: the chip-port part of Read (R193). -/
theorem runOps_readOps (s : State) (h : s.buf.wf) :
    runOps readOps s =
      { s with
        crc := crc16 (s.env.answers 256)
        buf := captured s.buf (offsets.zip (s.env.answers 256))
        port := { s.port with
          ce := .inactive, oe := .inactive, addrLo := 0xFF, addrHi := s.buf.get 1, addrExt := 0 }
        env := s.env.played (readTrace (s.buf.get 0) (s.buf.get 1) (s.env.answers 256)) 256
          s.env.xlatLo s.env.xlatHi } := by
  have hpre : runOps [.setCE .active, .setOE .inactive, .setAddrLo (.buf 0), .setAddrHi (.buf 1), .crcSeed] s =
      { s with
        crc := crcSeed
        port := { s.port with
          ce := .active, oe := .inactive, addrLo := s.buf.get 0, addrHi := s.buf.get 1, addrExt := 0 }
        env := s.env.played [.setCE .active, .setOE .inactive, .setAddrLo (s.buf.get 0), .setAddrHi (s.buf.get 1)] 0
          s.env.xlatLo s.env.xlatHi } := by
    simp [doOp, State.micro, State.seedCrc, Src.value, Port.apply, Env.after_eq_played, Env.played_played, latchLo,
      latchHi]
  rw [readOps, runOps_append, runOps_append, hpre, runOps_readLoop offsets _ (by exact h)]
  simp only [offsets_length, Env.played_answers_zero, offsets_foldl readPort (fun _ _ _ => rfl)]
  simp [doOp, State.micro, Port.apply, Env.after_eq_played, Env.played_played, latchLo, latchHi, readTrace, crc16,
    readPort]

/-- The port after an iteration of Write. -/
def writePort (p : Port) (x : Byte × Byte) : Port :=
  { p with addrLo := x.1, dataOut := x.2, ce := .active, pgm := .inactive }

/-- The data of a Write at given offsets, `buf[2 + k]` (R61). -/
def Memory.dataAt (m : Memory) (ks : List Byte) : List Byte := ks.map fun k => m.get (2 + k.toNat)

/-- One iteration of Write (W6 to W13 of R194). -/
theorem runOps_writeIter (k : Byte) (s : State) :
    runOps (writeIter k) s =
      { s with
        port := writePort s.port (k, s.buf.get (2 + k.toNat))
        env := s.env.played (writeIterTrace k (s.buf.get (2 + k.toNat))) 0 s.env.xlatLo s.env.xlatHi } := by
  simp [writeIter, writeIterTrace, doOp, State.micro, Src.value, Src.payload, Port.apply, Env.after_eq_played,
    Env.played_played, latchLo, latchHi, tSU, tPW, tHD, writePort]

/-- The iterations of Write over any offsets (R194). -/
theorem runOps_writeLoop (ks : List Byte) (s : State) :
    runOps (ks.flatMap writeIter) s =
      { s with
        port := (ks.zip (s.buf.dataAt ks)).foldl writePort s.port
        env := s.env.played ((ks.zip (s.buf.dataAt ks)).flatMap fun x => writeIterTrace x.1 x.2) 0
          s.env.xlatLo s.env.xlatHi } := by
  induction ks generalizing s with
  | nil => simp [Env.played_nil]
  | cons k ks ih =>
    simp only [List.flatMap_cons, runOps_append, runOps_writeIter k s]
    rw [ih]
    simp only [Memory.dataAt, List.map_cons, List.zip_cons_cons, List.flatMap_cons, List.foldl_cons,
      Env.played_xlatLo, Env.played_xlatHi, Env.played_played, Nat.add_zero]

/-- The last data byte of a Write stands at `buf[257]`. -/
theorem offsets_dataAt_snoc (m : Memory) :
    offsets.zip (m.dataAt offsets) =
      ((List.range 255).map (BitVec.ofNat 8)).zip (m.dataAt ((List.range 255).map (BitVec.ofNat 8))) ++
        [(0xFF, m.get 257)] := by
  rw [offsets_snoc, Memory.dataAt, List.map_append, List.zip_append (by simp)]
  rfl

/-- W1 to W15: the chip-port part of Write (R194). -/
theorem runOps_writeOps (s : State) :
    runOps writeOps s =
      { s with
        port := { s.port with
          ce := .inactive, oe := .inactive, pgm := .inactive, addrLo := 0xFF, addrHi := s.buf.get 1, addrExt := 0,
          dataOut := s.buf.get 257, dataDir := .input }
        env := s.env.played (writeTrace (s.buf.get 0) (s.buf.get 1) (s.buf.dataAt offsets)) 0
          s.env.xlatLo s.env.xlatHi } := by
  have hpre : runOps [.setOE .inactive, .setPGM .inactive, .setAddrLo (.buf 0), .setAddrHi (.buf 1),
        .setDataDir .output] s =
      { s with
        port := { s.port with
          oe := .inactive, pgm := .inactive, addrLo := s.buf.get 0, addrHi := s.buf.get 1, addrExt := 0,
          dataDir := .output }
        env := s.env.played [.setOE .inactive, .setPGM .inactive, .setAddrLo (s.buf.get 0), .setAddrHi (s.buf.get 1),
          .setDataDir .output] 0 s.env.xlatLo s.env.xlatHi } := by
    simp [doOp, State.micro, Src.value, Port.apply, Env.after_eq_played, Env.played_played, latchLo, latchHi]
  rw [writeOps, runOps_append, runOps_append, hpre, runOps_writeLoop]
  have hp : ∀ p, (offsets.zip (s.buf.dataAt offsets)).foldl writePort p = writePort p (0xFF, s.buf.get 257) := by
    intro p
    rw [offsets_dataAt_snoc, foldl_last writePort (fun _ _ _ => rfl)]
  simp only [hp]
  simp [doOp, State.micro, Port.apply, Env.after_eq_played, Env.played_played, latchLo, latchHi, writeTrace, writePort]

/-- The port after an iteration of FastDump. -/
def dumpPort (p : Port) (k : Byte) : Port :=
  { p with addrLo := k, lle := .inactive, ce := .inactive, oe := .inactive }

/-- One iteration of FastDump (F7 to F14 of R195). -/
theorem runOps_fastDumpIter (k : Byte) (s : State) (h : s.buf.wf) :
    runOps (fastDumpIter k) s =
      { s with
        crc := crcUpdate s.crc (s.env.answer 0)
        buf := s.buf.put k.toNat (s.env.answer 0)
        port := dumpPort s.port k
        env := s.env.played (fastDumpIterTrace k (s.env.answer 0)) 1 k s.env.xlatHi } := by
  simp [fastDumpIter, fastDumpIterTrace, strobeLow, doOp, State.micro, State.capture, State.updateCrc, Src.value,
    Src.offset, Port.apply, Memory.get_put_same _ _ _ h, Env.after_eq_played, Env.played_played, latchLo, latchHi, tOE,
    dumpPort]
  simp [Env.played, Env.answer, stamp, timeAfter]

/-- The iterations of FastDump over any offsets (R195). -/
theorem runOps_fastDumpLoop (ks : List Byte) (s : State) (h : s.buf.wf) :
    runOps (ks.flatMap fastDumpIter) s =
      { s with
        crc := (s.env.answers ks.length).foldl crcUpdate s.crc
        buf := captured s.buf (ks.zip (s.env.answers ks.length))
        port := ks.foldl dumpPort s.port
        env := s.env.played ((ks.zip (s.env.answers ks.length)).flatMap fun x => fastDumpIterTrace x.1 x.2) ks.length
          (ks.foldl (fun _ k => k) s.env.xlatLo) s.env.xlatHi } := by
  induction ks generalizing s with
  | nil => simp [captured, Env.answers, Env.played_nil]
  | cons k ks ih =>
    have hw : (s.buf.put k.toNat (s.env.answer 0)).wf :=
      Memory.wf_put _ h (by have := k.isLt; unfold bufCap; omega)
    have ha : (s.env.played (fastDumpIterTrace k (s.env.answer 0)) 1 k s.env.xlatHi).answers ks.length =
        (List.range ks.length).map fun i => s.env.answer (1 + i) :=
      List.map_congr_left fun i _ => Env.played_answer ..
    simp only [List.flatMap_cons, runOps_append, runOps_fastDumpIter k s h]
    rw [ih _ hw]
    simp only [List.length_cons, Env.answers_succ, ha, List.zip_cons_cons, List.flatMap_cons, List.foldl_cons,
      captured, Env.played_xlatLo, Env.played_xlatHi, Env.played_played, Nat.add_comm 1]

/-- F1 to F14: the chip-port part of FastDump (R195). -/
theorem runOps_fastDumpOps (s : State) (h : s.buf.wf) :
    runOps fastDumpOps s =
      { s with
        crc := crc16 (s.env.answers 256)
        buf := captured s.buf (offsets.zip (s.env.answers 256))
        port := { s.port with
          ce := .inactive, oe := .inactive, lle := .inactive, hle := .inactive, addrLo := 0xFF,
          dataOut := s.buf.get 0, dataDir := .input }
        env := s.env.played (fastDumpTrace (s.buf.get 0) (s.env.answers 256)) 256 0xFF (s.buf.get 0) } := by
  have hpre : runOps ([.setData (.buf 0), .setDataDir .output] ++ strobeLow (.buf 0) ++ strobeHigh (.buf 0) ++
        [.setDataDir .input, .crcSeed]) s =
      { s with
        crc := crcSeed
        port := { s.port with
          lle := .inactive, hle := .inactive, addrLo := s.buf.get 0, dataOut := s.buf.get 0, dataDir := .input }
        env := s.env.played [.setData (s.buf.get 0), .setDataDir .output, .setAddrLo (s.buf.get 0), .setLLE .active,
          .setLLE .inactive, .setAddrLo (s.buf.get 0), .setHLE .active, .setHLE .inactive, .setDataDir .input] 0
          (s.buf.get 0) (s.buf.get 0) } := by
    simp [strobeLow, strobeHigh, doOp, State.micro, State.seedCrc, Src.value, Port.apply, Env.after_eq_played,
      Env.played_played, latchLo, latchHi]
  rw [fastDumpOps, runOps_append, hpre, runOps_fastDumpLoop offsets _ (by exact h)]
  simp only [offsets_length, Env.played_answers_zero, offsets_foldl dumpPort (fun _ _ _ => rfl),
    offsets_foldl (fun _ k => k) (fun _ _ _ => rfl)]
  simp [Env.played_played, fastDumpTrace, crc16, dumpPort]

/-! ### Lines -/

/-- Operations none of which is a control line or the direction leave the lines alone. -/
theorem linesAfter_of_quiet {os : List SeqOp} (h : ∀ o ∈ os, ∀ l, SeqOp.onLines l o = l) (l : Lines) :
    linesAfter os l = l := by
  induction os with
  | nil => rfl
  | cons o os ih =>
    have : linesAfter (o :: os) l = linesAfter os (SeqOp.onLines l o) := rfl
    rw [this, h o (by simp), ih fun x hx => h x (by simp [hx])]

theorem linesAfter_flatMap (f : Byte → List SeqOp) (ks : List Byte) (l : Lines) :
    linesAfter (ks.flatMap f) l = ks.foldl (fun l k => linesAfter (f k) l) l := by
  induction ks generalizing l with
  | nil => rfl
  | cons k ks ih => rw [List.flatMap_cons, linesAfter_append, ih]; rfl

/-- A response frame touches no line (R69, R191). -/
theorem linesAfter_txLits (bs : List Byte) (l : Lines) : linesAfter (bs.map fun b => .tx (.lit b)) l = l := by
  refine linesAfter_of_quiet (fun o ho l => ?_) l
  obtain ⟨b, -, rfl⟩ := List.mem_map.mp ho
  rfl

theorem linesAfter_literalOps (bs : List Byte) (l : Lines) : linesAfter (literalOps bs) l = l := by
  refine linesAfter_of_quiet (fun o ho l => ?_) l
  simp only [literalOps, List.cons_append, List.mem_cons, List.mem_append, List.mem_flatMap, txCrc,
    List.not_mem_nil, or_false] at ho
  rcases ho with rfl | ⟨b, -, rfl | rfl⟩ | rfl | rfl <;> rfl

theorem linesAfter_streamPage (l : Lines) : linesAfter streamPage l = l := by
  refine linesAfter_of_quiet (fun o ho l => ?_) l
  simp only [streamPage, List.mem_append, List.mem_map, txCrc, List.mem_cons, List.not_mem_nil, or_false] at ho
  rcases ho with ⟨b, -, rfl⟩ | rfl | rfl <;> rfl

/-- Every phase leaves the safe state behind when it starts in it (R196). -/
theorem linesAfter_phase_safe (p : Phase) : linesAfter p.ops Lines.safe = Lines.safe := by
  cases p with
  | ack => exact linesAfter_txLits [rspAck, ackMagic0, ackMagic1] _
  | err c => exact linesAfter_txLits (rspErr :: le16 c) _
  | ident => exact linesAfter_literalOps _ _
  | page => exact linesAfter_streamPage _
  | done => exact linesAfter_literalOps _ _
  | body c =>
    cases c with
    | identify => rfl
    | read =>
      simp only [Phase.ops, bodyOps, readOps, linesAfter_append, linesAfter_flatMap]
      rw [offsets_foldl (fun l k => linesAfter (readIter k) l) fun _ _ _ => rfl]
      rfl
    | write =>
      simp only [Phase.ops, bodyOps, writeOps, linesAfter_append, linesAfter_flatMap]
      rw [offsets_foldl (fun l k => linesAfter (writeIter k) l) fun _ _ _ => rfl]
      rfl
    | fastDump =>
      simp only [Phase.ops, bodyOps, fastDumpOps, linesAfter_append, linesAfter_flatMap]
      rw [offsets_foldl (fun l k => linesAfter (fastDumpIter k) l) fun _ _ _ => rfl]
      rfl

/-- So does any list of phases. -/
theorem linesAfter_phases_safe (ps : List Phase) : linesAfter (Seq.mk [] ps false).ops Lines.safe = Lines.safe := by
  induction ps with
  | nil => rfl
  | cons p ps ih =>
    have : (Seq.mk [] (p :: ps) false).ops = p.ops ++ (Seq.mk [] ps false).ops := by simp [Seq.ops]
    rw [this, linesAfter_append, linesAfter_phase_safe, ih]

end Sys2Proof.Machine
end

