-- ==== Sys2Proof/Laws/Frames.lean ====
section
/-! SUPPORT. A whole request frame that arrives in Idle: every byte is accepted, and the gate decides
(41_frame_assembler.md R141 to R153). -/

namespace Sys2Proof.Machine

/-- The block at the gate after a whole frame of command `c` with payload `body` and received CRC `v`. -/
def State.assembled (c : Cmd) (body : List Byte) (v : Word) (s : State) : State :=
  { s with
    fstate := .assembling
    cmd := c
    expectedLen := c.len
    receivedLen := c.len
    crc := crc16 (c.selector :: body)
    buf := Memory.putAll 0 [] (body ++ le16 v)
    busy := true }

/-- The buffer of a whole frame (R61). -/
theorem assembled_buf (c : Cmd) (body : List Byte) (v : Word) (hlen : body.length + 2 = c.len.toNat) :
    (Memory.putAll 0 [] (body ++ le16 v)).wf ∧
      ∀ a, (Memory.putAll 0 [] (body ++ le16 v)).get a = (body ++ le16 v).getD a 0 := by
  have hb := Cmd.len_bounds c
  obtain ⟨hw, hg⟩ := Memory.putAll_spec 0 (body ++ le16 v) Memory.wf_nil (by simp; omega)
  refine ⟨hw, fun a => ?_⟩
  rw [hg]
  by_cases ha : a < (body ++ le16 v).length
  · rw [if_pos (by omega), Nat.sub_zero]
  · rw [if_neg (by omega), List.getD_eq_default _ _ (by omega)]
    rfl

/-- The data of a Write whose frame stands in the buffer (R61). -/
theorem dataAt_assembled {m : Memory} {lo hi : Byte} {data tail : List Byte} (hd : data.length = 256)
    (hg : ∀ a, m.get a = (lo :: hi :: (data ++ tail)).getD a 0) : m.dataAt offsets = data := by
  apply List.ext_getElem
  · simp [Memory.dataAt, hd]
  · intro i _ h
    have hi' : i < 256 := by omega
    simp only [Memory.dataAt, offsets, List.getElem_map, List.getElem_range, hg]
    rw [show 2 + (BitVec.ofNat 8 i).toNat = i + 2 by simp [Nat.mod_eq_of_lt hi']; omega]
    simp [List.getElem?_append_left h, h]

/-- A whole frame in Idle, with no pause, ends at the gate (R141 to R149). -/
theorem receiveFrame_gate (c : Cmd) (body : List Byte) (v : Word) (s : State) (hi : s.fstate = .idle)
    (hb : s.busy = false) (hu : s.env.cuts = []) (hlen : body.length + 2 = c.len.toNat) :
    receiveFrame (c.selector :: (body ++ le16 v)) s = gate (s.assembled c body v) := by
  obtain ⟨h2, hc⟩ := Cmd.len_bounds c
  have hcap : bufCap = 260 := rfl
  have hsplit : body ++ le16 v = (body ++ [loByte v]) ++ [hiByte v] := by simp [le16]
  have hk : (body ++ [loByte v]).length = body.length + 1 := by simp
  have h0 : (0 : Len).toNat = 0 := rfl
  -- the selector
  have hsel : takeBytes 1 (s.setRx (c.selector :: (body ++ le16 v) ++ s.env.rx)) =
      .next { accept c.selector c (s.setRx (body ++ le16 v ++ s.env.rx)) with busy := false } := by
    rw [takeBytes_cons (s := s.setRx (c.selector :: (body ++ le16 v) ++ s.env.rx)) (b := c.selector)
      (rest := body ++ le16 v ++ s.env.rx) 0 hb rfl]
    rw [rxByte_selector (c := c)
      (s := (s.setRx (c.selector :: (body ++ le16 v) ++ s.env.rx)).setRx (body ++ le16 v ++ s.env.rx)) hi
      (selectorOf_selector c), settle_uncut (by exact hu)]
    rfl
  -- all bytes after it but the last
  have hmid : ∀ t : State, t = { accept c.selector c (s.setRx (body ++ le16 v ++ s.env.rx)) with busy := false } →
      takeBytes (body ++ [loByte v]).length t =
        .next { s with
          fstate := .assembling
          cmd := c
          expectedLen := c.len
          receivedLen := BitVec.ofNat 9 (body.length + 1)
          crc := crc16 (c.selector :: body)
          buf := Memory.putAll 0 [] (body ++ [loByte v])
          busy := false
          env := { s.env with rx := hiByte v :: s.env.rx } } := by
    rintro t rfl
    rw [takeBytes_more (body ++ [loByte v]) (hiByte v :: s.env.rx) _ rfl rfl (by exact hu) Memory.wf_zeroed h2 hc
      (by show (0 : Len).toNat + _ < c.len.toNat; omega) (by simp [accept, hsplit])]
    have htake : (body ++ [loByte v]).take (c.len.toNat - 2 - 0) = body := by
      rw [show c.len.toNat - 2 - 0 = body.length by omega]
      simp
    simp only [accept, h0, Nat.zero_add, hk, State.setRx, Memory.zeroed, htake]
    rfl
  -- the last byte
  have hlast : ∀ t : State, t.fstate = .assembling → t.buf = Memory.putAll 0 [] (body ++ [loByte v]) →
      t.expectedLen = c.len → t.receivedLen = BitVec.ofNat 9 (body.length + 1) →
      rxByte (hiByte v) t = gate { t with
        buf := Memory.putAll 0 [] (body ++ le16 v), receivedLen := c.len, busy := true } := by
    intro t hf hbuf he hr
    have hrn : t.receivedLen.toNat = body.length + 1 := by
      rw [hr, BitVec.toNat_ofNat]
      exact Nat.mod_eq_of_lt (by omega)
    have hw := (Memory.putAll_spec 0 (body ++ [loByte v]) Memory.wf_nil (by omega)).1
    rw [rxByte_last hf (by rw [hbuf]; exact hw) (by rw [he]; exact h2) (by rw [he]; omega) (by rw [he]; exact hc),
      hbuf, hsplit, Memory.putAll_snoc 0 [] (body ++ [loByte v]), hrn, hk, Nat.zero_add, he]
  rw [receiveFrame, show (c.selector :: (body ++ le16 v)).length = 1 + ((body ++ [loByte v]).length + 1) by simp; omega,
    takeBytes_add, hsel, andThen_next, takeBytes_add, hmid _ rfl, andThen_next, takeBytes_cons 0 rfl rfl,
    hlast _ rfl rfl rfl rfl]
  have hid : ∀ r : Result, andThen r (takeBytes 0) = r := by intro r; cases r <;> rfl
  rw [hid]
  rfl

/-- What a whole frame in Idle does (R150 to R153): the ACK and the handler when its CRC is that of the selector and
the payload, the ERR when it is not. -/
theorem receiveFrame_frame (c : Cmd) (body : List Byte) (v : Word) (s : State) (hi : s.fstate = .idle)
    (hb : s.busy = false) (hu : s.env.cuts = []) (hlen : body.length + 2 = c.len.toNat) :
    receiveFrame (c.selector :: (body ++ le16 v)) s =
      .next (startPhases
        (if v = crc16 (c.selector :: body) then matchPhases c else mismatchPhases (crc16 (c.selector :: body)))
        (s.assembled c body v)) := by
  obtain ⟨h2, hc⟩ := Cmd.len_bounds c
  obtain ⟨-, hg⟩ := assembled_buf c body v hlen
  have hrx : (s.assembled c body v).rxCrc = some v := by
    rw [rxCrc_eq (by exact h2) (by exact hc)]
    simp only [State.assembled, hg]
    rw [show c.len.toNat - 2 = body.length by omega, show c.len.toNat - 1 = body.length + 1 by omega]
    simp [le16]
  rw [receiveFrame_gate c body v s hi hb hu hlen]
  rcases gate_cases (s.assembled c body v) with ⟨w, hw, h⟩ | ⟨hw, -⟩
  · rw [hrx] at hw
    obtain rfl := Option.some.inj hw
    exact h
  · rw [hrx] at hw
    exact absurd hw (by simp)

end Sys2Proof.Machine
end

