-- ==== Sys2Proof/Laws/PerInstr.lean ====
section
/-! SUPPORT. The statements made per instruction: one lemma per constructor of Instr. -/

namespace Sys2Proof.Laws

/-- The bytes an instruction has on the wire (30_encoding.md R91, R100 to R105, R107). -/
def wireLength : Instr → Nat
  | .identify _ => 3
  | .read _ _ _ => 5
  | .write _ _ _ _ => 261
  | .fastDump _ _ _ => 5
  | .ack => 3
  | .err _ => 3
  | .ident => Config.identString.length + 2
  | .page _ _ => 258
  | .done => 6
  | .unrecognized _ => 1

/-- A well-formed instruction has exactly its bytes on the wire. -/
def EncodeLength.Statement (i : Instr) : Prop := i.WellFormed = true → (encode i).length = wireLength i

theorem EncodeLength.identify (crc : Word) : EncodeLength.Statement (.identify crc) := fun _ => rfl

theorem EncodeLength.read (addrLo addrHi : Byte) (crc : Word) : EncodeLength.Statement (.read addrLo addrHi crc) :=
  fun _ => rfl

theorem EncodeLength.write (addrLo addrHi : Byte) (data : List Byte) (crc : Word) :
    EncodeLength.Statement (.write addrLo addrHi data crc) := fun h => by
  have : data.length = Machine.pageSize := by simpa [Instr.WellFormed] using h
  simp [encode, wireLength, this, Machine.pageSize]

theorem EncodeLength.fastDump (lowLatch unused : Byte) (crc : Word) :
    EncodeLength.Statement (.fastDump lowLatch unused crc) := fun _ => rfl

theorem EncodeLength.ack : EncodeLength.Statement .ack := fun _ => rfl

theorem EncodeLength.err (computed : Word) : EncodeLength.Statement (.err computed) := fun _ => rfl

theorem EncodeLength.ident : EncodeLength.Statement .ident := fun _ => by
  simp [encode, identFrame, wireLength]

theorem EncodeLength.page (data : List Byte) (crc : Word) : EncodeLength.Statement (.page data crc) := fun h => by
  have : data.length = Machine.pageSize := by simpa [Instr.WellFormed] using h
  simp [encode, wireLength, this, Machine.pageSize]

theorem EncodeLength.done : EncodeLength.Statement .done := fun _ => rfl

theorem EncodeLength.unrecognized (b : Byte) : EncodeLength.Statement (.unrecognized b) := fun _ => rfl

end Sys2Proof.Laws
end

