-- ==== Sys2Proof/Laws/Step.lean ====
section
/-! SUPPORT. All that a step can do, and how the invariant goes through the processing of bytes. -/

namespace Sys2Proof.Machine

/-! ### Requests -/

/-- A request is the arrival of its wire bytes. -/
theorem exec_request {i : Instr} (h : i.position = .request) (s : State) : exec i s = receiveFrame (encode i) s := by
  cases i <;> first | rfl | exact absurd h nofun

/-- A step with no byte in process and no reset accepts some of the offered bytes, at least one if there is one and
no request is complete. -/
theorem step_ready {s : State} (hr : s.env.rst = false) (hb : s.busy = false) :
    ∃ k, 1 ≤ k ∧ step s = takeBytes k s := by
  have hadv : advance s = takeBytes 1 s := by simp [advance, hr, hb]
  cases hf : s.fstate with
  | assembling => exact ⟨1, Nat.le_refl 1, by simp [step, fetch, hr, hb, hf, hadv]⟩
  | idle =>
    cases hd : decodeRequest s.env.rx with
    | error e => exact ⟨1, Nat.le_refl 1, by simp [step, fetch, hr, hb, hf, hd, hadv]⟩
    | ok x =>
      obtain ⟨i, rest⟩ := x
      obtain ⟨hp, he⟩ := decodeRequest_bytes hd
      refine ⟨(encode i).length, by cases i <;> first | (simp [encode]; done) | exact absurd hp nofun, ?_⟩
      have : step s = exec i (s.setRx rest) := by simp [step, fetch, hr, hb, hf, hd]
      rw [this, exec_request hp, receiveFrame]
      have : (s.setRx rest).setRx (encode i ++ (s.setRx rest).env.rx) = s := by
        show { s with env := { s.env with rx := encode i ++ rest } } = s
        rw [he]
      rw [this]

/-! ### Steps with a byte in process -/

/-- The byte of the transmission a list begins with. -/
def firstOffer (ops : List SeqOp) (s : State) : Option Byte :=
  match ops with
  | .tx v :: _ => some (v.value s)
  | _ => none

theorem firstOffer_append {ops ops' : List SeqOp} {s : State} (os : List SeqOp) (hl : ops.length = ops'.length)
    (h : firstOffer ops s = firstOffer ops' s) : firstOffer (ops ++ os) s = firstOffer (ops' ++ os) s := by
  cases ops with
  | nil =>
    obtain rfl : ops' = [] := List.length_eq_zero_iff.mp hl.symm
    rfl
  | cons o ops =>
    cases ops' with
    | nil => exact absurd hl (by simp)
    | cons o' ops' =>
      simp only [List.cons_append]
      cases o <;> cases o' <;> exact h

/-- The response instruction the thread of control stands at is the front of what is left to do. -/
theorem Phase.instr_ops {p : Phase} {s : State} {i : Instr} (h : p.instr s = some i) (q : Seq) :
    ∃ ops, exec i (s.setSeq q) = .next (respond ops (s.setSeq q)) ∧ ops.length = p.ops.length ∧
      firstOffer ops s = firstOffer p.ops s ∧ (∀ l, linesAfter ops l = linesAfter p.ops l) ∧
      ∀ t : State, t.buf = s.buf → t.crc = s.crc → runOps ops t = runOps p.ops t := by
  cases p with
  | ack =>
    obtain rfl := Option.some.inj h
    exact ⟨_, rfl, rfl, rfl, fun _ => rfl, fun _ _ _ => rfl⟩
  | err c =>
    obtain rfl := Option.some.inj h
    exact ⟨_, rfl, rfl, rfl, fun _ => rfl, fun _ _ _ => rfl⟩
  | ident =>
    obtain rfl := Option.some.inj h
    exact ⟨_, rfl, rfl, rfl, fun _ => rfl, fun _ _ _ => rfl⟩
  | page =>
    obtain rfl := Option.some.inj h
    refine ⟨_, rfl, ?_, ?_, fun l => ?_, fun t h1 h2 => ?_⟩
    · simp [pageFrameOps, Phase.ops, streamPage, Memory.page, txCrc, pageSize]
    · have e : List.range pageSize = 0 :: (List.range 255).map Nat.succ := List.range_succ_eq_map
      simp only [pageFrameOps, Phase.ops, streamPage, Memory.page, Memory.firstBytes, offsets, e, List.map_cons,
        List.cons_append, firstOffer, Src.value, Src.offset]
      rfl
    · rw [show linesAfter Phase.page.ops l = l from linesAfter_streamPage l]
      exact linesAfter_txLits _ l
    · simp only [Phase.ops, runOps_pageFrameOps, runOps_streamPage, h1, h2]
  | done =>
    obtain rfl := Option.some.inj h
    exact ⟨_, rfl, rfl, rfl, fun _ => rfl, fun _ _ _ => rfl⟩
  | body c => exact absurd h (by simp [Phase.instr])

/-- A step with a byte in process and no reset goes on with what is left to do; it may have written the response at its
front out as literal transmissions, which changes neither the length, nor what the list does, nor the lines. -/
theorem step_busy {s : State} (hr : s.env.rst = false) (hb : s.busy = true) :
    ∃ q : Seq, step s = .next (resume (s.setSeq q)) ∧ q.noFrame = s.seq.noFrame ∧ q.ops.length = s.seq.ops.length ∧
      firstOffer q.ops s = firstOffer s.seq.ops s ∧ (∀ l, linesAfter q.ops l = linesAfter s.seq.ops l) ∧
      runOps q.ops s = runOps s.seq.ops s := by
  obtain ⟨c, ph, nf, h⟩ : ∃ c ph nf, s.seq = ⟨c, ph, nf⟩ := ⟨_, _, _, rfl⟩
  have hself : advance s = .next (resume (s.setSeq s.seq)) := by simp [advance, hr, hb]; rfl
  have same : step s = advance s → ∃ q : Seq, step s = .next (resume (s.setSeq q)) ∧ q.noFrame = s.seq.noFrame ∧
      q.ops.length = s.seq.ops.length ∧ firstOffer q.ops s = firstOffer s.seq.ops s ∧
      (∀ l, linesAfter q.ops l = linesAfter s.seq.ops l) ∧ runOps q.ops s = runOps s.seq.ops s :=
    fun ha => ⟨s.seq, ha.trans hself, rfl, rfl, rfl, fun _ => rfl, rfl⟩
  rcases c with _ | ⟨o, c⟩
  · rcases ph with _ | ⟨p, ps⟩
    · exact same (by simp [step, fetch, hr, hb, h])
    · cases hp : p.instr s with
      | none => exact same (by simp [step, fetch, hr, hb, h, hp])
      | some i =>
        obtain ⟨ops, he, hl, hof, hlin, hrun⟩ := Phase.instr_ops hp ⟨[], ps, nf⟩
        have hq : (Seq.mk [] (p :: ps) nf).ops = p.ops ++ ps.flatMap Phase.ops := by simp [Seq.ops]
        refine ⟨⟨ops, ps, nf⟩, ?_, by rw [h], ?_, ?_, fun l => ?_, ?_⟩
        · have hs : step s = exec i (s.setSeq ⟨[], ps, nf⟩) := by simp [step, fetch, hr, hb, h, hp]
          have : (s.setSeq ⟨[], ps, nf⟩).enter
              { (s.setSeq ⟨[], ps, nf⟩).seq with curr := ops ++ (s.setSeq ⟨[], ps, nf⟩).seq.curr } =
              s.setSeq ⟨ops, ps, nf⟩ := by
            cases s
            simp only at hb
            simp [State.setSeq, State.enter, hb]
          rw [hs, he, respond, this]
        · simp [h, Seq.ops, hl]
        · rw [h, hq]
          exact firstOffer_append _ hl hof
        · rw [h, hq, Seq.ops, linesAfter_append, linesAfter_append, hlin]
        · rw [h, hq, Seq.ops, runOps_append, runOps_append, hrun s rfl rfl]
  · exact same (by simp [step, fetch, hr, hb, h])

/-! ### One byte under the invariant -/

/-- With no byte in process no completed frame is. -/
theorem State.quiet_of_not_busy {s : State} (h : s.busy = false) : s.quiet := fun hb => by rw [h] at hb; cases hb

/-- All that one byte can do to a state that meets the invariant (R140, R157). -/
theorem rxByte_cases (b : Byte) {s : State} (hi : Inv s) (hb : s.busy = false) :
    (s.fstate = .idle ∧ ((∃ c, selectorOf b = some c ∧
        rxByte b s = .next (settle { accept b c s with busy := true })) ∨
      (selectorOf b = none ∧ rxByte b s = .next (settle { s with busy := true })))) ∨
    (s.fstate = .assembling ∧ s.receivedLen.toNat + 1 < s.expectedLen.toNat ∧
      rxByte b s = .next (settle { s with
        buf := s.buf.put s.receivedLen.toNat b
        receivedLen := s.receivedLen + 1
        crc := if isPayload s.receivedLen s.expectedLen then crcUpdate s.crc b else s.crc
        busy := true })) ∨
    (s.fstate = .assembling ∧ s.receivedLen.toNat + 1 = s.expectedLen.toNat ∧
      ∃ v, v = ofLoHi (s.buf.get (s.expectedLen.toNat - 2)) b ∧
      rxByte b s = .next (startPhases (if v = s.crc then matchPhases s.cmd else mismatchPhases s.crc) { s with
        buf := s.buf.put s.receivedLen.toNat b
        receivedLen := s.expectedLen
        busy := true })) := by
  have hf : s.fstate = .idle ∨ s.fstate = .assembling := by cases s.fstate <;> simp
  rcases hf with hf | hf
  · left
    refine ⟨hf, ?_⟩
    cases hs : selectorOf b with
    | some c => exact .inl ⟨c, rfl, rxByte_selector hf hs⟩
    | none => exact .inr ⟨rfl, rxByte_unrecognized hf hs⟩
  · right
    obtain ⟨hlt, he⟩ := (hi.frame hf (State.quiet_of_not_busy hb)).count
    have hlt' : s.receivedLen.toNat < s.expectedLen.toNat := by simpa [BitVec.lt_def] using hlt
    obtain ⟨h2, hc⟩ := Cmd.len_bounds s.cmd
    rw [← he] at h2 hc
    rcases Nat.lt_or_ge (s.receivedLen.toNat + 1) s.expectedLen.toNat with h | h
    · exact .inl ⟨hf, h, rxByte_more hf hi.bufWf h hc⟩
    · have hl : s.receivedLen.toNat + 1 = s.expectedLen.toNat := by omega
      refine .inr ⟨hf, hl, _, rfl, ?_⟩
      rw [rxByte_last hf hi.bufWf h2 hl hc]
      have hx := rxCrc_eq (s := { s with
        buf := s.buf.put s.receivedLen.toNat b, receivedLen := s.expectedLen, busy := true }) (by exact h2) (by exact hc)
      have g1 : (s.buf.put s.receivedLen.toNat b).get (s.expectedLen.toNat - 1) = b := by
        rw [show s.expectedLen.toNat - 1 = s.receivedLen.toNat by omega]
        exact Memory.get_put_same _ _ _ hi.bufWf
      have g2 : (s.buf.put s.receivedLen.toNat b).get (s.expectedLen.toNat - 2) = s.buf.get (s.expectedLen.toNat - 2) :=
        Memory.get_put_other _ _ (by omega)
      simp only [g1, g2] at hx
      rcases gate_cases { s with buf := s.buf.put s.receivedLen.toNat b, receivedLen := s.expectedLen, busy := true }
        with ⟨v, hv, h⟩ | ⟨hv, -⟩
      · rw [hx] at hv
        obtain rfl := Option.some.inj hv
        exact h
      · rw [hx] at hv
        exact absurd hv (by simp)

/-! ### The invariant -/

/-- What is outside the block is no part of the invariant. -/
theorem inv_env {s : State} (hi : Inv s) (e : Env) : Inv { s with env := e } :=
  ⟨hi.bufWf, hi.extZero, fun hf hq => ⟨(hi.frame hf hq).count, (hi.frame hf hq).fresh, (hi.frame hf hq).folded⟩,
    hi.window, hi.idleSafe, hi.busySafe⟩

/-- What is offered is no part of the invariant. -/
theorem inv_setRx {s : State} (hi : Inv s) (bs : List Byte) : Inv (s.setRx bs) := inv_env hi _

/-- The processing of a completed frame that leads to the safe state leaves the invariant behind wherever it pauses. -/
theorem inv_resume {s : State} (hw : s.buf.wf) (hx : s.port.addrExt = 0) (hb : s.busy = true)
    (hn : s.seq.noFrame = false) (hl : linesAfter s.seq.ops s.port.lines = Lines.safe) : Inv (resume s) := by
  rcases resume_cases s with h | ⟨n, -, -, h⟩
  · rw [h]
    refine ⟨runOps_bufWf _ _ (by exact hw), runOps_addrExt _ _ (by exact hx), fun hf => ?_, nofun, fun _ => ⟨?_, rfl⟩,
      nofun⟩
    · rw [finish_fstate, runOps_seq, State.setCuts_seq, hn] at hf
      cases hf
    · rw [Port.safe_iff_lines]
      exact (runOps_lines _ _).trans hl
  · have hbusy : (resume s).busy = true := by rw [h]; simpa using hb
    have hno : (resume s).seq.noFrame = false := by rw [h]; exact hn
    refine ⟨?_, ?_, fun _ hq => ?_, fun h' => ?_, fun h' => ?_, fun _ => ?_⟩
    · rw [h]; exact runOps_bufWf _ _ (by exact hw)
    · rw [h]; exact runOps_addrExt _ _ (by exact hx)
    · rw [hq hbusy] at hno; cases hno
    · rw [hno] at h'; cases h'
    · rw [hbusy] at h'; cases h'
    · have := runOps_lines (s.seq.ops.take n) (s.setCuts s.env.cuts.tail)
      rw [h]
      simp only [State.setSeq_seq, State.setSeq_port, Seq.drop_ops, this]
      rw [← linesAfter_append]
      simpa using hl

/-- The end of a byte that completed no frame keeps the invariant, in its short window too. -/
theorem inv_settle {s : State} (hi : Inv { s with busy := false }) : Inv (settle s) := by
  rcases settle_cases s with h | h
  · rw [h]; exact inv_env hi _
  · rw [h]
    have hf : s.fstate = .assembling → FrameInv { s with busy := false } :=
      fun hf => hi.frame hf (State.quiet_of_not_busy rfl)
    exact ⟨hi.bufWf, hi.extZero, fun hf' _ => ⟨(hf hf').count, (hf hf').fresh, (hf hf').folded⟩, fun _ => rfl, nofun,
      fun _ => (Port.safe_iff_lines _).mp (hi.idleSafe rfl).1⟩

/-- Going on with a processing keeps the invariant. -/
theorem resume_inv {s : State} (hi : Inv s) (hb : s.busy = true) : Inv (resume s) := by
  cases hn : s.seq.noFrame with
  | false => exact inv_resume hi.bufWf hi.extZero hb hn (hi.busySafe hb)
  | true =>
    have hops := hi.window hn
    have hl : s.port.lines = Lines.safe := by simpa [hops, linesAfter] using hi.busySafe hb
    rw [resume_done hops]
    refine ⟨hi.bufWf, hi.extZero, fun hf _ => ?_, nofun, fun _ => ⟨(Port.safe_iff_lines _).mpr hl, rfl⟩, nofun⟩
    have hf' : s.fstate = .assembling := by rwa [finish_fstate, State.setCuts_seq, if_pos hn] at hf
    have := hi.frame hf' fun _ => hn
    exact ⟨this.count, this.fresh, this.folded⟩

/-- One byte keeps the invariant and never stops. -/
theorem rxByte_inv (b : Byte) {s : State} (hi : Inv s) (hb : s.busy = false) : ∃ t, rxByte b s = .next t ∧ Inv t := by
  rcases rxByte_cases b hi hb with ⟨hf, ⟨c, hs, h⟩ | ⟨-, h⟩⟩ | ⟨hf, hlt, h⟩ | ⟨hf, hl, v, -, h⟩
  · refine ⟨_, h, inv_settle ⟨Memory.wf_zeroed, hi.extZero, fun _ _ => ⟨⟨?_, rfl⟩, fun a _ => rfl, ?_⟩,
      hi.window, fun _ => hi.idleSafe hb, nofun⟩⟩
    · show (0 : Len) < c.len
      cases c <;> decide
    · obtain rfl := selectorOf_eq_some hs
      show crcUpdate crcSeed c.selector = crc16 (c.selector :: _)
      simp [accept, Memory.firstBytes, crc16]
  · refine ⟨_, h, inv_settle ?_⟩
    show Inv { s with busy := false }
    rwa [show { s with busy := false } = s by rw [← hb]]
  · have hfr := hi.frame hf (State.quiet_of_not_busy hb)
    obtain ⟨-, he⟩ := hfr.count
    obtain ⟨h2, hc⟩ := Cmd.len_bounds s.cmd
    rw [← he] at h2 hc
    have hcap : bufCap = 260 := rfl
    have h1 : (s.receivedLen + 1).toNat = s.receivedLen.toNat + 1 := by
      rw [BitVec.toNat_add]
      exact Nat.mod_eq_of_lt (by simp; omega)
    refine ⟨_, h, inv_settle ⟨Memory.wf_put b hi.bufWf (by omega), hi.extZero, fun _ _ => ⟨⟨?_, he⟩, fun a ha => ?_, ?_⟩,
      hi.window, fun _ => hi.idleSafe hb, nofun⟩⟩
    · show s.receivedLen + 1 < s.expectedLen
      rw [BitVec.lt_def, h1]
      exact hlt
    · have ha' : s.receivedLen.toNat + 1 ≤ a := by rw [← h1]; exact ha
      show (s.buf.put s.receivedLen.toNat b).get a = 0
      rw [Memory.get_put_other _ _ (by omega)]
      exact hfr.fresh a (by omega)
    · show (if isPayload s.receivedLen s.expectedLen then crcUpdate s.crc b else s.crc) =
        crc16 (s.cmd.selector ::
          (s.buf.put s.receivedLen.toNat b).firstBytes (min (s.receivedLen + 1).toNat (s.expectedLen.toNat - 2)))
      rw [isPayload_iff h2, h1]
      have hfold := hfr.folded
      simp only [State.foldedBytes] at hfold
      by_cases hp : s.receivedLen.toNat + 2 < s.expectedLen.toNat
      · rw [show min (s.receivedLen.toNat + 1) (s.expectedLen.toNat - 2) = s.receivedLen.toNat + 1 by omega,
          Memory.firstBytes_succ, Memory.get_put_same _ _ _ hi.bufWf, ← List.cons_append, crc16_snoc]
        rw [show min s.receivedLen.toNat (s.expectedLen.toNat - 2) = s.receivedLen.toNat by omega] at hfold
        simp only [hp, decide_true, if_true, hfold]
        rw [Memory.firstBytes_congr fun a ha => (Memory.get_put_other b s.buf (by omega : a ≠ s.receivedLen.toNat)).symm]
      · simp only [hp, decide_false, Bool.false_eq_true, if_false, hfold]
        rw [show min (s.receivedLen.toNat + 1) (s.expectedLen.toNat - 2) = s.expectedLen.toNat - 2 by omega,
          show min s.receivedLen.toNat (s.expectedLen.toNat - 2) = s.expectedLen.toNat - 2 by omega,
          Memory.firstBytes_congr fun a ha => (Memory.get_put_other b s.buf (by omega : a ≠ s.receivedLen.toNat)).symm]
  · obtain ⟨-, he⟩ := (hi.frame hf (State.quiet_of_not_busy hb)).count
    obtain ⟨h2, hc⟩ := Cmd.len_bounds s.cmd
    rw [← he] at h2 hc
    have hcap : bufCap = 260 := rfl
    refine ⟨_, h, inv_resume (Memory.wf_put b hi.bufWf (by omega)) hi.extZero rfl rfl ?_⟩
    have hsafe : s.port.lines = Lines.safe := (Port.safe_iff_lines _).mp (hi.idleSafe hb).1
    show linesAfter (Seq.mk [] _ false).ops s.port.lines = Lines.safe
    rw [hsafe]
    exact linesAfter_phases_safe _

/-- Accepting any number of bytes keeps the invariant and never stops. -/
theorem takeBytes_inv (n : Nat) {s : State} (hi : Inv s) : ∃ t, takeBytes n s = .next t ∧ Inv t := by
  induction n generalizing s with
  | zero => exact ⟨s, rfl, hi⟩
  | succ n ih =>
    cases hb : s.busy with
    | true => exact ⟨s, takeBytes_busy _ hb, hi⟩
    | false =>
      cases hr : s.env.rx with
      | nil => exact ⟨s, takeBytes_nil _ hr, hi⟩
      | cons b rest =>
        obtain ⟨u, hu, hiu⟩ := rxByte_inv b (inv_setRx hi rest) (by exact hb)
        obtain ⟨t, ht, hit⟩ := ih hiu
        exact ⟨t, by rw [takeBytes_cons n hb hr, hu, andThen_next, ht], hit⟩

end Sys2Proof.Machine
end

