-- ==== Sys2Proof/Laws/Validator.lean ====
section
/-! SUPPORT. A check of a list of micro-operations that ignores operands, answers and time advances, and its soundness:
what passes it meets V1 to V7 under every choice of them (44_transition_validator.md R240). -/

namespace Sys2Proof.Machine

/-! ### Elapsed times -/

theorem elapsed_mono {us us' t t' : Nat} {x : Option Nat} (h : elapsed us x t = true) (hu : us' ≤ us) (ht : t ≤ t') :
    elapsed us' x t' = true := by
  cases x with
  | none => rfl
  | some a =>
    simp only [elapsed, decide_eq_true_eq] at h ⊢
    have : us' * Config.ticksPerUs ≤ us * Config.ticksPerUs := Nat.mul_le_mul_right _ hu
    omega

theorem elapsed_wait {us n t t' : Nat} {x : Option Nat} (h : elapsed us x t = true)
    (ht : t + n * Config.ticksPerUs ≤ t') : elapsed n x t' = true := by
  cases x with
  | none => rfl
  | some a =>
    simp only [elapsed, decide_eq_true_eq] at h ⊢
    omega

/-- Right after a step every element's last change is not later than the step. -/
theorem elapsed_lastChange {α : Type} [DecidableEq α] (f : Port → α) (p : Port) (e : Event) {us t : Nat}
    {x : Option Nat} (h : elapsed us x t = true) (ht : t ≤ e.time) : elapsed 0 (lastChange f p e x) e.time = true := by
  unfold lastChange
  split
  · simp [elapsed]
  · exact elapsed_mono h (Nat.zero_le _) ht

/-- At least `us` microseconds since the last change of every element but `pgm`. -/
structure VState.Old (v : VState) (us t : Nat) : Prop where
  ce : elapsed us v.tCE t = true
  oe : elapsed us v.tOE t = true
  lle : elapsed us v.tLLE t = true
  hle : elapsed us v.tHLE t = true
  dir : elapsed us v.tDir t = true
  aLo : elapsed us v.tALo t = true
  aHi : elapsed us v.tAHi t = true
  dOut : elapsed us v.tDOut t = true

theorem VState.Old.mono {v : VState} {us us' t t' : Nat} (h : v.Old us t) (hu : us' ≤ us) (ht : t ≤ t') :
    v.Old us' t' :=
  ⟨elapsed_mono h.ce hu ht, elapsed_mono h.oe hu ht, elapsed_mono h.lle hu ht, elapsed_mono h.hle hu ht,
    elapsed_mono h.dir hu ht, elapsed_mono h.aLo hu ht, elapsed_mono h.aHi hu ht, elapsed_mono h.dOut hu ht⟩

theorem VState.Old.observe {v : VState} {us t : Nat} (h : v.Old us t) {e : Event} (ht : t ≤ e.time) :
    (v.observe e).Old 0 e.time :=
  ⟨elapsed_lastChange _ _ _ h.ce ht, elapsed_lastChange _ _ _ h.oe ht, elapsed_lastChange _ _ _ h.lle ht,
    elapsed_lastChange _ _ _ h.hle ht, elapsed_lastChange _ _ _ h.dir ht, elapsed_lastChange _ _ _ h.aLo ht,
    elapsed_lastChange _ _ _ h.aHi ht, elapsed_lastChange _ _ _ h.dOut ht⟩

/-! ### The check -/

/-- What the check keeps: the lines, the microseconds since the last change of any element but `pgm`, and those since
the last change of `pgm`. -/
structure Abs where
  lines : Lines
  us : Nat
  hd : Nat
  deriving DecidableEq

/-- The effect of a micro-operation on the lines. -/
def MicroOp.onLines (l : Lines) : MicroOp → Lines
  | .setCE v => { l with ce := v }
  | .setOE v => { l with oe := v }
  | .setPGM v => { l with pgm := v }
  | .setLLE v => { l with lle := v }
  | .setHLE v => { l with hle := v }
  | .setDataDir d => { l with dataDir := d }
  | _ => l

/-- The port state at time `t` is as the check says. -/
structure VState.At (v : VState) (t : Nat) (a : Abs) : Prop where
  lines : v.port.lines = a.lines
  old : v.Old a.us t
  pgm : elapsed a.hd v.tPGM t = true

/-- A row of the table R239, read on the lines and on the two times. -/
def Abs.allows (a : Abs) : MicroOp → Bool
  | .setCE .active => a.lines.pgm.off && decide (tHD ≤ a.hd)
  | .setCE .inactive => a.lines.oe.off && a.lines.pgm.off && decide (tHD ≤ a.hd)
  | .setOE .active => a.lines.ce.on && a.lines.pgm.off && decide (a.lines.dataDir = .input)
  | .setOE .inactive => a.lines.pgm.off
  | .setPGM .active =>
    a.lines.ce.on && a.lines.oe.off && a.lines.lle.off && a.lines.hle.off && decide (a.lines.dataDir = .output) &&
      decide (tSU ≤ a.us)
  | .setPGM .inactive => a.lines.pgm.off || decide (tPW ≤ a.hd)
  | .setAddrLo _ => a.lines.oe.off && a.lines.pgm.off && decide (tHD ≤ a.hd)
  | .setAddrHi _ => a.lines.oe.off && a.lines.pgm.off && decide (tHD ≤ a.hd)
  | .setData _ => a.lines.oe.off && a.lines.pgm.off && decide (tHD ≤ a.hd)
  | .setDataDir _ => a.lines.oe.off && a.lines.pgm.off && decide (tHD ≤ a.hd)
  | .setLLE .active => a.lines.ce.off && a.lines.oe.off && a.lines.pgm.off && a.lines.hle.off
  | .setHLE .active => a.lines.ce.off && a.lines.oe.off && a.lines.pgm.off && a.lines.lle.off
  | .setLLE .inactive => a.lines.oe.off && a.lines.pgm.off
  | .setHLE .inactive => a.lines.oe.off && a.lines.pgm.off
  | .capture _ _ =>
    a.lines.ce.on && a.lines.oe.on && a.lines.pgm.off && a.lines.lle.off && a.lines.hle.off &&
      decide (a.lines.dataDir = .input) && decide (tOE ≤ a.us)
  | .wait _ => true

/-- What the check knows after a micro-operation. -/
def Abs.next (a : Abs) (o : MicroOp) : Abs where
  lines := o.onLines a.lines
  us :=
    match o with
    | .wait n => n
    | _ => 0
  hd :=
    match o with
    | .wait n => max a.hd n
    | .setPGM v => if a.lines.pgm = v then a.hd else 0
    | _ => a.hd

/-- The check of a list. -/
def Abs.run (a : Abs) : List MicroOp → Option Abs
  | [] => some a
  | o :: os => if a.allows o then (a.next o).run os else none

theorem Abs.run_append (a : Abs) (os os' : List MicroOp) : a.run (os ++ os') = (a.run os).bind fun b => b.run os' := by
  induction os generalizing a with
  | nil => rfl
  | cons o os ih =>
    simp only [List.cons_append, Abs.run]
    split
    · exact ih _
    · rfl

/-- A loop whose every iteration leads from `a` to `a`. -/
theorem Abs.run_loop {α : Type} (a : Abs) (f : α → List MicroOp) (h : ∀ x, a.run (f x) = some a) (xs : List α) :
    a.run (xs.flatMap f) = some a := by
  induction xs with
  | nil => rfl
  | cons x xs ih => rw [List.flatMap_cons, Abs.run_append, h, Option.bind_some, ih]

/-! ### Soundness -/

theorem hold_of {v : VState} {e : Event} (h : elapsed tHD v.tPGM e.time = true) : hold v e = true := by
  unfold hold
  split
  · exact h
  · rfl

/-- With `pgm` inactive V2 freezes nothing. -/
theorem condV2_off {p : Port} {o : MicroOp} (h : p.pgm = .inactive) (ho : ∀ v, o ≠ .setPGM v) : condV2 p o = true := by
  cases o
  case setPGM x => exact absurd rfl (ho x)
  all_goals simp [condV2, Line.off, h]

/-- What the check allows meets V1 to V7. -/
theorem stepOk_of_allows {v : VState} {t : Nat} {a : Abs} (h : v.At t a) {e : Event} (ht : t ≤ e.time)
    (ho : a.allows e.op = true) : stepOk v e = true := by
  obtain ⟨time, op⟩ := e
  have hce : v.port.ce = a.lines.ce := congrArg Lines.ce h.lines
  have hoe : v.port.oe = a.lines.oe := congrArg Lines.oe h.lines
  have hpgm : v.port.pgm = a.lines.pgm := congrArg Lines.pgm h.lines
  have hlle : v.port.lle = a.lines.lle := congrArg Lines.lle h.lines
  have hhle : v.port.hle = a.lines.hle := congrArg Lines.hle h.lines
  have hdir : v.port.dataDir = a.lines.dataDir := congrArg Lines.dataDir h.lines
  have hH : tHD ≤ a.hd → ∀ o, hold v ⟨time, o⟩ = true := fun hh o => hold_of (elapsed_mono h.pgm hh ht)
  have quiet : ∀ o, (∀ f : Port → Line, v.port.changes f o = false) → v.port.changes Port.addrLo o = false →
      v.port.changes Port.addrHi o = false → v.port.changes Port.dataOut o = false →
      v.port.changes Port.dataDir o = false → hold v ⟨time, o⟩ = true := by
    intro o h1 h2 h3 h4 h5
    simp [hold, h1, h2, h3, h4, h5]
  cases op with
  | setCE x =>
    cases x <;> simp only [Abs.allows, Bool.and_eq_true, decide_eq_true_eq, Line.off] at ho
    · simp [stepOk, condV1, condV3, condV4, condV5, condV6, condV7, setUp, width, Line.off, hoe, hpgm, ho,
        condV2_off (hpgm.trans ho.1.2), hH ho.2]
    · simp [stepOk, condV1, condV3, condV4, condV5, condV6, condV7, setUp, width, condV2_off (hpgm.trans ho.1), hH ho.2]
  | setOE x =>
    have hq : hold v ⟨time, .setOE x⟩ = true := by simp [hold, Port.changes, Port.apply]
    cases x <;> simp only [Abs.allows, Bool.and_eq_true, decide_eq_true_eq, Line.off, Line.on] at ho
    · simp [stepOk, condV1, condV3, condV4, condV5, condV6, condV7, setUp, width, condV2_off (hpgm.trans ho), hq]
    · simp [stepOk, condV1, condV3, condV4, condV5, condV6, condV7, setUp, width, condV2_off (hpgm.trans ho.1.2), hq,
        Line.on, Line.off, hce, hpgm, hdir, ho]
  | setPGM x =>
    have hq : hold v ⟨time, .setPGM x⟩ = true := by simp [hold, Port.changes, Port.apply]
    cases x <;> simp only [Abs.allows, Bool.and_eq_true, Bool.or_eq_true, decide_eq_true_eq, Line.off, Line.on] at ho
    · have hw : width v ⟨time, .setPGM .inactive⟩ = true := by
        simp only [width, Bool.or_eq_true, Line.off, decide_eq_true_eq, hpgm]
        exact ho.imp id fun hh => elapsed_mono h.pgm hh ht
      simp [stepOk, condV1, condV2, condV3, condV4, condV5, condV6, condV7, setUp, hw, hq, Port.disturbs, Port.changes,
        Port.apply]
    · have ho' := h.old.mono ho.2 ht
      simp [stepOk, condV1, condV2, condV3, condV4, condV5, condV6, condV7, setUp, width, hq, Port.disturbs, Port.changes,
        Port.apply, Line.on, Line.off, hce, hoe, hlle, hhle, hdir, ho, ho'.ce, ho'.aLo, ho'.aHi, ho'.dOut, ho'.dir]
  | setLLE x =>
    have hq : hold v ⟨time, .setLLE x⟩ = true := by simp [hold, Port.changes, Port.apply]
    cases x <;> simp only [Abs.allows, Bool.and_eq_true, decide_eq_true_eq, Line.off] at ho
    · simp [stepOk, condV1, condV3, condV4, condV5, condV6, condV7, setUp, width, condV2_off (hpgm.trans ho.2), hq,
        Line.off, hoe, hpgm, ho]
    · simp [stepOk, condV1, condV3, condV4, condV5, condV6, condV7, setUp, width, condV2_off (hpgm.trans ho.1.2), hq,
        Line.off, hoe, hpgm, hce, hhle, ho]
  | setHLE x =>
    have hq : hold v ⟨time, .setHLE x⟩ = true := by simp [hold, Port.changes, Port.apply]
    cases x <;> simp only [Abs.allows, Bool.and_eq_true, decide_eq_true_eq, Line.off] at ho
    · simp [stepOk, condV1, condV3, condV4, condV5, condV6, condV7, setUp, width, condV2_off (hpgm.trans ho.2), hq,
        Line.off, hoe, hpgm, ho]
    · simp [stepOk, condV1, condV3, condV4, condV5, condV6, condV7, setUp, width, condV2_off (hpgm.trans ho.1.2), hq,
        Line.off, hoe, hpgm, hce, hlle, ho]
  | setAddrLo b =>
    simp only [Abs.allows, Bool.and_eq_true, decide_eq_true_eq, Line.off] at ho
    simp [stepOk, condV1, condV3, condV4, condV5, condV6, condV7, setUp, width, condV2_off (hpgm.trans ho.1.2),
      hH ho.2, Line.off, hoe, hpgm, ho]
  | setAddrHi b =>
    simp only [Abs.allows, Bool.and_eq_true, decide_eq_true_eq, Line.off] at ho
    simp [stepOk, condV1, condV3, condV4, condV5, condV6, condV7, setUp, width, condV2_off (hpgm.trans ho.1.2),
      hH ho.2, Line.off, hoe, hpgm, ho]
  | setDataDir d =>
    simp only [Abs.allows, Bool.and_eq_true, decide_eq_true_eq, Line.off] at ho
    cases d <;> simp [stepOk, condV1, condV3, condV4, condV5, condV6, condV7, setUp, width,
      condV2_off (hpgm.trans ho.1.2), hH ho.2, Line.off, hoe, hpgm, ho]
  | setData b =>
    simp only [Abs.allows, Bool.and_eq_true, decide_eq_true_eq, Line.off] at ho
    simp [stepOk, condV1, condV3, condV4, condV5, condV6, condV7, setUp, width, condV2_off (hpgm.trans ho.1.2),
      hH ho.2, Line.off, hoe, hpgm, ho]
  | wait n =>
    simp [stepOk, condV1, condV2, condV3, condV4, condV5, condV6, condV7, setUp, width, hold, Port.disturbs,
      Port.changes, Port.apply]
  | capture k d =>
    simp only [Abs.allows, Bool.and_eq_true, decide_eq_true_eq, Line.off, Line.on] at ho
    have ho' := h.old.mono ho.2 ht
    simp [stepOk, condV1, condV2, condV3, condV4, condV5, condV6, condV7, setUp, width, hold, accessTime, Port.disturbs,
      Port.changes, Port.apply, Line.on, Line.off, hce, hoe, hpgm, hlle, hhle, hdir, ho, ho'.ce, ho'.oe, ho'.lle,
      ho'.hle, ho'.aLo, ho'.aHi]

/-- What leaves the port alone leaves the port state alone. -/
theorem observe_same (v : VState) (e : Event) (h : v.port.apply e.op = v.port) : v.observe e = v := by
  simp [VState.observe, lastChange, Port.changes, h]

/-- The port state after what the check allows is as the check says. -/
theorem VState.At.observe {v : VState} {t : Nat} {a : Abs} (h : v.At t a) {e : Event}
    (ht : t + e.op.leastTicks ≤ e.time) : (v.observe e).At e.time (a.next e.op) := by
  have ht' : t ≤ e.time := by omega
  refine ⟨?_, ?_, ?_⟩
  · show (v.port.apply e.op).lines = e.op.onLines a.lines
    rw [← h.lines]
    cases e.op <;> rfl
  · obtain ⟨time, op⟩ := e
    cases op
    case wait n =>
      have hn : t + n * Config.ticksPerUs ≤ time := ht
      rw [observe_same v ⟨time, .wait n⟩ rfl]
      exact ⟨elapsed_wait h.old.ce hn, elapsed_wait h.old.oe hn, elapsed_wait h.old.lle hn, elapsed_wait h.old.hle hn,
        elapsed_wait h.old.dir hn, elapsed_wait h.old.aLo hn, elapsed_wait h.old.aHi hn, elapsed_wait h.old.dOut hn⟩
    all_goals exact h.old.observe ht'
  · have hpgm : v.port.pgm = a.lines.pgm := congrArg Lines.pgm h.lines
    obtain ⟨time, op⟩ := e
    have hm := elapsed_mono h.pgm (Nat.le_refl a.hd) ht'
    have same : ∀ o, (v.port.apply o).pgm = v.port.pgm → (v.observe ⟨time, o⟩).tPGM = v.tPGM := fun o hs => by
      simp [VState.observe, lastChange, Port.changes, hs]
    cases op
    case wait n =>
      rw [same _ rfl]
      show elapsed (max a.hd n) v.tPGM time = true
      rcases Nat.le_total a.hd n with hh | hh
      · rw [Nat.max_eq_right hh]; exact elapsed_wait h.pgm ht
      · rw [Nat.max_eq_left hh]; exact hm
    case setPGM x =>
      show elapsed (if a.lines.pgm = x then a.hd else 0) (lastChange Port.pgm v.port ⟨time, .setPGM x⟩ v.tPGM) time = true
      by_cases hx : a.lines.pgm = x
      · have : lastChange Port.pgm v.port ⟨time, .setPGM x⟩ v.tPGM = v.tPGM := by
          simp [lastChange, Port.changes, Port.apply, hpgm, hx]
        rw [if_pos hx, this]
        exact hm
      · rw [if_neg hx]
        exact elapsed_lastChange _ _ ⟨time, .setPGM x⟩ h.pgm ht'
    all_goals rw [same _ rfl]; exact hm

/-- What passes the check meets the conditions, and the check says where it ends. -/
theorem traceOk_of_run (adv : Nat → Nat) (os : List MicroOp) {v : VState} {n t : Nat} {a b : Abs} (h : v.At t a)
    (hr : a.run os = some b) :
    traceOk v (stamp adv n t os) = true ∧ (v.after (stamp adv n t os)).At (timeAfter adv n t os) b := by
  induction os generalizing v n t a with
  | nil =>
    obtain rfl := Option.some.inj hr
    exact ⟨rfl, h⟩
  | cons o os ih =>
    simp only [Abs.run] at hr
    split at hr
    · rename_i ha
      have h1 : stepOk v ⟨t + adv n + o.leastTicks, o⟩ = true := stepOk_of_allows h (Nat.le_trans (Nat.le_add_right _ _) (Nat.le_add_right _ _)) ha
      have h2 := VState.At.observe h (e := ⟨t + adv n + o.leastTicks, o⟩) (Nat.add_le_add_right (Nat.le_add_right _ _) _)
      obtain ⟨h3, h4⟩ := ih h2 (n := n + 1) hr
      exact ⟨by simp [stamp, traceOk, h1, h3], h4⟩
    · exact absurd hr (by simp)

/-! ### The handlers -/

/-- Between handlers: the safe state, and the hold time over (V8, R240). -/
def Abs.idle : Abs := { lines := Lines.safe, us := 0, hd := tHD }

theorem VState.settled_iff (v : VState) (t : Nat) : v.settled t ↔ v.At t Abs.idle := by
  constructor
  · rintro ⟨h, h1, h2, h3, h4, h5, h6, h7, h8, h9⟩
    exact ⟨(Port.safe_iff_lines _).mp h, ⟨h1, h2, h3, h4, h5, h6, h7, h8⟩, h9⟩
  · rintro ⟨h, ⟨h1, h2, h3, h4, h5, h6, h7, h8⟩, h9⟩
    exact ⟨(Port.safe_iff_lines _).mpr h, h1, h2, h3, h4, h5, h6, h7, h8, h9⟩

/-- A loop whose first iteration leads from `a` to `b` and whose others lead from `b` to `b`. -/
theorem Abs.run_loop_of {α : Type} (a b : Abs) (f : α → List MicroOp) (h : ∀ x, a.run (f x) = some b)
    (h' : ∀ x, b.run (f x) = some b) (x : α) (xs : List α) : a.run ((x :: xs).flatMap f) = some b := by
  rw [List.flatMap_cons, Abs.run_append, h, Option.bind_some, Abs.run_loop b f h']

/-- The check passes the trace of Read (R193, R240). -/
theorem run_readTrace (lo hi : Byte) (page : List Byte) :
    Abs.idle.run (readTrace lo hi page) = some Abs.idle := by
  rw [readTrace, Abs.run_append, Abs.run_append,
    show Abs.idle.run [.setCE .active, .setOE .inactive, .setAddrLo lo, .setAddrHi hi] =
      some ⟨{ Lines.safe with ce := .active }, 0, tHD⟩ from rfl, Option.bind_some,
    Abs.run_loop ⟨{ Lines.safe with ce := .active }, 0, tHD⟩ (fun x : Byte × Byte => readIterTrace x.1 x.2)
      (fun _ => rfl), Option.bind_some]
  rfl

/-- The check passes the trace of Write (R194, R240). -/
theorem run_writeTrace (lo hi : Byte) (data : List Byte) (h : data ≠ []) :
    Abs.idle.run (writeTrace lo hi data) = some Abs.idle := by
  obtain ⟨d, ds, rfl⟩ := List.exists_cons_of_ne_nil h
  obtain ⟨k, ks, hk⟩ : ∃ k ks, offsets = k :: ks := List.exists_cons_of_ne_nil (by simp [← List.length_pos_iff])
  rw [writeTrace, hk, List.zip_cons_cons, Abs.run_append, Abs.run_append,
    show Abs.idle.run [.setOE .inactive, .setPGM .inactive, .setAddrLo lo, .setAddrHi hi, .setDataDir .output] =
      some ⟨{ Lines.safe with dataDir := .output }, 0, tHD⟩ from rfl, Option.bind_some,
    Abs.run_loop_of _ ⟨{ Lines.safe with ce := .active, dataDir := .output }, tHD, tHD⟩
      (fun x : Byte × Byte => writeIterTrace x.1 x.2) (fun _ => rfl) (fun _ => rfl), Option.bind_some]
  rfl

/-- The check passes the trace of FastDump (R195, R240). -/
theorem run_fastDumpTrace (low : Byte) (page : List Byte) :
    Abs.idle.run (fastDumpTrace low page) = some Abs.idle := by
  rw [fastDumpTrace, Abs.run_append,
    show Abs.idle.run [.setData low, .setDataDir .output, .setAddrLo low, .setLLE .active, .setLLE .inactive,
      .setAddrLo low, .setHLE .active, .setHLE .inactive, .setDataDir .input] = some Abs.idle from rfl,
    Option.bind_some, Abs.run_loop Abs.idle (fun x : Byte × Byte => fastDumpIterTrace x.1 x.2) (fun _ => rfl)]

end Sys2Proof.Machine
end

