-- ==== Sys2Proof/Tests/Slice0.lean ====
section
/-! SUPPORT. The model's own tests: words and runs whose expected results stand in spec/ (95_test_vectors.md, cited by
vector), the smoke of WellFormed, and one witness for the hypotheses of every statement. -/

namespace Sys2Proof.Tests

open Sys2Proof Sys2Proof.Machine

set_option maxRecDepth 8000
set_option linter.unusedSimpArgs false

/-! ### Helpers -/

/-- The bytes on the transmit stream after a result. -/
def sentBy : Result → Option (List Byte)
  | .next s => some s.env.tx
  | _ => none

/-- The registers of the frame assembler after a result, as section 3 of the vectors writes them. -/
def frameRegs : Result → Option (FState × Cmd × Nat × Nat × Word)
  | .next s => some (s.fstate, s.cmd, s.expectedLen.toNat, s.receivedLen.toNat, s.crc)
  | _ => none

/-- The buffer after a result. -/
def bufAfter : Result → Option Memory
  | .next s => some s.buf
  | _ => none

/-- The chip-port registers after a result, and whether a byte is in process. -/
def portAfter : Result → Option (Port × Bool)
  | .next s => some (s.port, s.busy)
  | _ => none

/-- An idle block that has done work before: nothing in it is what reset leaves but what the safe state asks for. -/
def idleState : State :=
  { State.reset with
    cmd := .write, expectedLen := 260, receivedLen := 260, crc := 0x42C3
    buf := [(1, 0x10), (2, 0xAA), (259, 0xEE)]
    port := { Port.reset with addrLo := 0xFF, addrHi := 0x10, dataOut := 0xAA } }

/-- The block with `n` bytes of the request of T3.3 accepted, and the others offered. -/
def midRead : Nat → Result := fun n => takeBytes n (idleState.offer [0x72, 0x34, 0x12, 0x47, 0x16])

/-- The state of T3.3 after its second byte. -/
def oneByteIn : State :=
  { idleState with
    fstate := .assembling, cmd := .read, expectedLen := 4, receivedLen := 1, crc := 0xC724, buf := [(0, 0x34)]
    env := { Env.start with rx := [0x12, 0x47, 0x16] } }

/-- The state of T3.3 after its third byte. -/
def twoBytesIn : State :=
  { oneByteIn with receivedLen := 2, crc := 0x1647, buf := [(0, 0x34), (1, 0x12)]
                   env := { Env.start with rx := [0x47, 0x16] } }

/-- The state of T3.3 after its fourth byte. -/
def threeBytesIn : State :=
  { twoBytesIn with receivedLen := 3, buf := [(0, 0x34), (1, 0x12), (2, 0x47)], env := { Env.start with rx := [0x16] } }

/-- The state after the selector of a Write (T3.1). -/
def writeBegun : State :=
  { idleState with
    fstate := .assembling, cmd := .write, expectedLen := 260, receivedLen := 0, crc := 0x66FF, buf := [] }

/-- A block that stands at the beginning of its ACK, with a Read to do after it. -/
def ackAhead : State :=
  { idleState with busy := true, cmd := .read, seq := { curr := [], phases := matchPhases .read } }

/-- A page of 0xFF (S7). -/
def pageFF : List Byte := List.replicate 256 0xFF

/-! ### Well-formed instructions -/

theorem test_wf_write_of_a_page : (Instr.write 0x01 0x00 pageFF 0x1216).WellFormed = true := by decide +kernel
theorem test_wf_write_one_short_refused : (Instr.write 0x01 0x00 (pageFF.drop 1) 0x1216).WellFormed = false := by
  decide +kernel
theorem test_wf_page_one_long_refused : (Instr.page (0x00 :: pageFF) 0x30FF).WellFormed = false := by decide +kernel
theorem test_wf_selectors_are_recognized :
    (Instr.unrecognized 0x69).WellFormed = false ∧ (Instr.unrecognized 0x72).WellFormed = false ∧
      (Instr.unrecognized 0x77).WellFormed = false ∧ (Instr.unrecognized 0x66).WellFormed = false := by decide
theorem test_wf_capitals_are_not_selectors :
    (Instr.unrecognized 0x49).WellFormed = true ∧ (Instr.unrecognized 0x52).WellFormed = true ∧
      (Instr.unrecognized 0x57).WellFormed = true ∧ (Instr.unrecognized 0x46).WellFormed = true := by decide

/-! ### Decoding: words of the spec -/

/-- T2.14 row 1. -/
theorem test_decode_identify : decodeRequest [0x69, 0x7F, 0x6E, 0x78] = .ok (.identify 0x6E7F, [0x78]) := rfl
/-- T2.14 row 3. -/
theorem test_decode_read : decodeRequest [0x72, 0x34, 0x12, 0x47, 0x16] = .ok (.read 0x34 0x12 0x1647, []) := rfl
/-- T2.14 row 10. -/
theorem test_decode_write :
    decodeRequest (0x77 :: 0x01 :: 0x00 :: (pageFF ++ [0x16, 0x12])) = .ok (.write 0x01 0x00 pageFF 0x1216, []) := rfl
/-- T2.14 row 8. -/
theorem test_decode_fastDump : decodeRequest [0x66, 0x05, 0xAA, 0x12, 0xF0] = .ok (.fastDump 0x05 0xAA 0xF012, []) := rfl
/-- T3.2. -/
theorem test_decode_unrecognized : decodeRequest [0x78, 0x69] = .ok (.unrecognized 0x78, [0x69]) := rfl
/-- S1. -/
theorem test_decode_ack : decodeAt .verdict [0x61, 0x7E, 0xA8] = .ok (.ack, []) := rfl
/-- T3.6. -/
theorem test_decode_err : decodeAt .verdict [0x65, 0x91, 0xDF] = .ok (.err 0xDF91, []) := rfl
/-- T2.10, sent FF 30. -/
theorem test_decode_page : decodeAt .afterRead (pageFF ++ [0xFF, 0x30]) = .ok (.page pageFF 0x30FF, []) := rfl
/-- R104. -/
theorem test_decode_done : decodeAt .afterWrite [0x64, 0x6F, 0x6E, 0x65, 0xC3, 0x42] = .ok (.done, []) := by decide
/-- R102: the string and its CRC, low byte first. -/
theorem test_decode_ident :
    decodeAt .afterIdentify (Config.identString ++ [loByte (crc16 Config.identString), hiByte (crc16 Config.identString)]) =
      .ok (.ident, []) := by
  simp [decodeAt, decodeIdent, identFrame, le16]
/-- R105, R107: a selector with too few bytes after it is no request yet. -/
theorem test_decode_incomplete :
    decodeRequest [0x72, 0x34, 0x12, 0x47] = .error .incomplete ∧ decodeRequest [0x69] = .error .incomplete :=
  ⟨rfl, rfl⟩
theorem test_decode_rejects_by_name :
    decodeRequest [] = .error .noByte ∧ decodeAt .verdict [0x61, 0x7E, 0xA9] = .error .notVerdict ∧
      decodeAt .afterRead pageFF = .error .notPage ∧
      decodeAt .afterWrite [0x64, 0x6F, 0x6E, 0x65, 0x42, 0xC3] = .error .notDone := by decide +kernel

/-- The rows of the opcode table, as it numbers them. -/
theorem test_table_words :
    decodeTableWord 8 0x69 = some (.identify 0) ∧ decodeTableWord 8 0x72 = some (.read 0 0 0) ∧
      decodeTableWord 8 0x66 = some (.fastDump 0 0 0) ∧ decodeTableWord 8 0x65 = some (.err 0) ∧
      decodeTableWord 24 0x617EA8 = some .ack ∧ decodeTableWord 48 0x646F6E65C342 = some .done := by decide +kernel
theorem test_table_word_write : decodeTableWord 8 0x77 = some (.write 0 0 (List.replicate 256 0) 0) := by decide +kernel

/-- A placed word is what the next step runs: a Read of zeros has the wrong CRC (T3.8), and an ACK is sent. -/
theorem test_placed_read : sentBy (step (State.reset.withFetchWord 8 0x72)) = some [0x65, 0xD1, 0xDB] := by
  decide +kernel
theorem test_placed_ack : sentBy (step (State.reset.withFetchWord 24 0x617EA8)) = some [0x61, 0x7E, 0xA8] := by
  decide +kernel

/-! ### The accumulator -/

/-- T2.2. -/
theorem test_crc_steps :
    crcUpdate 0xFFFF 0x61 = 0xA87E ∧ crcUpdate 0x0000 0x01 = 0xC0C1 ∧ crcUpdate 0x8000 0x00 = 0x0080 ∧
      crcUpdate 0x1234 0x56 = 0xE993 := by decide +kernel
/-- T2.3, the first two of its eight shifts. -/
theorem test_crc_shift : crcShift 0xFF9E = 0x7FCF ∧ crcShift 0x7FCF = 0x9FE6 := by decide
/-- T2.6 and T2.7. -/
theorem test_crc_sequences :
    crc16 [0x31, 0x32, 0x33, 0x34, 0x35, 0x36, 0x37, 0x38, 0x39] = 0x4B37 ∧ crc16 [0x00, 0x00, 0x00, 0x00] = 0x2400 ∧
      crc16 [] = 0xFFFF := by decide +kernel
/-- T2.15, row 0x98. -/
theorem test_crc_table : crcTable 0x9E = 0xA881 ∧ crcTable 0x9F = 0x6840 := by decide +kernel

/-! ### Bytes, one at a time -/

/-- T3.1. -/
theorem test_accept :
    frameRegs (rxByte 0x69 idleState) = some (.assembling, .identify, 2, 0, 0x6E7F) ∧
      frameRegs (rxByte 0x72 idleState) = some (.assembling, .read, 4, 0, 0x653F) := by decide +kernel
/-- T3.1. -/
theorem test_accept_page :
    frameRegs (rxByte 0x77 idleState) = some (.assembling, .write, 260, 0, 0x66FF) ∧
      frameRegs (rxByte 0x66 idleState) = some (.assembling, .fastDump, 4, 0, 0x6A3F) := by decide +kernel
/-- R71: the buffer is zero at once. -/
theorem test_accept_zeroes : bufAfter (rxByte 0x69 idleState) = some [] := rfl
/-- T3.3. -/
theorem test_append :
    midRead 2 = .next oneByteIn ∧ midRead 3 = .next twoBytesIn ∧ midRead 4 = .next threeBytesIn := by
  refine ⟨?_, ?_, ?_⟩ <;> rfl
/-- T3.10: `'w'` and `'f'` inside a frame are data. -/
theorem test_selector_inside_frame :
    frameRegs (takeBytes 3 (idleState.offer [0x72, 0x77, 0x66])) = some (.assembling, .read, 4, 2, 0x0176) := by
  decide +kernel
/-- T3.12, P7: what a stalled frame does to a fresh request. -/
theorem test_stall_eats_request :
    sentBy (takeBytes 7 (State.reset.offer [0x72, 0x00, 0x72, 0x00, 0x00, 0xD1, 0xDB])) = some [0x65, 0x51, 0xFE] := by
  decide +kernel

/-! ### The instructions -/

/-- T3.5: the ERR carries the CRC the host should have sent. -/
theorem test_identify_mismatch : sentBy (exec (.identify 0x0000) State.reset) = some [0x65, 0x7F, 0x6E] := by
  decide +kernel
/-- P1 up to the string, which is open: the environment ends the step after the third transmission of the last byte's
processing. -/
theorem test_identify_match :
    sentBy (exec (.identify 0x6E7F) (State.reset.setCuts [9, 9, 3])) = some [0x61, 0x7E, 0xA8] := by decide +kernel
/-- T3.8, P4. -/
theorem test_read_mismatch :
    sentBy (exec (.read 0x00 0x00 0x0000) State.reset) = some [0x65, 0xD1, 0xDB] ∧
      frameRegs (exec (.read 0x00 0x00 0x0000) State.reset) = some (.idle, .read, 4, 4, 0xDBD1) := by decide +kernel
/-- T3.8: the CRC bytes swapped. -/
theorem test_read_swapped_crc : sentBy (exec (.read 0x00 0x00 0xD1DB) State.reset) = some [0x65, 0xD1, 0xDB] := by
  decide +kernel
/-- T3.6. -/
theorem test_fastDump_wrong_selector_crc :
    sentBy (exec (.fastDump 0x00 0x00 0xDBD1) State.reset) = some [0x65, 0x91, 0xDF] := by decide +kernel
/-- S9: no state changes and nothing is sent. -/
theorem test_unrecognized : exec (.unrecognized 0x78) idleState = .next idleState := rfl
/-- R104, T2.5: the accumulator is left at the CRC of `"done"`. -/
theorem test_done :
    sentBy (exec .done idleState) = some [0x64, 0x6F, 0x6E, 0x65, 0xC3, 0x42] ∧
      frameRegs (exec .done idleState) = some (.idle, .write, 260, 260, 0x42C3) := by decide +kernel
/-- S2. -/
theorem test_err : sentBy (exec (.err 0xDBD1) idleState) = some [0x65, 0xD1, 0xDB] := by decide +kernel
/-- S1. -/
theorem test_ack : sentBy (exec .ack idleState) = some [0x61, 0x7E, 0xA8] := by decide +kernel
/-- P1's string and CRC (T2.5), by the operations every fixed response uses. -/
theorem test_literal_response :
    (runOps (literalOps [0x52, 0x45, 0x43, 0x43]) idleState).env.tx = [0x52, 0x45, 0x43, 0x43, 0x71, 0x88] := by
  decide +kernel
/-- R156, R296: the short window of a byte that completes no frame; a byte that waits there may be lost. -/
theorem test_short_window :
    portAfter (step ((idleState.offer [0x69, 0x7F]).setCuts [0])) = some (idleState.port, true) ∧
      (∃ t, step ((idleState.offer [0x69, 0x7F]).setCuts [0]) = .next t ∧ t.env.rx = [0x7F] ∧
        (t.lose 0).env.rx = [] ∧ frameRegs (step (t.lose 0)) = some (.assembling, .identify, 2, 0, 0x6E7F)) :=
  ⟨by decide +kernel, _, rfl, rfl, rfl, by decide +kernel⟩
/-- R170, R173: with the peripheral not ready the block holds, busy, and goes on when it is ready again. -/
theorem test_peripheral_not_ready :
    (∃ t, step (ackAhead.setTxReady false) = .next t ∧ t.busy = true ∧ t.txOffer = some 0x61 ∧ t.env.tx = []) ∧
      sentBy (step ((ackAhead.setTxReady false).setTxReady true)) ≠ some [] :=
  ⟨⟨_, rfl, rfl, rfl, rfl⟩, by decide +kernel⟩
/-- T2.10, T4.2. -/
theorem test_page_length : ((sentBy (exec (.page pageFF 0x30FF) idleState)).map List.length) = some 258 := by
  decide +kernel

/-! ### The sequencer -/

/-- T4.3: R6 to R10 at offset 1, the chip answering 0xC3. -/
theorem test_read_iteration :
    let t := runOps (readIter 0x01) { idleState with crc := 0xFFFF, env := { Env.start with chipIn := [0xC3] } }
    t.env.trace.map Event.op =
        [.setAddrLo 0x01, .setOE .active, .wait 1, .capture 0x01 0xC3, .setOE .inactive] ∧
      t.buf.get 1 = 0xC3 ∧ t.crc = crcUpdate 0xFFFF 0xC3 := by decide +kernel
/-- T4.4: W6 to W13 at offset 0; the data byte is `buf[2]`. -/
theorem test_write_iteration :
    let t := runOps (writeIter 0x00) idleState
    t.env.trace.map Event.op =
        [.setAddrLo 0x00, .setData 0xAA, .setCE .active, .wait 5, .setPGM .active, .wait 100, .setPGM .inactive, .wait 5] ∧
      t.port.dataOut = 0xAA := by decide +kernel
/-- T4.5: F1 to F5 and the latches after them. -/
theorem test_fastDump_preset :
    let t := runOps (fastDumpOps.take 10) { idleState with buf := [(0, 0x05)] }
    t.env.trace.map Event.op =
        [.setData 0x05, .setDataDir .output, .setAddrLo 0x05, .setLLE .active, .setLLE .inactive, .setAddrLo 0x05,
          .setHLE .active, .setHLE .inactive, .setDataDir .input] ∧
      t.env.xlatLo = 0x05 ∧ t.env.xlatHi = 0x05 := by decide +kernel
/-- R198. -/
theorem test_handler_steps :
    (readTrace 0x34 0x12 pageFF).length = 1285 ∧ (writeTrace 0x01 0x20 pageFF).length = 2055 ∧
      (fastDumpTrace 0x05 pageFF).length = 2313 := by decide +kernel

/-! ### The validator -/

/-- The first violation of a tight trace from the safe state (4.3 of the vectors: every free advance 0). -/
def tight (os : List MicroOp) : Option (Nat × List Cond) :=
  firstViolation (VState.start Port.reset) 1 (stamp (fun _ => 0) 0 0 os)

/-- M1: the access time is missing. -/
theorem test_m1 : tight [.setCE .active, .setOE .inactive, .setAddrLo 0, .setOE .active, .capture 0 0,
    .setOE .inactive, .setCE .inactive] = some (5, [.v4]) := by decide
/-- M2: the direction is still out. -/
theorem test_m2 : tight [.setData 5, .setDataDir .output, .setAddrLo 0, .setLLE .active, .setLLE .inactive,
    .setCE .active, .setOE .active] = some (7, [.v1]) := by decide
/-- M3: the set-up time is 4 microseconds. -/
theorem test_m3 : tight [.setDataDir .output, .setAddrLo 0, .setData 3, .setCE .active, .wait 4, .setPGM .active] =
    some (6, [.v6]) := by
  have h : ¬ 5 * (Config.ticksPerUsLessOne + 1) ≤ 4 * (Config.ticksPerUsLessOne + 1) := by omega
  simp [tight, firstViolation, broken, stamp, VState.start, Port.reset, VState.observe, lastChange, Port.changes,
    Port.apply, condV1, condV2, condV3, condV4, condV5, condV6, condV7, setUp, width, hold, accessTime, elapsed,
    Port.disturbs, Line.on, Line.off, MicroOp.leastTicks, Config.ticksPerUs, tOE, tSU, tPW, tHD, h]
/-- M4: the pulse is 99 microseconds wide. -/
theorem test_m4 : tight [.setDataDir .output, .setAddrLo 0, .setData 3, .setCE .active, .wait 5, .setPGM .active,
    .wait 99, .setPGM .inactive] = some (8, [.v6]) := by
  have h : ¬ 5 * (Config.ticksPerUsLessOne + 1) + 100 * (Config.ticksPerUsLessOne + 1) ≤
      5 * (Config.ticksPerUsLessOne + 1) + 99 * (Config.ticksPerUsLessOne + 1) := by omega
  simp [tight, firstViolation, broken, stamp, VState.start, Port.reset, VState.observe, lastChange, Port.changes,
    Port.apply, condV1, condV2, condV3, condV4, condV5, condV6, condV7, setUp, width, hold, accessTime, elapsed,
    Port.disturbs, Line.on, Line.off, MicroOp.leastTicks, Config.ticksPerUs, tOE, tSU, tPW, tHD, h]
/-- M5: the address changes before the hold time is over. -/
theorem test_m5 : tight [.setDataDir .output, .setAddrLo 0, .setData 3, .setCE .active, .wait 5, .setPGM .active,
    .wait 100, .setPGM .inactive, .setAddrLo 1] = some (9, [.v6]) := by
  simp [tight, firstViolation, broken, stamp, VState.start, Port.reset, VState.observe, lastChange, Port.changes,
    Port.apply, condV1, condV2, condV3, condV4, condV5, condV6, condV7, setUp, width, hold, accessTime, elapsed,
    Port.disturbs, Line.on, Line.off, MicroOp.leastTicks, Config.ticksPerUs, tOE, tSU, tPW, tHD]
/-- M8: the pulse comes before chip-enable. -/
theorem test_m8 : tight [.setDataDir .output, .setAddrLo 0, .setData 3, .wait 5, .setPGM .active] =
    some (5, [.v2]) := by
  simp [tight, firstViolation, broken, stamp, VState.start, Port.reset, VState.observe, lastChange, Port.changes,
    Port.apply, condV1, condV2, condV3, condV4, condV5, condV6, condV7, setUp, width, hold, accessTime, elapsed,
    Port.disturbs, Line.on, Line.off, MicroOp.leastTicks, Config.ticksPerUs, tOE, tSU, tPW, tHD]
/-- M6: release in the wrong order. -/
theorem test_m6 : tight [.setCE .active, .setAddrLo 0, .setOE .active, .wait 1, .setCE .inactive] = some (5, [.v3]) := by
  decide
/-- M7: the address changes under output-enable. -/
theorem test_m7 : tight [.setCE .active, .setOE .active, .setAddrLo 7] = some (3, [.v5]) := by decide
/-- M9 and M10: strobes. -/
theorem test_m9_m10 :
    tight [.setCE .active, .setAddrLo 9, .setLLE .active] = some (3, [.v7]) ∧
      tight [.setAddrLo 1, .setLLE .active, .setHLE .active] = some (3, [.v7]) := by decide
/-- M11: chip-enable is left active. -/
theorem test_m11 : tight [.setCE .active, .setOE .inactive, .setAddrLo 0] = some (4, [.v8]) := by decide
/-- M12: the direction turns under output-enable. -/
theorem test_m12 : tight [.setCE .active, .setOE .active, .setDataDir .output] = some (3, [.v1, .v5]) := by decide

/-! ### What reset leaves -/

theorem test_reset_memory : State.reset.buf.wf := by decide
/-- R21, R22, D16. -/
theorem test_codes :
    State.reset.fstate.code = 0 ∧ FState.assembling.code = 1 ∧ cmdCode .identify = 0 ∧ cmdCode .fastDump = 3 := by decide

/-! ### Witnesses: the hypotheses of each statement are met by a state that is written out

The names say which statement each belongs to. -/

theorem witness_ready : Ready idleState := ⟨rfl, rfl, ⟨rfl, rfl⟩⟩

theorem witness_inv : Inv idleState :=
  ⟨by decide, rfl, nofun, nofun, fun _ => ⟨by decide, rfl⟩, nofun⟩

theorem inv_of_bytes {n : Nat} {bs : List Byte} {t : State} (h : takeBytes n (idleState.offer bs) = .next t) : Inv t := by
  obtain ⟨t', h', hi⟩ := takeBytes_inv n (inv_setRx witness_inv bs)
  have : (idleState.offer bs) = idleState.setRx bs := rfl
  rw [this, h'] at h
  exact Host.Outcome.next.inj h ▸ hi

/-- IdentifyAnswersTheString, ReadAnswersThePage, FastDumpAnswersThePage: a Ready block; WriteProgramsAndAnswersDone:
and one page of data. -/
theorem witness_requests : Ready idleState ∧ pageFF.length = 256 := ⟨witness_ready, rfl⟩

/-- MismatchAnswersErr, one witness a clause. -/
theorem witness_mismatch :
    Ready idleState ∧ (0x0000 : Word) ≠ crc16 (Cmd.identify.selector :: []) ∧
      (0xB001 : Word) ≠ crc16 (Cmd.read.selector :: [0x00, 0x00]) ∧
      (pageFF.length = 256 ∧ (0x1217 : Word) ≠ crc16 (Cmd.write.selector :: 0x01 :: 0x00 :: pageFF)) ∧
      (0xDBD1 : Word) ≠ crc16 (Cmd.fastDump.selector :: [0x00, 0x00]) :=
  ⟨witness_ready, by decide +kernel, by decide +kernel, ⟨rfl, by decide +kernel⟩, by decide +kernel⟩

/-- UnrecognizedSelectorChangesNothing. -/
theorem witness_unrecognized :
    (Instr.unrecognized 0x78).WellFormed ∧ idleState.fstate = .idle ∧ idleState.busy = false := by decide

/-- AckSendsThreeConstants, ErrSendsItsOperand, IdentSendsTheStringAndItsCrc, PageSendsItsOperands,
DoneSendsTheLiteral: both clauses. -/
theorem witness_responses : idleState.env.Prompt ∧ idleState.seq = Seq.none ∧ ackAhead.env.Prompt :=
  ⟨⟨rfl, rfl⟩, rfl, ⟨rfl, rfl⟩⟩

/-- StepRunsTheDecodedInstruction, first clause. -/
theorem witness_step_request :
    (idleState.offer [0x69, 0x7F, 0x6E, 0x78]).env.rst = false ∧ (idleState.offer [0x69, 0x7F, 0x6E, 0x78]).busy = false ∧
      (idleState.offer [0x69, 0x7F, 0x6E, 0x78]).fstate = .idle ∧
      decodeRequest (idleState.offer [0x69, 0x7F, 0x6E, 0x78]).env.rx = .ok (.identify 0x6E7F, [0x78]) :=
  ⟨rfl, rfl, rfl, rfl⟩

/-- StepRunsTheDecodedInstruction, second clause; StepFinishesTheProcessing. -/
theorem witness_step_response :
    ackAhead.env.rst = false ∧ ackAhead.busy = true ∧ ackAhead.env.Prompt ∧ ackAhead.seq.curr = [] ∧
      ackAhead.seq.phases = .ack :: handlerPhases .read ∧ Phase.ack.instr ackAhead = some .ack :=
  ⟨rfl, rfl, ⟨rfl, rfl⟩, rfl, rfl, rfl⟩

/-- StepStoresAndFoldsAFrameByte at the last folded offset, 1, and at the first one that is not, 2. -/
theorem witness_frame_byte :
    (Inv oneByteIn ∧ oneByteIn.env.rx = 0x12 :: [0x47, 0x16] ∧ oneByteIn.receivedLen.toNat + 1 ≠ oneByteIn.expectedLen.toNat ∧
      oneByteIn.receivedLen.toNat + 1 = oneByteIn.expectedLen.toNat - 2) ∧
    (Inv twoBytesIn ∧ twoBytesIn.env.rx = 0x47 :: [0x16] ∧
      twoBytesIn.receivedLen.toNat + 1 ≠ twoBytesIn.expectedLen.toNat ∧
      twoBytesIn.receivedLen.toNat = twoBytesIn.expectedLen.toNat - 2) ∧
    oneByteIn.env.rst = false ∧ oneByteIn.busy = false ∧ oneByteIn.fstate = .assembling ∧
    twoBytesIn.env.rst = false ∧ twoBytesIn.busy = false ∧ twoBytesIn.fstate = .assembling :=
  ⟨⟨inv_of_bytes (n := 2) test_append.1, rfl, by decide, by decide⟩,
    ⟨inv_of_bytes (n := 3) test_append.2.1, rfl, by decide, by decide⟩, rfl, rfl, rfl, rfl, rfl, rfl⟩

/-- CompletedFrameMeetsTheGate, with a received CRC that matches, and one that does not. -/
theorem witness_gate :
    Inv threeBytesIn ∧ threeBytesIn.env.rst = false ∧ threeBytesIn.env.Prompt ∧ threeBytesIn.busy = false ∧
      threeBytesIn.fstate = .assembling ∧ threeBytesIn.env.rx = 0x16 :: [] ∧
      threeBytesIn.receivedLen.toNat + 1 = threeBytesIn.expectedLen.toNat ∧
      ofLoHi (threeBytesIn.buf.get (threeBytesIn.expectedLen.toNat - 2)) 0x16 = crc16 threeBytesIn.foldedBytes ∧
      ofLoHi (threeBytesIn.buf.get (threeBytesIn.expectedLen.toNat - 2)) 0x17 ≠ crc16 threeBytesIn.foldedBytes :=
  ⟨inv_of_bytes (n := 4) test_append.2.2, rfl, ⟨rfl, rfl⟩, rfl, rfl, rfl, by decide, by decide +kernel, by decide +kernel⟩

/-- NothingHappensWithoutAByte, in Idle and in a stalled frame. -/
theorem witness_nothing :
    idleState.env.rst = false ∧ idleState.busy = false ∧ idleState.env.rx = [] ∧
      writeBegun.env.rst = false ∧ writeBegun.busy = false ∧ writeBegun.env.rx = [] ∧ writeBegun.fstate = .assembling :=
  ⟨rfl, rfl, rfl, rfl, rfl, rfl, rfl⟩

/-- ResetPutsTheBlockInIdle, in the middle of a processing. -/
theorem witness_reset : ackAhead.raiseReset.env.rst = true ∧ ackAhead.raiseReset.busy = true := ⟨rfl, rfl⟩

/-- BusyBlockAcceptsNothing. -/
theorem witness_busy : ackAhead.busy = true ∧ (Instr.identify 0x6E7F).position = .request ∧ ackAhead.env.rst = false :=
  ⟨rfl, rfl, rfl⟩

/-- SelectorsInsideAFrameAreData, ZeroBytesEndAStall. -/
theorem witness_inside :
    Inv writeBegun ∧ writeBegun.busy = false ∧ writeBegun.fstate = .assembling ∧
      (Instr.read 0x00 0x00 0xDBD1).position = .request ∧
      writeBegun.receivedLen.toNat + (encode (.read 0x00 0x00 0xDBD1)).length < writeBegun.expectedLen.toNat ∧
      writeBegun.env.rst = false ∧ writeBegun.env.rx = [] ∧ writeBegun.env.cuts = [] ∧ writeBegun.env.Prompt :=
  ⟨inv_of_bytes (n := 1) (bs := [0x77]) rfl, rfl, rfl, rfl, by decide, rfl, rfl, rfl, ⟨rfl, rfl⟩⟩

/-- SelectorStartsAFrame. -/
theorem witness_selector : idleState.fstate = .idle ∧ idleState.busy = false := ⟨rfl, rfl⟩

/-- DecodeOfEncodeIsTheInstruction, EncodeOfDecodeIsTheBytes, a position each. -/
theorem witness_encoding :
    (Instr.write 0x01 0x00 pageFF 0x1216).WellFormed ∧
      decodeAt .request [0x72, 0x34, 0x12, 0x47, 0x16] = .ok (.read 0x34 0x12 0x1647, []) ∧
      decodeAt .verdict [0x65, 0x91, 0xDF] = .ok (.err 0xDF91, []) ∧
      decodeAt .afterRead (pageFF ++ [0xFF, 0x30]) = .ok (.page pageFF 0x30FF, []) ∧
      decodeAt .afterWrite [0x64, 0x6F, 0x6E, 0x65, 0xC3, 0x42] = .ok (.done, []) :=
  ⟨test_wf_write_of_a_page, rfl, rfl, rfl, test_decode_done⟩

/-- RequestLengthComesFromTheSelector: no selector; a selector with the last byte missing, and with none. -/
theorem witness_request_length :
    selectorOf 0x78 = none ∧ selectorOf 0x72 = some .read ∧ [0x34, 0x12, 0x47].length < Cmd.read.len.toNat ∧
      Cmd.read.len.toNat ≤ [0x34, 0x12, 0x47, 0x16].length := by decide

/-- StepKeepsInv, InvStatesNeverStop, EnvironmentKeepsInv, ByteByByteArrivalEqualsTheWholeFrame. -/
theorem witness_invariant :
    Inv idleState ∧ step idleState = .next idleState ∧ Ready idleState ∧ idleState.env.rst = false ∧
      idleState.env.rx = [] ∧ (Instr.read 0x34 0x12 0x1647).WellFormed ∧ (Instr.read 0x34 0x12 0x1647).position = .request :=
  ⟨witness_inv, rfl, witness_ready, rfl, rfl, rfl, rfl⟩

/-- StepKeepsInv, a step that does something: the second byte of T3.3 is accepted. -/
theorem witness_step_keeps : Inv oneByteIn ∧ step oneByteIn = .next twoBytesIn :=
  ⟨inv_of_bytes (n := 2) test_append.1, rfl⟩

/-- CountOutsideTheBufferFaults: a state no run reaches, at the boundary. -/
theorem witness_count_outside :
    let s : State := { writeBegun with receivedLen := 260, env := { Env.start with rx := [0x00] } }
    s.env.rst = false ∧ s.busy = false ∧ s.fstate = .assembling ∧ s.env.rx ≠ [] ∧ 260 ≤ s.receivedLen.toNat := by
  decide

/-- CrcSeesEverySingleByteChange. -/
theorem witness_bytes_differ : (0x00 : Byte) ≠ 0x80 := by decide

/-- CaptureStoresTheBusByte, StreamPageSendsTheCapturedPage. -/
theorem witness_buffer : idleState.buf.wf := by decide

/-- TransmitStreamAndTraceOnlyGrow, AckPrecedesTheFirstChipOperation: the first clause. -/
theorem witness_runs :
    step oneByteIn = .next twoBytesIn ∧ idleState.fstate = .idle ∧ idleState.busy = false ∧
      (Instr.unrecognized 0x78).WellFormed ∧ (Instr.unrecognized 0x78).position = .request ∧
      exec (.unrecognized 0x78) idleState = .next idleState := ⟨rfl, rfl, rfl, by decide, rfl, rfl⟩

/-- HandlerLengthsAndLeastDurations, HandlerTracesAreValid: a page, and a port state settled at time 0. -/
theorem witness_settled : pageFF.length = 256 ∧ (VState.start Port.reset).settled 0 :=
  ⟨rfl, by decide, rfl, rfl, rfl, rfl, rfl, rfl, rfl, rfl, rfl⟩

/-- StalledTransmitterHoldsEverything: a peripheral that is not ready, and a pause. -/
theorem witness_stall :
    ((ackAhead.setTxReady false).env.rst = false ∧ (ackAhead.setTxReady false).txOffer = some 0x61 ∧
      (ackAhead.setTxReady false).env.txReady = false) ∧
    (ackAhead.setCuts [0, 3]).env.rst = false ∧ (ackAhead.setCuts [0, 3]).txOffer = some 0x61 ∧
      (ackAhead.setCuts [0, 3]).env.cuts.head? = some 0 := ⟨⟨rfl, rfl, rfl⟩, rfl, rfl, rfl⟩

/-- FairPeripheralEndsTheProcessing: a peripheral that is ready at every other step, a pause on the way; and one that is
never ready. -/
theorem witness_fair :
    TxFair (fun i => i % 2 == 1) ∧ (ackAhead.setCuts [0, 3]).busy = true ∧ (ackAhead.setCuts [0, 3]).env.rst = false ∧
      ackAhead.txOffer = some 0x61 := by
  refine ⟨fun n => ⟨2 * n + 1, by omega, ?_⟩, rfl, rfl, rfl⟩
  simp [Nat.add_mod, Nat.mul_mod]

/-- BytesInTheShortWindowAreKeptOrLost: after a selector, after a byte that selects nothing, and inside a frame. -/
theorem witness_window :
    (∀ b : Byte,
      let s := (idleState.offer [b, 0x7F]).setCuts [0]
      Inv s ∧ s.env.rst = false ∧ s.busy = false ∧ s.env.rx = b :: [0x7F] ∧ s.env.cuts = 0 :: [] ∧ s.fstate = .idle) ∧
    (let s := oneByteIn.setCuts [0, 5]
     Inv s ∧ s.env.rst = false ∧ s.busy = false ∧ s.env.rx = 0x12 :: [0x47, 0x16] ∧ s.env.cuts = 0 :: [5] ∧
        s.receivedLen.toNat + 1 ≠ s.expectedLen.toNat) :=
  ⟨fun _ => ⟨inv_env witness_inv _, rfl, rfl, rfl, rfl, rfl⟩, inv_env (inv_of_bytes (n := 2) test_append.1) _, rfl, rfl,
    rfl, rfl, by decide⟩

/-- PausingDoesNotChangeTheResult, both clauses: an ACK paused after its first byte, a request paused in the short
window of its selector, and a processing gone on with. -/
theorem witness_pause :
    (Inv (idleState.setCuts [9, 9, 9, 9, 1]) ∧ (idleState.setCuts [0]).env.txReady = true) ∧
      (∃ t, exec (.read 0x34 0x12 0x1647) (idleState.setCuts [9, 9, 9, 9, 1]) = .next t ∧ t.busy = true ∧ t.env.rx = []) ∧
      (∃ t, exec (.read 0x34 0x12 0x1647) (idleState.setCuts [0]) = .next t ∧ t.busy = true ∧
        t.env.rx = [0x34, 0x12, 0x47, 0x16]) ∧
      (Instr.read 0x34 0x12 0x1647).position = .request ∧
      (∃ t, step (ackAhead.setCuts [1]) = .next t ∧ t.busy = true) ∧
      (∃ t, step (ackAhead.setCuts []) = .next t ∧ t.busy = false) :=
  ⟨⟨inv_env witness_inv _, rfl⟩, ⟨_, rfl, by decide +kernel, by decide +kernel⟩, ⟨_, rfl, rfl, rfl⟩, rfl, ⟨_, rfl, rfl⟩,
    ⟨_, rfl, rfl⟩⟩

/-- StepKeepsTheTraceValid. -/
theorem witness_trace :
    Inv oneByteIn ∧ TraceInv (VState.start Port.reset) { idleState with port := Port.reset } ∧
      TraceInv (VState.start idleState.port) oneByteIn ∧ oneByteIn.env.rst = false ∧
      step oneByteIn = .next twoBytesIn :=
  ⟨inv_of_bytes (n := 2) test_append.1,
    ⟨rfl, rfl, by decide, rfl, rfl, rfl, rfl, rfl, rfl, rfl, rfl, rfl⟩,
    ⟨rfl, rfl, by decide, rfl, rfl, rfl, rfl, rfl, rfl, rfl, rfl, rfl⟩, rfl, rfl⟩

/-- ValidTracesNeverContend, TableRowsMeetTheConditions: a step that turns chip-enable on. -/
theorem witness_valid_step :
    let v := VState.start Port.reset
    v.port.safe ∧ traceOk v [{ time := 7, op := .setCE .active }] = true ∧
      ¬ (v.port.oe = .active ∧ v.port.pgm = .active) ∧ tableOk v { time := 7, op := .setCE .active } = true := by decide

/-- IdealChipAnswersThePage, IdealChipIsProgrammedWithThePage, WriteThenReadReturnsThePage. -/
theorem witness_chip :
    (idleState.chip fun _ => 0xFF).port.safe ∧ pageFF.length = 256 ∧ (0x10 : Byte) ≠ 0x11 ∧ Ready idleState ∧
      Inv idleState := ⟨by decide, rfl, by decide, witness_ready, witness_inv⟩

/-- A page of zeros, to be programmed into a chip that holds 0xFF everywhere (S7), and read back from it. -/
def pageZero : List Byte := List.replicate 256 0x00

/-- A block whose chip will answer the next captures with that page. -/
def chipLoaded : State := idleState.loadChip pageZero

/-- What the Write of a page leaves behind, as far as the Read after it depends on it (R194). -/
theorem written_page (s : State) (lo hi : Byte) (data : List Byte) (h : Ready s) (hd : data.length = 256) :
    ∃ t, exec (.write lo hi data (crc16 (selW :: lo :: hi :: data))) s = .next t ∧
      t.env.trace = s.env.trace ++ stamp Config.freeAdvance s.env.draws s.env.now (writeTrace lo hi data) ∧
      t.env.chipIn = s.env.chipIn ∧ t.port.pgm = .inactive ∧ t.port.dataDir = .input := by
  have hl : (lo :: hi :: data).length + 2 = Cmd.write.len.toNat := by simp [hd, Cmd.len, lenW]
  have hf := receiveFrame_frame .write (lo :: hi :: data) (crc16 (selW :: lo :: hi :: data)) s h.idle h.notBusy
    h.prompt.uncut hl
  rw [if_pos (show crc16 (selW :: lo :: hi :: data) = crc16 (Cmd.write.selector :: lo :: hi :: data) from rfl), startPhases,
    resume_uncut _ (by exact ⟨h.prompt.uncut, h.prompt.ready⟩)] at hf
  refine ⟨_, hf, ?_⟩
  obtain ⟨-, hg⟩ := assembled_buf .write (lo :: hi :: data) (crc16 (selW :: lo :: hi :: data)) hl
  have h0 := hg 0
  have h1 := hg 1
  have hda := dataAt_assembled (data := data) hd hg
  simp only [List.cons_append] at hda
  simp only [List.cons_append, List.getD_cons_zero, List.getD_cons_succ] at h0 h1
  simp only [Seq.ops, matchPhases, handlerPhases, List.flatMap_cons, List.flatMap_nil, Phase.ops, List.nil_append,
    List.append_nil, List.cons_append, runOps_append, runOps_ackOps, bodyOps, runOps_writeOps, doneOps, runOps_literalOps,
    State.enter, State.assembled, finish, hda, h0, h1]
  simp [Env.sent, Env.played]

/-- WriteThenReadReturnsThePage, the inner hypothesis too: the captures of the Read get what the chip holds after the
program pulses. -/
theorem witness_round_trip :
    Ready chipLoaded ∧ Inv chipLoaded ∧ pageZero.length = 256 ∧
      ∃ (t : State) (es : List Event),
        exec (.write 0x01 0x10 pageZero (crc16 (selW :: 0x01 :: 0x10 :: pageZero))) chipLoaded = .next t ∧
        t.env.trace = chipLoaded.env.trace ++ es ∧
        Chip.Answers .direct (t.chip ((chipLoaded.chip fun _ => 0xFF).after .direct (es.map Event.op)).mem)
          (readTrace 0x02 0x10 (t.env.answers 256)) := by
  have hr : Ready chipLoaded := ⟨rfl, rfl, ⟨rfl, rfl⟩⟩
  obtain ⟨t, h, htr, hc, h2, h3⟩ := written_page chipLoaded 0x01 0x10 pageZero hr rfl
  refine ⟨hr, inv_env witness_inv _, rfl, t, _, h, htr, ?_⟩
  have hp : t.env.answers 256 = pageZero := by
    refine List.ext_getElem (by simp [pageZero]) fun i h1 _ => ?_
    have hi : i < 256 := by simpa using h1
    simp [Env.answers, Env.answer, hc, chipLoaded, State.loadChip, pageZero, hi]
  rw [hp, stamp_ops, Chip.mem_writeTrace _ _ _ rfl]
  have hz : ∀ x ∈ offsets.zip pageZero, x.2 = 0x00 := fun x hx => List.eq_of_mem_replicate (List.of_mem_zip hx).2
  refine Chip.answers_readTrace _ _ _ h2 h3 fun x hx => ?_
  rw [hz x hx]
  exact (programAll_const _ hz _ _ (.inr ⟨x, hx, rfl⟩)).symm

/-- IgnoredOperandsHaveNoEffect, BufferReadsBackWhatWasWritten (at the last address), PinsFollowTheRegisters. -/
theorem witness_rest :
    Ready idleState ∧ pageFF.length = 256 ∧ idleState.buf.wf ∧ 259 < 260 ∧ idleState.port.addrExt = 0 :=
  ⟨witness_ready, rfl, by decide, by decide, rfl⟩

end Sys2Proof.Tests
end

/-! PROOFS. The statements of 00_scope.md: what a step runs, that the two streams and the time only grow, the wait, and
the pins. -/

namespace Sys2Proof.Machine

/-! ### The two streams and the time only grow (R6, R8, R171, R180) -/

/-- From `e` to `e'` the transmit stream and the chip-port trace were only added to, and the times of the added events
rise from the time of `e` to the time of `e'`. -/
def Env.GrowsTo (e e' : Env) : Prop :=
  ∃ (bs : List Byte) (es : List Event), e'.tx = e.tx ++ bs ∧ e'.trace = e.trace ++ es ∧
    (es.map Event.time).Pairwise (· ≤ ·) ∧ (∀ x ∈ es, e.now ≤ x.time ∧ x.time ≤ e'.now) ∧ e.now ≤ e'.now

/-- Nothing was sent and no chip-port operation happened. -/
theorem Env.GrowsTo.of_eq {e e' : Env} (htx : e'.tx = e.tx) (htrace : e'.trace = e.trace) (hnow : e'.now = e.now) :
    e.GrowsTo e' :=
  ⟨[], [], by simp [htx], by simp [htrace], .nil, nofun, hnow.ge⟩

theorem Env.GrowsTo.refl (e : Env) : e.GrowsTo e := .of_eq rfl rfl rfl

/-- The events added first lie before the time in between, those added later after it. -/
theorem Env.GrowsTo.trans {e e' e'' : Env} (h : e.GrowsTo e') (h' : e'.GrowsTo e'') : e.GrowsTo e'' := by
  obtain ⟨bs, es, htx, htrace, hsorted, htimes, hnow⟩ := h
  obtain ⟨bs', es', htx', htrace', hsorted', htimes', hnow'⟩ := h'
  refine ⟨bs ++ bs', es ++ es', by rw [htx', htx, List.append_assoc], by rw [htrace', htrace, List.append_assoc], ?_,
    fun x hx => ?_, hnow.trans hnow'⟩
  · rw [List.map_append, List.pairwise_append]
    refine ⟨hsorted, hsorted', ?_⟩
    simp only [List.forall_mem_map]
    exact fun x hx y hy => (htimes x hx).2.trans (htimes' y hy).1
  · rcases List.mem_append.mp hx with hx | hx
    · exact ⟨(htimes x hx).1, (htimes x hx).2.trans hnow'⟩
    · exact ⟨hnow.trans (htimes' x hx).1, (htimes' x hx).2⟩

/-- A micro-operation adds one event, at the time it leaves behind (R180). -/
theorem Env.growsTo_after (e : Env) (p : Port) (o : MicroOp) : e.GrowsTo (e.after p o) := by
  have hnow : e.now ≤ (e.after p o).now := by
    rw [Env.after_now]
    omega
  exact ⟨[], [{ time := (e.after p o).now, op := o }], by simp, rfl, by simp, by simpa using hnow, hnow⟩

/-- Transmissions add their bytes and nothing else (R171). -/
theorem Env.growsTo_sent (e : Env) (bs : List Byte) : e.GrowsTo (e.sent bs) :=
  ⟨bs, [], rfl, by simp [Env.sent], .nil, nofun, le_rfl⟩

theorem doOp_growsTo (o : SeqOp) (s : State) : s.env.GrowsTo (doOp o s).env := by
  cases o
  case crcSeed => exact .refl _
  case crcUpdate v => exact .refl _
  case tx v => exact s.env.growsTo_sent _
  all_goals exact s.env.growsTo_after s.port _

theorem runOps_growsTo (os : List SeqOp) (s : State) : s.env.GrowsTo (runOps os s).env := by
  induction os generalizing s with
  | nil => exact .refl _
  | cons o os ih => exact (doOp_growsTo o s).trans (ih _)

/-- However far a resumption runs, it only runs operations. -/
theorem resume_growsTo (s : State) : s.env.GrowsTo (resume s).env := by
  have hcut : s.env.GrowsTo (s.setCuts s.env.cuts.tail).env := .of_eq rfl rfl rfl
  rcases resume_cases s with h | ⟨n, -, -, h⟩ <;> rw [h] <;> exact hcut.trans (runOps_growsTo _ _)

theorem settle_growsTo (s : State) : s.env.GrowsTo (settle s).env := by
  rw [settle_env]
  exact .of_eq rfl rfl rfl

theorem gate_growsTo {s t : State} (h : gate s = .next t) : s.env.GrowsTo t.env := by
  rcases gate_cases s with ⟨v, -, hg⟩ | ⟨-, hg⟩
  · rw [hg] at h
    cases h
    exact resume_growsTo (s.enter _)
  · rw [hg] at h
    cases h

theorem completion_growsTo {s t : State} (h : completion s = .next t) : s.env.GrowsTo t.env := by
  unfold completion at h
  split at h
  · exact gate_growsTo h
  · cases h
    exact settle_growsTo s

/-- Append and fold touch nothing outside the block (R147, R148). -/
theorem append_env {b : Byte} {s t : State} (h : append b s = .next t) : t.env = s.env := by
  rcases append_cases b s with ⟨m, -, ha⟩ | ha
  · rw [ha] at h
    cases h
    rfl
  · rw [ha] at h
    cases h

theorem rxByte_growsTo {b : Byte} {s t : State} (h : rxByte b s = .next t) : s.env.GrowsTo t.env := by
  cases hf : s.fstate with
  | idle =>
    cases hs : selectorOf b with
    | some c =>
      rw [rxByte_selector hf hs] at h
      cases h
      exact settle_growsTo { accept b c s with busy := true }
    | none =>
      rw [rxByte_unrecognized hf hs] at h
      cases h
      exact settle_growsTo { s with busy := true }
  | assembling =>
    rw [rxByte_assembling hf] at h
    obtain ⟨u, happ, hcomp⟩ := andThen_eq_next h
    have henv : u.env = s.env := append_env (s := { s with busy := true }) happ
    rw [← henv]
    exact completion_growsTo hcomp

theorem takeBytes_growsTo {n : Nat} {s t : State} (h : takeBytes n s = .next t) : s.env.GrowsTo t.env := by
  induction n generalizing s with
  | zero =>
    cases h
    exact .refl _
  | succ n ih =>
    cases hb : s.busy with
    | true =>
      rw [takeBytes_busy _ hb] at h
      cases h
      exact .refl _
    | false =>
      cases hrx : s.env.rx with
      | nil =>
        rw [takeBytes_nil _ hrx] at h
        cases h
        exact .refl _
      | cons b rest =>
        rw [takeBytes_cons n hb hrx] at h
        obtain ⟨u, hbyte, hrest⟩ := andThen_eq_next h
        have hoff : s.env.GrowsTo (s.setRx rest).env := .of_eq rfl rfl rfl
        exact (hoff.trans (rxByte_growsTo hbyte)).trans (ih hrest)

/-- A raised reset is what a step does first (R290). -/
theorem step_reset {s : State} (hr : s.env.rst = true) : step s = .next s.applyReset := by
  simp [step, fetch, advance, hr]

/-- The three kinds of step: a reset, the processing in progress, the arrival of offered bytes. -/
theorem step_growsTo {s t : State} (h : step s = .next t) : s.env.GrowsTo t.env := by
  cases hr : s.env.rst with
  | true =>
    rw [step_reset hr] at h
    cases h
    exact .of_eq rfl rfl rfl
  | false =>
    cases hb : s.busy with
    | true =>
      obtain ⟨q, hstep, -⟩ := step_busy hr hb
      rw [hstep] at h
      cases h
      exact resume_growsTo (s.setSeq q)
    | false =>
      obtain ⟨k, -, hstep⟩ := step_ready hr hb
      exact takeBytes_growsTo (hstep ▸ h)

/-- Settles O42: every operation only adds to the streams, and a step is a list of operations and updates that touch
neither. -/
theorem transmitStreamAndTraceOnlyGrow : Obligations.TransmitStreamAndTraceOnlyGrow := by
  unfold Obligations.TransmitStreamAndTraceOnlyGrow
  exact fun _ _ => step_growsTo

/-! ### What a step fetches (R5, R91) -/

theorem step_of_fetch {s t : State} {i : Instr} (h : fetch s = some (i, t)) : step s = exec i t := by
  simp [step, h]

/-- In Idle with no byte in process the request at the front of the offered bytes is fetched (R91). -/
theorem fetch_request {s : State} {i : Instr} {rest : List Byte} (hr : s.env.rst = false) (hb : s.busy = false)
    (hf : s.fstate = .idle) (hd : decodeRequest s.env.rx = .ok (i, rest)) : fetch s = some (i, s.setRx rest) := by
  simp [fetch, hr, hb, hf, hd]

/-- With a byte in process the response the thread of control stands at the beginning of is fetched (R33; log 9). -/
theorem fetch_response {s : State} {p : Phase} {ps : List Phase} {i : Instr} (hr : s.env.rst = false)
    (hb : s.busy = true) (hc : s.seq.curr = []) (hps : s.seq.phases = p :: ps) (hi : p.instr s = some i) :
    fetch s = some (i, s.setSeq { s.seq with phases := ps }) := by
  simp [fetch, hr, hb, hc, hps, hi]

/-- Settles O12: a step runs what it fetches, a request in Idle and a response with a byte in process. -/
theorem stepRunsTheDecodedInstruction : Obligations.StepRunsTheDecodedInstruction := by
  unfold Obligations.StepRunsTheDecodedInstruction
  intro s hr
  constructor
  · intro i rest hb hf hd
    exact step_of_fetch (fetch_request hr hb hf hd)
  · intro p ps i hb hc hps hi
    exact step_of_fetch (fetch_response hr hb hc hps hi)

/-! ### The wait (R186, R304) -/

/-- The time a wait of `n` microseconds leaves behind: a free advance and at least the wait. -/
theorem Env.after_wait_now (p : Port) (n : Nat) (e : Env) :
    (e.after p (.wait n)).now = e.now + Config.freeAdvance e.draws + n * Config.ticksPerUs := rfl

/-- Settles O38: a wait is a micro-operation that moves no line and no latch, and its least time is the wait. -/
theorem waitOnlyLetsTimePass : Obligations.WaitOnlyLetsTimePass := by
  unfold Obligations.WaitOnlyLetsTimePass
  intro s n
  refine ⟨(s.env.after s.port (.wait n)).now, ?_, rfl⟩
  rw [Env.after_wait_now]
  omega

/-! ### Pins (R9, R29, R30, R40, R42) -/

/-- A pin is at the level that means active exactly when its line is active, whatever that level is (R9). -/
theorem pinLevel_eq_level_iff (level : Bool) (l : Line) : pinLevel level l = level ↔ l = .active := by
  cases l with
  | inactive => simp [pinLevel]
  | active => simp [pinLevel]

/-- The bus is driven with `data_out` and only while the direction is out (R30). -/
theorem State.drivenData_eq_some_iff (s : State) (d : Byte) :
    s.drivenData = some d ↔ s.port.dataDir = .output ∧ d = s.port.dataOut := by
  cases h : s.port.dataDir with
  | input => simp [State.drivenData, h]
  | output => simp [State.drivenData, h, eq_comm]

theorem State.rxReady_iff (s : State) : s.rxReady = true ↔ s.busy = false := by
  simp [State.rxReady]

/-- The extension lines that exist are at 0 when the register is (R29). -/
theorem State.pinsAExt_eq_false {s : State} (h : s.port.addrExt = 0) {x : Bool} (hx : x ∈ s.pinsAExt) : x = false := by
  obtain ⟨i, -, rfl⟩ := List.mem_map.mp hx
  simp [h]

/-- Settles O57: each signal of the port reads one register. -/
theorem pinsFollowTheRegisters : Obligations.PinsFollowTheRegisters := by
  unfold Obligations.PinsFollowTheRegisters
  intro s
  exact ⟨pinLevel_eq_level_iff _ _, pinLevel_eq_level_iff _ _, pinLevel_eq_level_iff _ _, pinLevel_eq_level_iff _ _,
    pinLevel_eq_level_iff _ _, s.drivenData_eq_some_iff, s.rxReady_iff, fun h _ => State.pinsAExt_eq_false h⟩

end Sys2Proof.Machine

/-! PROOFS. The statements of 10_state.md: reset, the invariant, the frame buffer, the micro-operations, and what the
pauses of the environment and the readiness of the transmit peripheral can do. -/

namespace Sys2Proof.Machine

/-! ### Reset and the invariant (R27, R39, R191, R260, R290) -/

/-- Right after reset nothing is assembled, nothing is in process and the chip port is in the safe state. -/
theorem inv_reset : Inv State.reset where
  bufWf := Memory.wf_nil
  extZero := rfl
  frame := nofun
  window := nofun
  idleSafe := fun _ => ⟨by decide, rfl⟩
  busySafe := nofun

/-- The invariant does not read how the position is written, only what is left to do there. -/
theorem inv_setSeq {s : State} {q : Seq} (hi : Inv s) (hb : s.busy = true) (hn : q.noFrame = s.seq.noFrame)
    (hlen : q.ops.length = s.seq.ops.length) (hl : ∀ l, linesAfter q.ops l = linesAfter s.seq.ops l) :
    Inv (s.setSeq q) where
  bufWf := hi.bufWf
  extZero := hi.extZero
  frame := fun hf hq => by
    have hfr := hi.frame hf fun hb' => hn ▸ hq hb'
    exact ⟨hfr.count, hfr.fresh, hfr.folded⟩
  window := fun hq => by
    rw [hi.window (hn ▸ hq)] at hlen
    exact List.length_eq_zero_iff.mp hlen
  idleSafe := fun hb' => by
    rw [State.setSeq_busy, hb] at hb'
    cases hb'
  busySafe := fun _ => (hl _).trans (hi.busySafe hb)

/-- A state that meets the invariant steps to one that meets it: by a reset, by going on with the processing in
progress, or by accepting offered bytes. -/
theorem step_inv {s : State} (hi : Inv s) : ∃ t, step s = .next t ∧ Inv t := by
  cases hr : s.env.rst with
  | true => exact ⟨_, step_reset hr, inv_env inv_reset _⟩
  | false =>
    cases hb : s.busy with
    | true =>
      obtain ⟨q, hstep, hn, hlen, -, hl, -⟩ := step_busy hr hb
      exact ⟨_, hstep, resume_inv (inv_setSeq hi hb hn hlen hl) hb⟩
    | false =>
      obtain ⟨k, -, hstep⟩ := step_ready hr hb
      rw [hstep]
      exact takeBytes_inv k hi

/-- Settles O27: a step from a state of the invariant ends in one (`step_inv`), and it ends in one state only. -/
theorem stepKeepsInv : Obligations.StepKeepsInv := by
  unfold Obligations.StepKeepsInv
  intro s t hi hstep
  obtain ⟨t', hstep', hi'⟩ := step_inv hi
  rw [hstep] at hstep'
  cases hstep'
  exact hi'

/-- Settles O28: the next state that `step_inv` gives. -/
theorem invStatesNeverStop : Obligations.InvStatesNeverStop := by
  unfold Obligations.InvStatesNeverStop
  intro s hi
  obtain ⟨t, hstep, -⟩ := step_inv hi
  exact ⟨t, hstep⟩

/-- Losing an offered byte keeps the invariant, whether there is one to lose or not (R296). -/
theorem inv_lose {s : State} (hi : Inv s) (k : Nat) : Inv (s.lose k) := by
  unfold State.lose
  split
  · exact inv_setRx hi _
  · exact hi

/-- Settles O29: each of the moves changes the environment only, which is no part of the invariant. -/
theorem environmentKeepsInv : Obligations.EnvironmentKeepsInv := by
  unfold Obligations.EnvironmentKeepsInv
  intro s hi
  exact ⟨fun _ => inv_setRx hi _, inv_lose hi, inv_env hi _, fun _ => inv_env hi _, fun _ => inv_env hi _,
    fun _ => inv_env hi _⟩

/-- Settles O17: the step is the reset, which gives every element of the block its reset value and keeps the
environment but for `rst`. -/
theorem resetPutsTheBlockInIdle : Obligations.ResetPutsTheBlockInIdle := by
  unfold Obligations.ResetPutsTheBlockInIdle
  intro s hr
  exact ⟨s.applyReset, step_reset hr, rfl, rfl, rfl, (inv_reset.idleSafe rfl).1, rfl, rfl⟩

/-- Settles O18: the fields of the reset state; the safe state is the invariant's. -/
theorem resetValuesTheSpecGives : Obligations.ResetValuesTheSpecGives := by
  unfold Obligations.ResetValuesTheSpecGives
  exact ⟨rfl, rfl, rfl, (inv_reset.idleSafe rfl).1, rfl⟩

/-- Settles O26, by `inv_reset`. -/
theorem invHoldsAtReset : Obligations.InvHoldsAtReset := inv_reset

/-- A step with no byte in process and some offered accepts the first of them, and perhaps more (R140; log 3). -/
theorem step_offered {s : State} {b : Byte} {rest : List Byte} (hr : s.env.rst = false) (hb : s.busy = false)
    (hrx : s.env.rx = b :: rest) : ∃ k, step s = andThen (rxByte b (s.setRx rest)) (takeBytes k) := by
  obtain ⟨k, hk, hstep⟩ := step_ready hr hb
  obtain ⟨k, rfl⟩ := Nat.exists_eq_add_of_le' hk
  exact ⟨k, hstep.trans (takeBytes_cons k hb hrx)⟩

/-- Settles O30: the step accepts the first of the offered bytes, and its append is outside the buffer. -/
theorem countOutsideTheBufferFaults : Obligations.CountOutsideTheBufferFaults := by
  unfold Obligations.CountOutsideTheBufferFaults
  intro s hr hb hf hrx hcount
  obtain ⟨b, rest, hrx⟩ := List.exists_cons_of_ne_nil hrx
  obtain ⟨k, hstep⟩ := step_offered hr hb hrx
  have happ : append b { s.setRx rest with busy := true } = .fault .bufferIndex := append_fault hcount
  rw [hstep, rxByte_assembling (by exact hf), happ]
  rfl

/-! ### The frame buffer (R26, R60, R65, R75) -/

/-- Inside the buffer a read gives the byte. -/
theorem Memory.read_of_lt {a : Nat} (m : Memory) (ha : a < bufCap) : m.read a = some (m.get a) := if_pos ha

/-- Outside the buffer there is no byte. -/
theorem Memory.read_of_ge {a : Nat} (m : Memory) (ha : bufCap ≤ a) : m.read a = none := if_neg (Nat.not_lt.mpr ha)

/-- A read after a write, at the address written and at every other. -/
theorem Memory.read_write {a : Nat} {b : Byte} {m m' : Memory} (h : m.wf) (hw : m.write a b = some m') (x : Nat) :
    m'.read x = if x = a then some b else m.read x := by
  obtain ⟨ha, -, hg⟩ := Memory.write_eq_some h hw
  rcases Nat.lt_or_ge x bufCap with hx | hx
  · rw [m'.read_of_lt hx, m.read_of_lt hx, hg]
    split <;> rfl
  · rw [m'.read_of_ge hx, m.read_of_ge hx, if_neg (by omega)]

/-- Canonical buffers with the same bytes inside are the same list: outside both read as 0. -/
theorem Memory.ext_read {m m' : Memory} (h : m.wf) (h' : m'.wf) (hr : ∀ a, m.read a = m'.read a) : m = m' := by
  refine Memory.ext_get h h' fun a => ?_
  rcases Nat.lt_or_ge a bufCap with ha | ha
  · have := hr a
    rw [m.read_of_lt ha, m'.read_of_lt ha] at this
    exact Option.some.inj this
  · rw [Memory.get_of_ge h ha, Memory.get_of_ge h' ha]

/-- Settles O58: a write inside the buffer succeeds and is read back; outside there is nothing; reads tell buffers
apart. -/
theorem bufferReadsBackWhatWasWritten : Obligations.BufferReadsBackWhatWasWritten := by
  unfold Obligations.BufferReadsBackWhatWasWritten
  refine ⟨fun m a b hm ha => ?_, fun m a b ha => ⟨Memory.write_eq_none b m ha, m.read_of_ge ha⟩,
    fun m m' => Memory.ext_read⟩
  obtain ⟨m', hw⟩ := Memory.write_isSome b m ha
  exact ⟨m', hw, (Memory.write_eq_some hm hw).2.1, Memory.read_write hm hw⟩

/-! ### The micro-operations (R180 to R188) -/

/-- The low latch follows `addr_lo` at the pulse of its enable only (R38 b, R189). -/
theorem latchLo_eq (p : Port) (old : Byte) (o : MicroOp) :
    latchLo p old o = if o = .setLLE .active then p.addrLo else old := by
  cases o
  case setLLE v => cases v <;> rfl
  all_goals rfl

/-- The high latch follows `addr_lo` at the pulse of its own enable only (R38 b, R189). -/
theorem latchHi_eq (p : Port) (old : Byte) (o : MicroOp) :
    latchHi p old o = if o = .setHLE .active then p.addrLo else old := by
  cases o
  case setHLE v => cases v <;> rfl
  all_goals rfl

/-- What a micro-operation does to the environment: it takes effect no earlier than the last one, joins the trace at
that time, and pulses the latch whose enable it is, if any (R180, R189). -/
theorem Env.after_eq (p : Port) (o : MicroOp) (e : Env) : ∃ time, e.now ≤ time ∧ e.after p o = { e with
    now := time, draws := e.draws + 1, trace := e.trace ++ [{ time := time, op := o }],
    xlatLo := if o = .setLLE .active then p.addrLo else e.xlatLo,
    xlatHi := if o = .setHLE .active then p.addrLo else e.xlatHi } := by
  refine ⟨(e.after p o).now, ?_, ?_⟩
  · rw [Env.after_now]
    omega
  · rw [← latchLo_eq, ← latchHi_eq]
    rfl

/-- Settles O37: each of the operations is a micro-operation on the chip port (`State.micro`), which writes its
register (`Port.apply`) and tells the environment (`Env.after_eq`); pins and bus are read off the register. -/
theorem microOperationsWriteTheirRegister : Obligations.MicroOperationsWriteTheirRegister := by
  unfold Obligations.MicroOperationsWriteTheirRegister
  intro s
  have tells (m : MicroOp) := Env.after_eq s.port m s.env
  refine ⟨fun _ => ⟨rfl, tells _⟩, fun _ => ⟨rfl, tells _⟩, fun _ => ⟨rfl, tells _⟩, fun _ => ⟨rfl, tells _⟩,
    fun _ => ⟨rfl, tells _⟩, fun _ => ⟨rfl, tells _⟩, fun _ => ⟨rfl, tells _⟩, fun _ => ⟨rfl, tells _⟩,
    fun _ => ⟨rfl, tells _⟩, fun v => ?_, rfl, rfl, fun _ => ⟨rfl, rfl, rfl, rfl, rfl⟩⟩
  cases hd : s.port.dataDir <;> simp [State.drivenData, doOp, Port.apply, hd]

/-! ### A busy block (R32, R40, R170, R173) -/

/-- Settles O19: a request's bytes are put back and none is accepted; a step goes on with the processing, which does
not touch the offered bytes. -/
theorem busyBlockAcceptsNothing : Obligations.BusyBlockAcceptsNothing := by
  unfold Obligations.BusyBlockAcceptsNothing
  intro s hb
  constructor
  · intro i hp
    rw [exec_request hp, receiveFrame, takeBytes_busy _ (by exact hb)]
  · intro hr
    obtain ⟨q, hstep, -⟩ := step_busy hr hb
    exact ⟨_, hstep, resume_rx _⟩

/-- The byte on the transmit port is that of the transmission what is left to do begins with. -/
theorem State.txOffer_eq_firstOffer {s : State} (hb : s.busy = true) : s.txOffer = firstOffer s.seq.ops s := by
  rw [State.txOffer, if_pos hb]
  rfl

/-- A byte is offered only while one is in process. -/
theorem State.busy_of_txOffer {s : State} {b : Byte} (h : s.txOffer = some b) : s.busy = true := by
  unfold State.txOffer at h
  split at h
  · assumption
  · cases h

/-- Where a byte is offered the next operation is its transmission. -/
theorem firstOffer_eq_some {ops : List SeqOp} {s : State} {b : Byte} (h : firstOffer ops s = some b) :
    ∃ v os, ops = .tx v :: os := by
  unfold firstOffer at h
  split at h
  · exact ⟨_, _, rfl⟩
  · cases h

/-- A transmission is not performed while the peripheral is not ready or the environment pauses there (R173; log 4). -/
theorem Env.stopAt_tx {e : Env} (v : Src) (os : List SeqOp) (h : e.txReady = false ∨ e.cuts.head? = some 0) :
    e.stopAt (.tx v :: os) = some 0 := by
  have hbefore : beforeTx (.tx v :: os) = 0 := rfl
  cases ht : e.txReady with
  | false => cases hc : e.cuts <;> simp [Env.stopAt, ht, hc, hbefore]
  | true =>
    obtain ⟨ns, hc⟩ := List.head?_eq_some_iff.mp (h.resolve_left (by simp [ht]))
    simp [Env.stopAt, ht, hc]

/-- Settles O45: the step would resume at a transmission it is not let past, so it only uses up a pause; the position
is at most written out by `step_busy`, which keeps what is left to do and the byte it begins with. -/
theorem stalledTransmitterHoldsEverything : Obligations.StalledTransmitterHoldsEverything := by
  unfold Obligations.StalledTransmitterHoldsEverything
  intro s b hr hoffer hheld
  have hb := State.busy_of_txOffer hoffer
  rw [State.txOffer_eq_firstOffer hb] at hoffer
  obtain ⟨q, hstep, hn, hlen, hfirst, -, hrun⟩ := step_busy hr hb
  rw [hoffer] at hfirst
  obtain ⟨v, os, hops⟩ := firstOffer_eq_some hfirst
  refine ⟨q, hn, hlen, hrun, ?_, ?_⟩
  · rw [hstep, resume_held (s := s.setSeq q) (by simp [hops]) (by simpa [hops] using Env.stopAt_tx v os hheld)]
    rfl
  · rw [State.txOffer_eq_firstOffer (by exact hb)]
    simp only [hops] at hfirst ⊢
    exact hfirst

/-! ### Pauses (R33; log 4) -/

/-- A processing that nothing holds up runs to its end in one step (R180). -/
theorem step_prompt {s : State} (hr : s.env.rst = false) (hb : s.busy = true) (hp : s.env.Prompt) :
    step s = .next (finish (runOps s.seq.ops s)) := by
  obtain ⟨q, hstep, hn, -, -, -, hrun⟩ := step_busy hr hb
  rw [hstep, resume_uncut _ (by exact hp), State.setSeq_seq, runOps_setSeq, finish_setSeq (by simpa using hn), hrun]

/-- Going on after a pause, with no further one: the processing still in progress runs on. -/
def State.goOn (t : State) : Result := if t.busy then step (t.setCuts []) else .next (t.setCuts [])

theorem State.goOn_busy {t : State} (h : t.busy = true) : t.goOn = step (t.setCuts []) := if_pos h

theorem State.goOn_done {t : State} (h : t.busy = false) : t.goOn = .next (t.setCuts []) := by simp [State.goOn, h]

theorem State.setCuts_setCuts (cs cs' : List Nat) (s : State) : (s.setCuts cs).setCuts cs' = s.setCuts cs' := rfl

theorem State.setSeq_setCuts (q : Seq) (cs : List Nat) (s : State) :
    (s.setSeq q).setCuts cs = (s.setCuts cs).setSeq q := rfl

/-- A resumption that pauses has the rest of its operations left; going on performs them. -/
theorem goOn_resume {s : State} (hr : s.env.rst = false) (hb : s.busy = true) (ht : s.env.txReady = true) :
    (resume s).goOn = .next (resume (s.setCuts [])) := by
  rw [resume_uncut (s.setCuts []) ⟨rfl, ht⟩, State.setCuts_seq]
  rcases resume_cases s with h | ⟨n, -, -, h⟩ <;> rw [h]
  · rw [State.goOn_done rfl, runOps_setCuts, runOps_setCuts]
    rfl
  · rw [State.goOn_busy (by simpa using hb),
      step_prompt (by simpa using hr) (by simpa using hb) ⟨rfl, by simpa using ht⟩]
    have hrest : (runOps (s.seq.ops.take n) (s.setCuts s.env.cuts.tail)).setCuts [] =
        runOps (s.seq.ops.take n) (s.setCuts []) := by
      rw [← runOps_setCuts, State.setCuts_setCuts]
    rw [State.setSeq_setCuts, hrest, State.setSeq_seq, Seq.drop_ops, runOps_setSeq, ← runOps_append,
      List.take_append_drop, finish_setSeq (by simp)]

/-- Going on after a pause of a step with a byte in process is not pausing. -/
theorem goOn_step {s t : State} (hr : s.env.rst = false) (hb : s.busy = true) (ht : s.env.txReady = true)
    (h : step s = .next t) : t.goOn = step (s.setCuts []) := by
  obtain ⟨q, hstep, hn, -, -, -, hrun⟩ := step_busy hr hb
  rw [hstep] at h
  cases h
  rw [goOn_resume (s := s.setSeq q) hr hb ht, resume_uncut ((s.setSeq q).setCuts []) ⟨rfl, ht⟩,
    step_prompt (s := s.setCuts []) hr hb ⟨rfl, ht⟩]
  simp only [State.setSeq_setCuts, State.setSeq_seq, State.setCuts_seq, runOps_setSeq, runOps_setCuts, hrun]
  rw [finish_setSeq (by simpa using hn)]

/-- The next step ends the short window of a byte that completed no frame, and does nothing else (R140). -/
theorem step_window {s : State} (hr : s.env.rst = false) (hq : s.seq = Seq.none) :
    step (s.enter Seq.window) = .next { s.setCuts s.env.cuts.tail with busy := false } := by
  have hadv : step (s.enter Seq.window) = .next (resume (s.enter Seq.window)) := by
    simp [step, fetch, advance, State.enter, Seq.window, hr]
  rw [hadv, resume_done rfl, finish, ← hq]
  rfl

/-- A pause that allows no operation falls into the short window (log 4). -/
theorem settle_window {s : State} {cs : List Nat} (h : s.env.cuts = 0 :: cs) :
    settle s = (s.setCuts cs).enter Seq.window := by
  simp only [settle, h]

/-- Going on after the short window leaves what the byte leaves without it. -/
theorem goOn_settle {s : State} (hr : s.env.rst = false) (hq : s.seq = Seq.none) :
    (settle s).goOn = .next (settle (s.setCuts [])) := by
  rw [settle_uncut (s := s.setCuts []) rfl]
  rcases settle_cases s with h | h <;> rw [h]
  · exact State.goOn_done rfl
  · rw [State.goOn_busy rfl]
    exact step_window (s := s.setCuts []) hr hq

/-- Inside the buffer the gate answers by the two trailing bytes (R150 to R152). -/
theorem gate_of_rxCrc {s : State} {v : Word} (h : s.rxCrc = some v) :
    gate s = .next (startPhases (if v = s.crc then matchPhases s.cmd else mismatchPhases s.crc) s) := by
  rcases gate_cases s with ⟨w, hw, hg⟩ | ⟨hw, -⟩
  · rw [h] at hw
    cases hw
    exact hg
  · rw [h] at hw
    cases hw

/-- A byte that completes no frame does the same to the block in every environment, and the event ends (R140, R149). -/
theorem rxByte_noFrame (b : Byte) {s : State} (hi : Inv s) (hb : s.busy = false)
    (hno : s.fstate = .assembling → s.receivedLen.toNat + 1 ≠ s.expectedLen.toNat) :
    ∃ x : State, x.seq = Seq.none ∧ ∀ e, rxByte b (s.setEnv e) = .next (settle (x.setEnv e)) := by
  have hq := (hi.idleSafe hb).2
  rcases rxByte_cases b hi hb with ⟨hf, ⟨c, hs, -⟩ | ⟨hs, -⟩⟩ | ⟨hf, hlt, -⟩ | ⟨hf, hl, -⟩
  · exact ⟨{ accept b c s with busy := true }, hq, fun e => rxByte_selector (s := s.setEnv e) hf hs⟩
  · exact ⟨{ s with busy := true }, hq, fun e => rxByte_unrecognized (s := s.setEnv e) hf hs⟩
  · obtain ⟨-, he⟩ := (hi.frame hf (State.quiet_of_not_busy hb)).count
    have hc : s.expectedLen.toNat ≤ bufCap := he ▸ (Cmd.len_bounds s.cmd).2
    exact ⟨{ s with
        buf := s.buf.put s.receivedLen.toNat b
        receivedLen := s.receivedLen + 1
        crc := if isPayload s.receivedLen s.expectedLen then crcUpdate s.crc b else s.crc
        busy := true }, hq, fun e => rxByte_more (s := s.setEnv e) hf hi.bufWf hlt hc⟩
  · exact absurd hl (hno hf)

/-- The byte that completes a frame begins the same response in every environment (R149 to R152). -/
theorem rxByte_frame (b : Byte) {s : State} (hi : Inv s) (hb : s.busy = false) (hf : s.fstate = .assembling)
    (hl : s.receivedLen.toNat + 1 = s.expectedLen.toNat) :
    ∃ x : State, x.busy = true ∧ ∀ e, rxByte b (s.setEnv e) = .next (resume (x.setEnv e)) := by
  obtain ⟨-, he⟩ := (hi.frame hf (State.quiet_of_not_busy hb)).count
  obtain ⟨h2, hc⟩ := Cmd.len_bounds s.cmd
  rw [← he] at h2 hc
  obtain ⟨v, hv⟩ : ∃ v, State.rxCrc { s with
      buf := s.buf.put s.receivedLen.toNat b, receivedLen := s.expectedLen, busy := true } = some v :=
    ⟨_, rxCrc_eq h2 hc⟩
  exact ⟨{ s with
      buf := s.buf.put s.receivedLen.toNat b
      receivedLen := s.expectedLen
      busy := true
      seq := { curr := [], phases := if v = s.crc then matchPhases s.cmd else mismatchPhases s.crc } }, rfl, fun e =>
    (rxByte_last (s := s.setEnv e) hf hi.bufWf h2 hl hc).trans (gate_of_rxCrc (by exact hv))⟩

/-- Pausing inside the processing of one byte and going on is not pausing. The bytes offered, `rst` and `tx_ready` are
the environment's, paused or not. -/
theorem goOn_rxByte {b : Byte} {s t : State} (hi : Inv s) (hb : s.busy = false) (hr : s.env.rst = false)
    (ht : s.env.txReady = true) (h : rxByte b s = .next t) :
    t.goOn = rxByte b (s.setCuts []) ∧ t.env.rx = s.env.rx ∧ t.env.rst = false ∧ t.env.txReady = true := by
  by_cases hl : s.fstate = .assembling ∧ s.receivedLen.toNat + 1 = s.expectedLen.toNat
  · obtain ⟨x, hbx, hx⟩ := rxByte_frame b hi hb hl.1 hl.2
    have hpaused : rxByte b s = .next (resume (x.setEnv s.env)) := hx s.env
    have hthrough : rxByte b (s.setCuts []) = .next (resume ((x.setEnv s.env).setCuts [])) := hx _
    rw [h] at hpaused
    cases hpaused
    exact ⟨(goOn_resume (s := x.setEnv s.env) hr hbx ht).trans hthrough.symm, by simp, by simpa, by simpa⟩
  · obtain ⟨x, hq, hx⟩ := rxByte_noFrame b hi hb fun hf hl' => hl ⟨hf, hl'⟩
    have hpaused : rxByte b s = .next (settle (x.setEnv s.env)) := hx s.env
    have hthrough : rxByte b (s.setCuts []) = .next (settle ((x.setEnv s.env).setCuts [])) := hx _
    rw [h] at hpaused
    cases hpaused
    exact ⟨(goOn_settle (s := x.setEnv s.env) hr hq).trans hthrough.symm, by simp, by simpa, by simpa⟩

/-- Bytes arrive and a pause falls into the processing of one of them: going on and then accepting the others gives
what accepting them with no pause gives. -/
theorem goOn_takeBytes (bs : List Byte) {rest : List Byte} {s t : State} (hi : Inv s) (hb : s.busy = false)
    (hr : s.env.rst = false) (ht : s.env.txReady = true) (hrx : s.env.rx = bs ++ rest)
    (h : takeBytes bs.length s = .next t) :
    andThen t.goOn (takeBytes (t.env.rx.length - rest.length)) = takeBytes bs.length (s.setCuts []) := by
  induction bs generalizing s with
  | nil =>
    cases h
    rw [State.goOn_done hb, andThen_next, hrx]
    simp
  | cons b bs ih =>
    rw [List.cons_append] at hrx
    rw [List.length_cons, takeBytes_cons bs.length hb hrx] at h
    obtain ⟨u, hu, htake⟩ := andThen_eq_next h
    have hrest : Inv (s.setRx (bs ++ rest)) := inv_setRx hi _
    obtain ⟨hgo, hurx, hur, hut⟩ := goOn_rxByte hrest hb hr ht hu
    have hfirst : takeBytes (bs.length + 1) (s.setCuts []) = andThen u.goOn (takeBytes bs.length) := by
      rw [hgo]
      exact takeBytes_cons (s := s.setCuts []) bs.length hb hrx
    rw [List.length_cons, hfirst]
    cases hub : u.busy with
    | true =>
      rw [takeBytes_busy _ hub] at htake
      cases htake
      rw [hurx, State.setRx_env, List.length_append, Nat.add_sub_cancel]
    | false =>
      obtain ⟨u', hu', hiu⟩ := rxByte_inv b hrest hb
      rw [hu] at hu'
      cases hu'
      rw [ih hiu hub hur hut hurx htake, State.goOn_done hub, andThen_next]

/-- Settles O46: for a request, the bytes of its frame arrive (`goOn_takeBytes`); for a processing under way, what is
left of it runs (`goOn_step`). -/
theorem pausingDoesNotChangeTheResult : Obligations.PausingDoesNotChangeTheResult := by
  unfold Obligations.PausingDoesNotChangeTheResult
  refine ⟨fun s t i hi hb hr ht hp h => ?_, fun s t hb hr ht h => ?_⟩
  · rw [exec_request hp, receiveFrame] at h ⊢
    exact goOn_takeBytes (encode i) (inv_setRx hi _) hb hr ht rfl h
  · have hgo := goOn_step hr hb ht h
    cases hbt : t.busy with
    | true => rwa [State.goOn_busy hbt] at hgo
    | false => rwa [State.goOn_done hbt] at hgo

/-! ### The short window (R156, R296) -/

/-- Settles O59: the byte's effect on the block does not depend on the environment (`rxByte_noFrame`); the pause falls
into the window, where nothing is accepted, and the next step only ends it, whatever bytes are then offered. -/
theorem bytesInTheShortWindowAreKeptOrLost : Obligations.BytesInTheShortWindowAreKeptOrLost := by
  unfold Obligations.BytesInTheShortWindowAreKeptOrLost
  intro s b rest cs hi hr hb hrx hcuts hno
  obtain ⟨x, hq, hx⟩ := rxByte_noFrame b hi hb hno
  have hwindow : step s = .next ((x.setEnv { s.env with rx := rest, cuts := cs }).enter Seq.window) := by
    obtain ⟨k, hstep⟩ := step_offered hr hb hrx
    have hbyte : rxByte b (s.setRx rest) = .next (settle (x.setEnv { s.env with rx := rest })) := hx _
    rw [hstep, hbyte, settle_window (by exact hcuts), andThen_next]
    exact takeBytes_busy k rfl
  have halone : step ((s.setCuts []).setRx [b]) =
      .next { x.setEnv { s.env with rx := [], cuts := [] } with busy := false } := by
    obtain ⟨k, hstep⟩ := step_offered (s := (s.setCuts []).setRx [b]) hr hb rfl
    have hbyte : rxByte b (((s.setCuts []).setRx [b]).setRx []) =
      .next (settle (x.setEnv { s.env with rx := [], cuts := [] })) := hx _
    rw [hstep, hbyte, settle_uncut rfl, andThen_next]
    exact takeBytes_nil k rfl
  have hends (rx : List Byte) : step ((x.setEnv { s.env with rx := rx, cuts := cs }).enter Seq.window) =
      .next { x.setEnv { s.env with rx := rx, cuts := cs.tail } with busy := false } :=
    step_window (s := x.setEnv { s.env with rx := rx, cuts := cs }) hr hq
  exact ⟨_, _, hwindow, rfl, rfl, rfl, halone, rfl, hends rest, fun k => hends (rest.eraseIdx k)⟩

/-! ### The progress of the transmitter (R173, D20, R305) -/

/-- A step of a busy block with the peripheral ready or not: it uses up a pause, and it ends the processing if the
peripheral is ready and there was no pause. -/
theorem step_paced {s : State} (hr : s.env.rst = false) (hb : s.busy = true) (r : Bool) :
    ∃ t, step (s.setTxReady r) = .next t ∧ t.env.rst = false ∧ t.env.cuts = s.env.cuts.tail ∧
      (r = true → s.env.cuts = [] → t.busy = false) := by
  obtain ⟨q, hstep, -⟩ := step_busy (s := s.setTxReady r) hr hb
  refine ⟨_, hstep, by simpa, by simp, fun hready hc => ?_⟩
  rw [resume_uncut _ (by exact ⟨hc, hready⟩), finish_busy]

/-- With a peripheral that is ready at a step no earlier than the last pause, the processing ends by then. -/
theorem runPaced_ends (m : Nat) {ready : Nat → Bool} {s : State} (hr : s.env.rst = false) (hb : s.busy = true)
    (hm : s.env.cuts.length ≤ m) (hready : ready m = true) :
    ∃ k t, runPaced k ready s = .next t ∧ t.busy = false := by
  induction m generalizing s ready with
  | zero =>
    obtain ⟨t, hstep, -, -, hdone⟩ := step_paced hr hb (ready 0)
    refine ⟨1, t, ?_, hdone hready (List.length_eq_zero_iff.mp (Nat.le_zero.mp hm))⟩
    rw [runPaced, hstep]
    rfl
  | succ m ih =>
    obtain ⟨t, hstep, htr, hcuts, -⟩ := step_paced hr hb (ready 0)
    have hnext (k : Nat) : runPaced (k + 1) ready s = runPaced k (fun i => ready (i + 1)) t := by
      rw [runPaced, hstep, andThen_next]
    cases htb : t.busy with
    | false => exact ⟨1, t, hnext 0, htb⟩
    | true =>
      have htm : t.env.cuts.length ≤ m := by
        rw [hcuts, List.length_tail]
        omega
      obtain ⟨k, u, hk, hu⟩ := ih (ready := fun i => ready (i + 1)) htr htb htm hready
      exact ⟨k + 1, u, (hnext k).trans hk, hu⟩

/-- A peripheral that is never ready holds the block where it offers a byte (R173, R305). -/
theorem runPaced_hangs (k : Nat) {s : State} {b : Byte} (hr : s.env.rst = false) (hoffer : s.txOffer = some b) :
    ∃ t, runPaced k (fun _ => false) s = .next t ∧ t.busy = true ∧ t.txOffer = some b ∧ t.env.tx = s.env.tx ∧
      t.port = s.port ∧ t.env.trace = s.env.trace := by
  induction k generalizing s with
  | zero => exact ⟨s, rfl, State.busy_of_txOffer hoffer, hoffer, rfl, rfl, rfl⟩
  | succ k ih =>
    obtain ⟨q, -, -, -, hstep, hoffer'⟩ :=
      stalledTransmitterHoldsEverything (s.setTxReady false) b hr hoffer (.inl rfl)
    obtain ⟨t, ht, hheld⟩ := ih (by exact hr) hoffer'
    exact ⟨t, by rw [runPaced, hstep, andThen_next, ht], hheld⟩

/-- Settles O60: after finitely many steps every pause is used up, and a fair peripheral is ready after that; one that
is never ready stalls every step. -/
theorem fairPeripheralEndsTheProcessing : Obligations.FairPeripheralEndsTheProcessing := by
  unfold Obligations.FairPeripheralEndsTheProcessing
  refine ⟨fun s ready hb hr hfair => ?_, fun s b hr hoffer k => runPaced_hangs k hr hoffer⟩
  obtain ⟨m, hm, hready⟩ := hfair s.env.cuts.length
  exact runPaced_ends m hr hb hm hready

end Sys2Proof.Machine

/-! PROOFS. The statements of 20_memory.md: the selector that starts a frame, the requests that pass the gate and touch
the chip, the ideal chip, and the operands that have no effect. -/

namespace Sys2Proof.Machine

/-! ### A selector in Idle (R141 to R145) -/

/-- The end of a byte that left `u` behind and completed no frame: `u`, or its short window (R149, R156). -/
theorem settlesTo_settle {u : State} (hb : u.busy = false) : u.SettlesTo (settle { u with busy := true }) := by
  refine ⟨settle_busy_uncut hb, ?_⟩
  rcases settle_cases { u with busy := true } with h | h <;> rw [h]
  · left
    show { u.setCuts u.env.cuts.tail with busy := false } = u.setCuts u.env.cuts.tail
    rw [← hb]
    rfl
  · exact .inr rfl

/-- Settles O21: the selector's byte is accepted (`rxByte_selector`) and its event ends (`settlesTo_settle`). -/
theorem selectorStartsAFrame : Obligations.SelectorStartsAFrame := by
  unfold Obligations.SelectorStartsAFrame
  intro s c hi hb
  refine ⟨⟨Memory.zeroed, Memory.get_zeroed, _, rxByte_selector hi (selectorOf_selector c), ?_⟩, by decide⟩
  exact settlesTo_settle (u := accept c.selector c s) hb

/-! ### A request that passes the gate (R150 to R153) -/

/-- The block after the ACK of a whole frame of command `c` with payload `body` and the CRC of both. -/
def State.acked (c : Cmd) (body : List Byte) (s : State) : State :=
  { s.assembled c body (crc16 (c.selector :: body)) with env := s.env.sent [0x61, 0x7E, 0xA8] }

/-- The frame buffer the handler of `c` begins with (R61). -/
theorem acked_buf (c : Cmd) (body : List Byte) (s : State) (hlen : body.length + 2 = c.len.toNat) :
    (s.acked c body).buf.wf ∧
      ∀ a, (s.acked c body).buf.get a = (body ++ le16 (crc16 (c.selector :: body))).getD a 0 :=
  assembled_buf c body _ hlen

/-- Up to the ACK the chip was asked nothing. -/
theorem acked_answers (c : Cmd) (body : List Byte) (s : State) (n : Nat) :
    (s.acked c body).env.answers n = s.env.answers n := rfl

/-- A frame with the right CRC is answered by ACK, then the handler runs to its end, and the block is in Idle again. -/
theorem receiveFrame_match (c : Cmd) (body : List Byte) {s : State} (h : Ready s)
    (hlen : body.length + 2 = c.len.toNat) :
    receiveFrame (c.selector :: (body ++ le16 (crc16 (c.selector :: body)))) s =
      .next { runOps ((handlerPhases c).flatMap Phase.ops) (s.acked c body) with
        fstate := s.fstate, busy := false, seq := Seq.none } := by
  rw [receiveFrame_frame c body _ s h.idle h.notBusy h.prompt.uncut hlen, if_pos rfl, startPhases,
    resume_uncut _ (by exact ⟨h.prompt.uncut, h.prompt.ready⟩), h.idle]
  have hops : (Seq.mk [] (matchPhases c) false).ops = ackOps ++ (handlerPhases c).flatMap Phase.ops := rfl
  rw [State.enter_seq, hops, runOps_append, runOps_ackOps, finish, runOps_seq]
  -- no operation reads the position the processing began with
  show Host.Outcome.next { runOps _ ((s.acked c body).setSeq { curr := [], phases := matchPhases c }) with
    fstate := .idle, busy := false, seq := Seq.none } = _
  rw [runOps_setSeq]
  rfl

/-- The handlers of Read, Write and FastDump are a chip-port part and then a response. -/
theorem phases_pair_ops (p q : Phase) : [p, q].flatMap Phase.ops = p.ops ++ q.ops := by
  simp

/-- The buffer of a short frame after a whole page was captured into it: the page, and nothing after it (R61). -/
theorem captured_acked (c : Cmd) (body page : List Byte) (s : State) (hlen : body.length + 2 = c.len.toNat)
    (hc : c.len.toNat ≤ 256) (hp : page.length = 256) :
    (captured (s.acked c body).buf (offsets.zip page)).wf ∧
      ∀ a, (captured (s.acked c body).buf (offsets.zip page)).get a = if a < 256 then page.getD a 0 else 0 := by
  obtain ⟨hw, hg⟩ := acked_buf c body s hlen
  refine ⟨captured_wf _ hw, fun a => ?_⟩
  rw [captured_page_get page hw hp, hg]
  split
  · rfl
  · exact List.getD_eq_default _ _ (by rw [List.length_append, le16_length]; omega)

/-- `StreamPage` right after a whole page was captured, the accumulator at its CRC (R190). -/
theorem runOps_streamPage_captured {s : State} {m : Memory} {page : List Byte} (hw : m.wf) (hp : page.length = 256)
    (hbuf : s.buf = captured m (offsets.zip page)) (hcrc : s.crc = crc16 page) :
    runOps streamPage s = { s with env := s.env.sent (page ++ le16 (crc16 page)) } := by
  rw [runOps_streamPage, hbuf, captured_page page hw hp, hcrc]

/-- Settles O2: the chip-port part of Read captures the page (`runOps_readOps`), which is then transmitted. -/
theorem readAnswersThePage : Obligations.ReadAnswersThePage := by
  unfold Obligations.ReadAnswersThePage
  intro s lo hi h
  dsimp only
  have hp : (s.env.answers 256).length = 256 := s.env.answers_length 256
  generalize hpage : s.env.answers 256 = page at hp
  obtain ⟨hw, hg⟩ := acked_buf .read [lo, hi] s rfl
  obtain ⟨hmw, hmg⟩ := captured_acked .read [lo, hi] page s rfl (by decide) hp
  refine ⟨_, hmw, hmg, (receiveFrame_match .read [lo, hi] h rfl).trans ?_⟩
  have hops : (handlerPhases .read).flatMap Phase.ops = readOps ++ streamPage := phases_pair_ops _ _
  have hlo : (s.acked .read [lo, hi]).buf.get 0 = lo := hg 0
  have hhi : (s.acked .read [lo, hi]).buf.get 1 = hi := hg 1
  rw [hops, runOps_append, runOps_readOps _ hw, acked_answers, hpage, runOps_streamPage_captured hw hp ?_ ?_,
    hlo, hhi]
  all_goals rfl

/-- Settles O4: the chip-port part of FastDump captures the page (`runOps_fastDumpOps`), which is then transmitted. -/
theorem fastDumpAnswersThePage : Obligations.FastDumpAnswersThePage := by
  unfold Obligations.FastDumpAnswersThePage
  intro s low unused h
  dsimp only
  have hp : (s.env.answers 256).length = 256 := s.env.answers_length 256
  generalize hpage : s.env.answers 256 = page at hp
  obtain ⟨hw, hg⟩ := acked_buf .fastDump [low, unused] s rfl
  obtain ⟨hmw, hmg⟩ := captured_acked .fastDump [low, unused] page s rfl (by decide) hp
  refine ⟨_, hmw, hmg, (receiveFrame_match .fastDump [low, unused] h rfl).trans ?_⟩
  have hops : (handlerPhases .fastDump).flatMap Phase.ops = fastDumpOps ++ streamPage := phases_pair_ops _ _
  have hlow : (s.acked .fastDump [low, unused]).buf.get 0 = low := hg 0
  rw [hops, runOps_append, runOps_fastDumpOps _ hw, acked_answers, hpage,
    runOps_streamPage_captured hw hp ?_ ?_, hlow]
  all_goals rfl

/-- Settles O3: the chip-port part of Write programs the data of the frame (`runOps_writeOps`), then DONE is
transmitted. -/
theorem writeProgramsAndAnswersDone : Obligations.WriteProgramsAndAnswersDone := by
  unfold Obligations.WriteProgramsAndAnswersDone
  intro s lo hi data h hd crc
  have hlen : (lo :: hi :: data).length + 2 = Cmd.write.len.toNat := by rw [List.length_cons, List.length_cons, hd]; rfl
  obtain ⟨hw, hg⟩ := acked_buf .write (lo :: hi :: data) s hlen
  refine ⟨_, hw, hg, (receiveFrame_match .write (lo :: hi :: data) h hlen).trans ?_⟩
  have hops : (handlerPhases .write).flatMap Phase.ops = writeOps ++ doneOps := phases_pair_ops _ _
  have hlo : (s.acked .write (lo :: hi :: data)).buf.get 0 = lo := hg 0
  have hhi : (s.acked .write (lo :: hi :: data)).buf.get 1 = hi := hg 1
  have hlast : (s.acked .write (lo :: hi :: data)).buf.get 257 = data.getD 255 0 := by
    rw [hg]
    exact List.getD_append data _ 0 255 (by omega)
  rw [hops, runOps_append, runOps_writeOps, doneOps, runOps_literalOps, crc16_doneLit, dataAt_assembled hd hg, hlo, hhi,
    hlast]
  rfl

/-! ### The ideal chip (95_test_vectors.md section 5) -/

/-- The chip inside the loop of FastDump (R195): not programmed, not driven, the preset in its high latch. -/
structure Chip.InDump (c : Chip) (low : Byte) (mem : BitVec 16 → Byte) : Prop where
  pgm : c.port.pgm = .inactive
  dir : c.port.dataDir = .input
  high : c.xlatHi = low
  mem : c.mem = mem

/-- The captures of the iterations of FastDump get the bytes of the page of the preset at their offsets, and the loop
goes on (R63, R195). -/
theorem Chip.answers_dumpLoop {low : Byte} {mem : BitVec 16 → Byte} (xs : List (Byte × Byte)) {c : Chip}
    (h : c.InDump low mem) :
    (c.Answers .latched (xs.flatMap fun x => fastDumpIterTrace x.1 x.2) ↔ ∀ x ∈ xs, x.2 = mem (low ++ x.1)) ∧
      (c.after .latched (xs.flatMap fun x => fastDumpIterTrace x.1 x.2)).InDump low mem := by
  induction xs generalizing c with
  | nil => exact ⟨by simp [Chip.Answers], h⟩
  | cons x xs ih =>
    have hiter : c.Answers .latched (fastDumpIterTrace x.1 x.2) ↔ x.2 = mem (low ++ x.1) := by
      simp [fastDumpIterTrace, Chip.Answers, Chip.apply, Port.apply, Port.reading, Chip.addr, latchLo, latchHi, h.pgm,
        h.dir, h.high, h.mem]
    have hnext : (c.after .latched (fastDumpIterTrace x.1 x.2)).InDump low mem := ⟨h.pgm, h.dir, h.high, h.mem⟩
    obtain ⟨hrest, hend⟩ := ih hnext
    rw [List.flatMap_cons, Chip.answers_append, Chip.after_append, hiter, hrest]
    exact ⟨by simp, hend⟩

/-- A page of the memory, offset by offset (R65). -/
theorem pageAt_eq_map (mem : BitVec 16 → Byte) (hi : Byte) : pageAt mem hi = offsets.map fun k => mem (hi ++ k) := by
  rw [offsets, List.map_map]
  rfl

/-- Bytes that each stand at their offset are the page in order (R65). -/
theorem forall_zip_offsets_iff (mem : BitVec 16 → Byte) (hi : Byte) {page : List Byte} (hp : page.length = 256) :
    (∀ x ∈ offsets.zip page, x.2 = mem (hi ++ x.1)) ↔ page = pageAt mem hi := by
  rw [pageAt_eq_map, eq_comm, ← List.forall₂_eq_eq_eq, List.forall₂_map_left_iff, List.forall₂_iff_zip]
  simp [hp, eq_comm]

/-- The captures of Read get the page of its high address byte, and the memory is as before (R62, R193). -/
theorem Chip.readTrace_spec {c : Chip} (hc : c.port.safe) (lo hi : Byte) {page : List Byte} (hp : page.length = 256) :
    (c.Answers .direct (readTrace lo hi page) ↔ page = pageAt c.mem hi) ∧
      (c.after .direct (readTrace lo hi page)).mem = c.mem := by
  obtain ⟨-, -, hpgm, -, -, hdir⟩ := hc
  have hin : (c.after .direct [.setCE .active, .setOE .inactive, .setAddrLo lo, .setAddrHi hi]).InRead hi c.mem :=
    ⟨rfl, hpgm, hdir, rfl, rfl⟩
  obtain ⟨hloop, hend⟩ := Chip.answers_readLoop (offsets.zip page) hin
  rw [readTrace, Chip.answers_append, Chip.answers_append, Chip.after_append, Chip.after_append, hloop,
    forall_zip_offsets_iff _ _ hp]
  exact ⟨by simp [Chip.Answers], hend.mem⟩

/-- The captures of FastDump get the page of its preset, and the memory is as before (R63, R195). -/
theorem Chip.fastDumpTrace_spec {c : Chip} (hc : c.port.safe) (low : Byte) {page : List Byte}
    (hp : page.length = 256) :
    (c.Answers .latched (fastDumpTrace low page) ↔ page = pageAt c.mem low) ∧
      (c.after .latched (fastDumpTrace low page)).mem = c.mem := by
  obtain ⟨-, -, hpgm, -, -, -⟩ := hc
  have hin : (c.after .latched [.setData low, .setDataDir .output, .setAddrLo low, .setLLE .active, .setLLE .inactive,
      .setAddrLo low, .setHLE .active, .setHLE .inactive, .setDataDir .input]).InDump low c.mem := by
    constructor <;> simp [Chip.after, Chip.apply, Port.apply, latchHi, hpgm]
  obtain ⟨hloop, hend⟩ := Chip.answers_dumpLoop (offsets.zip page) hin
  rw [fastDumpTrace, Chip.answers_append, Chip.after_append, hloop, forall_zip_offsets_iff _ _ hp]
  exact ⟨by simp [Chip.Answers], hend.mem⟩

/-- Settles O53, a path each. -/
theorem idealChipAnswersThePage : Obligations.IdealChipAnswersThePage := by
  unfold Obligations.IdealChipAnswersThePage
  intro c lo hi page hc hp
  obtain ⟨hread, hreadMem⟩ := Chip.readTrace_spec hc lo hi hp
  obtain ⟨hdump, hdumpMem⟩ := Chip.fastDumpTrace_spec hc lo hp
  exact ⟨hread, hdump, hreadMem, hdumpMem⟩

/-- An offset of a page determines the byte at it. -/
theorem mem_zip_offsets {data : List Byte} (hd : data.length = 256) (k : Byte) :
    (k, data.getD k.toNat 0) ∈ offsets.zip data := by
  have hk : k.toNat < 256 := k.isLt
  refine List.mem_iff_getElem.mpr ⟨k.toNat, by simpa [hd] using hk, ?_⟩
  simp [offsets, hd, hk]

/-- No offset comes twice (R10). -/
theorem zip_offsets_nodup {data : List Byte} (hd : data.length = 256) : ((offsets.zip data).map Prod.fst).Nodup := by
  rw [List.map_fst_zip (by rw [offsets_length, hd])]
  refine List.nodup_range.map_on fun i hi j hj hij => ?_
  have hi' : i < 256 := List.mem_range.mp hi
  have hj' : j < 256 := List.mem_range.mp hj
  simpa [Nat.mod_eq_of_lt, hi', hj'] using congrArg BitVec.toNat hij

/-- An address that no pulse of the loop has is left alone. -/
theorem programAll_of_ne {mem : BitVec 16 → Byte} {hi : Byte} {xs : List (Byte × Byte)} {a : BitVec 16}
    (ha : ∀ x ∈ xs, a ≠ hi ++ x.1) : programAll mem hi xs a = mem a := by
  induction xs generalizing mem with
  | nil => rfl
  | cons x xs ih =>
    have hstep : programAll mem hi (x :: xs) a = programAll (programByte mem (hi ++ x.1) x.2) hi xs a := rfl
    rw [hstep, ih fun y hy => ha y (List.mem_cons_of_mem x hy), programByte, if_neg (ha x List.mem_cons_self)]

/-- The page of an address. -/
theorem hiByte_append (hi lo : Byte) : hiByte (hi ++ lo) = hi := hiByte_ofLoHi lo hi

/-- The offset of an address in its page. -/
theorem loByte_append (hi lo : Byte) : loByte (hi ++ lo) = lo := loByte_ofLoHi lo hi

/-- Where the offsets are different each pulse leaves its byte at its address. -/
theorem programAll_of_mem {mem : BitVec 16 → Byte} {hi : Byte} {xs : List (Byte × Byte)}
    (hn : (xs.map Prod.fst).Nodup) {x : Byte × Byte} (hx : x ∈ xs) : programAll mem hi xs (hi ++ x.1) = x.2 := by
  induction xs generalizing mem with
  | nil => cases hx
  | cons y ys ih =>
    rw [List.map_cons, List.nodup_cons] at hn
    have hstep : programAll mem hi (y :: ys) = programAll (programByte mem (hi ++ y.1) y.2) hi ys := rfl
    rw [hstep]
    rcases List.mem_cons.mp hx with rfl | hx
    · rw [programAll_of_ne fun z hz he => hn.1 ?_, programByte, if_pos rfl]
      have hlo := congrArg loByte he
      rw [loByte_append, loByte_append] at hlo
      exact List.mem_map.mpr ⟨z, hz, hlo.symm⟩
    · exact ih hn.2 hx

/-- A memory with a page programmed, at the offsets of a page. -/
theorem withPage_append (mem : BitVec 16 → Byte) (hi hi' k : Byte) (data : List Byte) :
    withPage mem hi data (hi' ++ k) = if hi' = hi then data.getD k.toNat 0 else mem (hi' ++ k) := by
  have hhi : ((hi' ++ k : BitVec 16) >>> 8).setWidth 8 = hi' := hiByte_append hi' k
  have hlo : (hi' ++ k : BitVec 16).setWidth 8 = k := loByte_append hi' k
  rw [withPage, hhi, hlo]

/-- The pulses of a Write program exactly its page (R62, R194). -/
theorem programAll_eq_withPage (mem : BitVec 16 → Byte) (hi : Byte) {data : List Byte} (hd : data.length = 256) :
    programAll mem hi (offsets.zip data) = withPage mem hi data := by
  funext a
  obtain ⟨hi', k, rfl⟩ : ∃ hi' k : Byte, a = hi' ++ k := ⟨hiByte a, loByte a, (ofLoHi_lo_hi a).symm⟩
  rw [withPage_append]
  split
  · rename_i h
    rw [h]
    exact programAll_of_mem (zip_offsets_nodup hd) (mem_zip_offsets hd k)
  · rename_i h
    refine programAll_of_ne fun x _ he => h ?_
    have hhi := congrArg hiByte he
    rwa [hiByte_append, hiByte_append] at hhi

/-- The programmed page holds the data (R65). -/
theorem pageAt_withPage_same (mem : BitVec 16 → Byte) (hi : Byte) {data : List Byte} (hd : data.length = 256) :
    pageAt (withPage mem hi data) hi = data := by
  rw [← programAll_eq_withPage mem hi hd]
  exact ((forall_zip_offsets_iff _ hi hd).mp fun x hx => (programAll_of_mem (zip_offsets_nodup hd) hx).symm).symm

/-- Every other page is as before. -/
theorem pageAt_withPage_other (mem : BitVec 16 → Byte) {hi hi' : Byte} (data : List Byte) (h : hi' ≠ hi) :
    pageAt (withPage mem hi data) hi' = pageAt mem hi' := by
  simp only [pageAt, withPage_append, if_neg h]

/-- Settles O54: the pulses of the trace (`Chip.mem_writeTrace`) are the page (`programAll_eq_withPage`). -/
theorem idealChipIsProgrammedWithThePage : Obligations.IdealChipIsProgrammedWithThePage := by
  unfold Obligations.IdealChipIsProgrammedWithThePage
  intro c lo hi data hc hd
  obtain ⟨-, -, hpgm, -, -, -⟩ := hc
  refine ⟨?_, pageAt_withPage_same c.mem hi hd, fun hi' => pageAt_withPage_other c.mem data⟩
  rw [Chip.mem_writeTrace lo hi data hpgm, programAll_eq_withPage c.mem hi hd]

/-! ### A Write and a Read of the same page (R67) -/

/-- A Write leaves the block ready, its port in the safe state, and its trace in the environment (R153, R194, R196). -/
theorem exec_write_leaves {s : State} (lo hi : Byte) {data : List Byte} (h : Ready s) (hsafe : s.port.safe)
    (hd : data.length = 256) :
    ∃ t, exec (.write lo hi data (crc16 (selW :: lo :: hi :: data))) s = .next t ∧ Ready t ∧ t.port.safe ∧
      t.env.trace = s.env.trace ++ stamp Config.freeAdvance s.env.draws s.env.now (writeTrace lo hi data) := by
  obtain ⟨-, -, -, hlle, hhle, -⟩ := hsafe
  obtain ⟨m, -, -, hwrite⟩ := writeProgramsAndAnswersDone s lo hi data h hd
  exact ⟨_, hwrite, ⟨h.idle, rfl, h.prompt.uncut, h.prompt.ready⟩, ⟨rfl, rfl, rfl, hlle, hhle, rfl⟩, rfl⟩

/-- Settles O55: the trace of the Write programs the page (O54), so captures that get what the chip then holds get that
page (O53), which the Read transmits (O2). -/
theorem writeThenReadReturnsThePage : Obligations.WriteThenReadReturnsThePage := by
  unfold Obligations.WriteThenReadReturnsThePage
  intro s mem lo lo' hi data h hinv hd
  have hsafe : s.port.safe := (hinv.idleSafe h.notBusy).1
  obtain ⟨t, hwrite, ht, htsafe, htrace⟩ := exec_write_leaves lo hi h hsafe hd
  refine ⟨t, _, hwrite, htrace, fun hans => ?_⟩
  obtain ⟨hprog, hpage, -⟩ := idealChipIsProgrammedWithThePage (s.chip mem) lo hi data hsafe hd
  rw [stamp_ops, hprog] at hans
  have hcaptured : t.env.answers 256 = data :=
    ((Chip.readTrace_spec (by exact htsafe) lo' hi (t.env.answers_length 256)).1.mp hans).trans hpage
  obtain ⟨m, -, -, hread⟩ := readAnswersThePage t lo' hi ht
  refine ⟨_, hread, ?_⟩
  simp [Env.sent, Env.played, hcaptured]

/-! ### Operands that have no effect (R62, R63, R65) -/

/-- The times of a trace depend on the least times of its operations only (R180). -/
theorem times_congr (adv : Nat → Nat) (n t : Nat) {os os' : List MicroOp}
    (h : os.map MicroOp.leastTicks = os'.map MicroOp.leastTicks) :
    timeAfter adv n t os = timeAfter adv n t os' ∧
      (stamp adv n t os).map Event.time = (stamp adv n t os').map Event.time := by
  induction os generalizing n t os' with
  | nil =>
    obtain rfl : os' = [] := List.map_eq_nil_iff.mp h.symm
    exact ⟨rfl, rfl⟩
  | cons o os ih =>
    obtain ⟨o', os', rfl, ho, hos⟩ := List.map_eq_cons_iff.mp h.symm
    obtain ⟨htime, hstamp⟩ := ih (n + 1) (t + adv n + o.leastTicks) hos.symm
    simp only [timeAfter, stamp, List.map_cons, ho]
    exact ⟨htime, congrArg _ hstamp⟩

/-- The low address byte changes no duration of Read. -/
theorem readTrace_leastTicks (lo lo' hi : Byte) (page : List Byte) :
    (readTrace lo hi page).map MicroOp.leastTicks = (readTrace lo' hi page).map MicroOp.leastTicks := by
  simp [readTrace, MicroOp.leastTicks]

/-- Of a Read the low address byte shows in the trace only, and not in its times (R62, R65). -/
theorem exec_read_ignores_addrLo {s : State} (h : Ready s) (lo lo' hi : Byte) :
    ∃ t t' : State, exec (.read lo hi (crc16 [selR, lo, hi])) s = .next t ∧
      exec (.read lo' hi (crc16 [selR, lo', hi])) s = .next t' ∧
      t' = { t with env := { t.env with trace := t'.env.trace } } ∧
      t.env.trace.map Event.time = t'.env.trace.map Event.time := by
  obtain ⟨m, hw, hg, hread⟩ := readAnswersThePage s lo hi h
  obtain ⟨m', hw', hg', hread'⟩ := readAnswersThePage s lo' hi h
  obtain rfl : m = m' := Memory.ext_get hw hw' fun a => (hg a).trans (hg' a).symm
  have hticks := readTrace_leastTicks lo lo' hi (s.env.answers 256)
  have hlen : (readTrace lo hi (s.env.answers 256)).length = (readTrace lo' hi (s.env.answers 256)).length := by
    simpa using congrArg List.length hticks
  obtain ⟨htime, hstamp⟩ := times_congr Config.freeAdvance s.env.draws s.env.now hticks
  refine ⟨_, _, hread, hread', ?_, ?_⟩
  · simp only [Env.sent, Env.played, htime, hlen]
  · simp only [Env.sent, Env.played, List.map_append, hstamp]

/-- The unused byte of a FastDump changes nothing (R96). -/
theorem exec_fastDump_ignores_unused {s : State} (h : Ready s) (low unused unused' : Byte) :
    exec (.fastDump low unused (crc16 [selF, low, unused])) s =
      exec (.fastDump low unused' (crc16 [selF, low, unused'])) s := by
  obtain ⟨m, hw, hg, hdump⟩ := fastDumpAnswersThePage s low unused h
  obtain ⟨m', hw', hg', hdump'⟩ := fastDumpAnswersThePage s low unused' h
  obtain rfl : m = m' := Memory.ext_get hw hw' fun a => (hg a).trans (hg' a).symm
  rw [hdump, hdump']

/-- What a Write transmits, whatever its operands (R100, R104). -/
theorem exec_write_tx {s : State} (h : Ready s) (lo hi : Byte) {data : List Byte} (hd : data.length = 256) :
    ∃ t, exec (.write lo hi data (crc16 (selW :: lo :: hi :: data))) s = .next t ∧
      t.env.tx = s.env.tx ++ [0x61, 0x7E, 0xA8, 0x64, 0x6F, 0x6E, 0x65, 0xC3, 0x42] := by
  obtain ⟨m, -, -, hwrite⟩ := writeProgramsAndAnswersDone s lo hi data h hd
  exact ⟨_, hwrite, List.append_assoc ..⟩

/-- Settles O56: the whole next states of O2 to O4 with one operand changed. -/
theorem ignoredOperandsHaveNoEffect : Obligations.IgnoredOperandsHaveNoEffect := by
  unfold Obligations.IgnoredOperandsHaveNoEffect
  intro s lo lo' hi h
  refine ⟨exec_read_ignores_addrLo h lo lo' hi, exec_fastDump_ignores_unused h hi lo lo',
    fun hi' data data' hd hd' => ?_⟩
  obtain ⟨t, hwrite, htx⟩ := exec_write_tx h lo hi hd
  obtain ⟨t', hwrite', htx'⟩ := exec_write_tx h lo' hi' hd'
  exact ⟨t, t', hwrite, hwrite', htx.trans htx'.symm, htx⟩

end Sys2Proof.Machine

/-! PROOFS. The statements of 30_encoding.md: the decoder and the encoder, the responses, the Identify, and requests
whose bytes arrive inside a frame or one at a time. -/

namespace Sys2Proof.Machine

/-! ### The decoder reads what the encoder writes (R91 to R105) -/

/-- No selector is a well-formed unrecognized one (R105). -/
theorem Cmd.unrecognized_selector_wellFormed (c : Cmd) : (Instr.unrecognized c.selector).WellFormed = false := by
  cases c <;> rfl

/-- A byte selects nothing exactly when it is a well-formed unrecognized selector (R105). -/
theorem selectorOf_eq_none_iff (b : Byte) : selectorOf b = none ↔ (Instr.unrecognized b).WellFormed = true := by
  constructor
  · intro h
    have hne (c : Cmd) : b ≠ c.selector := by
      rintro rfl
      rw [selectorOf_selector] at h
      cases h
    simp only [Instr.WellFormed, Bool.and_eq_true, bne_iff_ne]
    exact ⟨⟨⟨hne .identify, hne .read⟩, hne .write⟩, hne .fastDump⟩
  · intro h
    cases hs : selectorOf b with
    | none => rfl
    | some c =>
      rw [selectorOf_eq_some hs, Cmd.unrecognized_selector_wellFormed] at h
      cases h

/-- A byte that selects nothing is a request by itself (R105). -/
theorem decodeRequest_unrecognized {b : Byte} (h : selectorOf b = none) (bs : List Byte) :
    decodeRequest (b :: bs) = .ok (.unrecognized b, bs) := by
  simp only [decodeRequest, h]

/-- The decoder on an IDENTIFY frame (R93). -/
theorem decodeRequest_identify (cl ch : Byte) (rest : List Byte) :
    decodeRequest (selI :: cl :: ch :: rest) = .ok (.identify (ofLoHi cl ch), rest) := rfl

/-- The decoder on a READ frame (R94). -/
theorem decodeRequest_read (lo hi cl ch : Byte) (rest : List Byte) :
    decodeRequest (selR :: lo :: hi :: cl :: ch :: rest) = .ok (.read lo hi (ofLoHi cl ch), rest) := rfl

/-- The decoder on a FASTDUMP frame (R96). -/
theorem decodeRequest_fastDump (low unused cl ch : Byte) (rest : List Byte) :
    decodeRequest (selF :: low :: unused :: cl :: ch :: rest) = .ok (.fastDump low unused (ofLoHi cl ch), rest) := rfl

/-- A WRITE is read once its page and CRC are (R95). -/
theorem decodeRequest_write {lo hi : Byte} {data more rest : List Byte} {crc : Word}
    (h : splitPage more = some (data, crc, rest)) :
    decodeRequest (selW :: lo :: hi :: more) = .ok (.write lo hi data crc, rest) := by
  have hs : selectorOf selW = some .write := rfl
  simp only [decodeRequest, hs, h]

/-- Without its page and CRC there is no WRITE (R95, R107). -/
theorem decodeRequest_write_incomplete (lo hi : Byte) {more : List Byte} (h : splitPage more = none) :
    decodeRequest (selW :: lo :: hi :: more) = .error .incomplete := by
  have hs : selectorOf selW = some .write := rfl
  simp only [decodeRequest, hs, h]

/-- The decoder on an ERR frame (R101). -/
theorem decodeVerdict_err (cl ch : Byte) (rest : List Byte) :
    decodeVerdict (rspErr :: cl :: ch :: rest) = .ok (.err (ofLoHi cl ch), rest) := rfl

/-- The IDENT frame is read where it stands at the front (R102). -/
theorem decodeIdent_append (rest : List Byte) : decodeIdent (identFrame ++ rest) = .ok (.ident, rest) := by
  rw [decodeIdent, List.take_left, if_pos rfl, List.drop_left]

/-- A PAGE is read once its page and CRC are (R103). -/
theorem decodePage_of_splitPage {data bs rest : List Byte} {crc : Word} (h : splitPage bs = some (data, crc, rest)) :
    decodePage bs = .ok (.page data crc, rest) := by
  rw [decodePage, h]

/-- The DONE frame is read where it stands at the front (R104). -/
theorem decodeDone_append (rest : List Byte) : decodeDone (doneFrame ++ rest) = .ok (.done, rest) := by
  rw [decodeDone, List.take_left, if_pos rfl, List.drop_left]

/-- Settles O22, an instruction each; only the two with a page and the unrecognized selector need to be well-formed. -/
theorem decodeOfEncodeIsTheInstruction : Obligations.DecodeOfEncodeIsTheInstruction := by
  unfold Obligations.DecodeOfEncodeIsTheInstruction
  intro i rest hwf
  cases i with
  | identify crc => exact (decodeRequest_identify _ _ rest).trans (by rw [ofLoHi_lo_hi])
  | read lo hi crc => exact (decodeRequest_read lo hi _ _ rest).trans (by rw [ofLoHi_lo_hi])
  | write lo hi data crc => exact decodeRequest_write (splitPage_append data crc rest (eq_of_beq hwf))
  | fastDump low unused crc => exact (decodeRequest_fastDump low unused _ _ rest).trans (by rw [ofLoHi_lo_hi])
  | ack => rfl
  | err computed => exact (decodeVerdict_err _ _ rest).trans (by rw [ofLoHi_lo_hi])
  | ident => exact decodeIdent_append rest
  | page data crc => exact decodePage_of_splitPage (splitPage_append data crc rest (eq_of_beq hwf))
  | done => exact decodeDone_append rest
  | unrecognized b => exact decodeRequest_unrecognized ((selectorOf_eq_none_iff b).mpr hwf) rest

/-! ### The length of a request (R107) -/

/-- A selector with fewer bytes after it than it announces (R107). -/
theorem decodeRequest_incomplete {c : Cmd} {bs : List Byte} (h : bs.length < c.len.toNat) :
    decodeRequest (c.selector :: bs) = .error .incomplete := by
  cases c with
  | identify =>
    match bs, h with
    | [], _ | [_], _ => rfl
  | read =>
    match bs, h with
    | [], _ | [_], _ | [_, _], _ | [_, _, _], _ => rfl
  | write =>
    match bs, h with
    | [], _ | [_], _ => rfl
    | lo :: hi :: more, h =>
      exact decodeRequest_write_incomplete lo hi
        (splitPage_eq_none (Nat.lt_of_succ_lt_succ (Nat.lt_of_succ_lt_succ h)))
  | fastDump =>
    match bs, h with
    | [], _ | [_], _ | [_, _], _ | [_, _, _], _ => rfl

/-- A selector with at least the bytes it announces after it: those bytes are the request's (R107). -/
theorem decodeRequest_complete {c : Cmd} {bs : List Byte} (h : c.len.toNat ≤ bs.length) :
    ∃ i, decodeRequest (c.selector :: bs) = .ok (i, bs.drop c.len.toNat) := by
  cases c with
  | identify =>
    match bs, h with
    | cl :: ch :: rest, _ => exact ⟨_, decodeRequest_identify cl ch rest⟩
  | read =>
    match bs, h with
    | lo :: hi :: cl :: ch :: rest, _ => exact ⟨_, decodeRequest_read lo hi cl ch rest⟩
  | write =>
    match bs, h with
    | lo :: hi :: more, h =>
      obtain ⟨data, crc, rest, hmore⟩ := splitPage_isSome (Nat.le_of_succ_le_succ (Nat.le_of_succ_le_succ h))
      obtain ⟨hlen, rfl⟩ := splitPage_eq_some hmore
      have hdrop : (lo :: hi :: (data ++ le16 crc ++ rest)).drop Cmd.write.len.toNat = rest :=
        List.drop_left' (l₁ := data ++ le16 crc) (by simp [hlen, pageSize])
      exact ⟨.write lo hi data crc, by rw [hdrop]; exact decodeRequest_write hmore⟩
  | fastDump =>
    match bs, h with
    | low :: unused :: cl :: ch :: rest, _ => exact ⟨_, decodeRequest_fastDump low unused cl ch rest⟩

/-- Settles O24: a byte that selects nothing is a request; a selector waits for the bytes it announces. -/
theorem requestLengthComesFromTheSelector : Obligations.RequestLengthComesFromTheSelector := by
  unfold Obligations.RequestLengthComesFromTheSelector
  refine ⟨rfl, fun b bs => ⟨fun h => decodeRequest_unrecognized h bs, fun c h => ?_⟩⟩
  obtain rfl := selectorOf_eq_some h
  exact ⟨decodeRequest_incomplete, decodeRequest_complete⟩

/-! ### What the decoder accepts is well-formed (R91 to R105) -/

/-- A request that begins with a selector leaves the bytes after those the selector announces (R107). -/
theorem decodeRequest_rest {c : Cmd} {bs rest : List Byte} {i : Instr}
    (h : decodeRequest (c.selector :: bs) = .ok (i, rest)) : rest.length + c.len.toNat = bs.length := by
  rcases Nat.lt_or_ge bs.length c.len.toNat with hshort | hlong
  · rw [decodeRequest_incomplete hshort] at h
    cases h
  · obtain ⟨j, hj⟩ := decodeRequest_complete hlong
    rw [hj] at h
    cases h
    rw [List.length_drop]
    omega

/-- An accepted request is well-formed: the length its selector announces gives a WRITE its page, and leaves no selector
a request by itself (R95, R105). -/
theorem decodeRequest_wellFormed {bs rest : List Byte} {i : Instr} (h : decodeRequest bs = .ok (i, rest)) :
    i.WellFormed = true := by
  obtain ⟨hp, rfl⟩ := decodeRequest_bytes h
  cases i with
  | identify _ | read _ _ _ | fastDump _ _ _ => rfl
  | write lo hi data crc =>
    have hlen : rest.length + 260 = (lo :: hi :: (data ++ le16 crc ++ rest)).length :=
      decodeRequest_rest (c := .write) h
    simp only [List.length_cons, List.length_append, le16_length] at hlen
    exact beq_of_eq (show data.length = 256 by omega)
  | unrecognized b =>
    cases hs : selectorOf b with
    | none => exact (selectorOf_eq_none_iff b).mp hs
    | some c =>
      obtain rfl := selectorOf_eq_some hs
      have hlen : rest.length + c.len.toNat = rest.length := decodeRequest_rest h
      have := (Cmd.len_bounds c).1
      omega
  | ack | err _ | ident | page _ _ | done => cases hp

/-- An accepted verdict is an ACK or an ERR, read from its own bytes (R100, R101). -/
theorem decodeVerdict_eq_ok {bs rest : List Byte} {i : Instr} (h : decodeVerdict bs = .ok (i, rest)) :
    i.WellFormed = true ∧ i.position = .verdict ∧ encode i ++ rest = bs := by
  unfold decodeVerdict at h
  split at h
  · split at h
    · rename_i hack
      obtain ⟨rfl, rfl, rfl⟩ := hack
      cases h
      exact ⟨rfl, rfl, rfl⟩
    · split at h
      · rename_i herr
        subst herr
        cases h
        exact ⟨rfl, rfl, by simp [encode, le16]⟩
      · cases h
  all_goals cases h

/-- An accepted IDENT is read from its own bytes (R102). -/
theorem decodeIdent_eq_ok {bs rest : List Byte} {i : Instr} (h : decodeIdent bs = .ok (i, rest)) :
    i = .ident ∧ identFrame ++ rest = bs := by
  unfold decodeIdent at h
  split at h
  · rename_i hfront
    cases h
    exact ⟨rfl, List.prefix_iff_eq_append.mp (List.prefix_iff_eq_take.mpr hfront.symm)⟩
  · cases h

/-- An accepted PAGE carries a page and is read from its own bytes (R103). -/
theorem decodePage_eq_ok {bs rest : List Byte} {i : Instr} (h : decodePage bs = .ok (i, rest)) :
    ∃ data crc, i = .page data crc ∧ data.length = pageSize ∧ data ++ le16 crc ++ rest = bs := by
  unfold decodePage at h
  split at h
  · rename_i hsplit
    cases h
    exact ⟨_, _, rfl, splitPage_eq_some hsplit⟩
  · cases h

/-- An accepted DONE is read from its own bytes (R104). -/
theorem decodeDone_eq_ok {bs rest : List Byte} {i : Instr} (h : decodeDone bs = .ok (i, rest)) :
    i = .done ∧ doneFrame ++ rest = bs := by
  unfold decodeDone at h
  split at h
  · rename_i hfront
    cases h
    exact ⟨rfl, List.prefix_iff_eq_append.mp (List.prefix_iff_eq_take.mpr hfront.symm)⟩
  · cases h

/-- Settles O23, a position each. -/
theorem encodeOfDecodeIsTheBytes : Obligations.EncodeOfDecodeIsTheBytes := by
  unfold Obligations.EncodeOfDecodeIsTheBytes
  intro p bs rest i h
  cases p with
  | request => exact ⟨decodeRequest_wellFormed h, decodeRequest_bytes h⟩
  | verdict => exact decodeVerdict_eq_ok h
  | afterIdentify =>
    obtain ⟨rfl, hbytes⟩ := decodeIdent_eq_ok h
    exact ⟨rfl, rfl, hbytes⟩
  | afterRead =>
    obtain ⟨data, crc, rfl, hlen, hbytes⟩ := decodePage_eq_ok h
    exact ⟨beq_of_eq hlen, rfl, hbytes⟩
  | afterWrite =>
    obtain ⟨rfl, hbytes⟩ := decodeDone_eq_ok h
    exact ⟨rfl, rfl, hbytes⟩

/-- Settles O25: the decoder is run on each of the words. -/
theorem sampleWordsDecode : Obligations.SampleWordsDecode := by
  unfold Obligations.SampleWordsDecode
  exact ⟨rfl, rfl, rfl, rfl, rfl, rfl, by decide⟩

/-! ### The responses (R100 to R104) -/

/-- Going on with a processing that has nothing left to do puts the block in Idle (R153). -/
theorem resume_of_none {s : State} (hq : s.seq = Seq.none) (hp : s.env.Prompt) :
    resume s = { s with fstate := .idle, busy := false } := by
  rw [resume_uncut s hp]
  cases s
  cases hq
  rfl

/-- A response whose operations send `bs` and leave the accumulator at `c`: the processing goes on after them, and with
nothing left to do the block is in Idle (R153). -/
theorem exec_response {i : Instr} {ops : List SeqOp} {bs : List Byte} {c : Word} {s : State}
    (hexec : exec i s = .next (respond ops s)) (hp : s.env.Prompt)
    (hrun : runOps ops { s with busy := true } = { s with busy := true, crc := c, env := s.env.sent bs }) :
    exec i s = .next (resume { s with busy := true, crc := c, env := s.env.sent bs }) ∧
      (s.seq = Seq.none →
        exec i s = .next { s with fstate := .idle, busy := false, crc := c, env := s.env.sent bs }) := by
  rw [hexec, respond_eq_resume ops s hp, hrun]
  exact ⟨rfl, fun hq => congrArg _ (resume_of_none hq ⟨hp.uncut, hp.ready⟩)⟩

/-- Settles O7, by `runOps_ackOps`. -/
theorem ackSendsThreeConstants : Obligations.AckSendsThreeConstants := by
  unfold Obligations.AckSendsThreeConstants
  exact fun s hp => exec_response rfl hp (runOps_ackOps _)

/-- Settles O8, by `runOps_errOps`. -/
theorem errSendsItsOperand : Obligations.ErrSendsItsOperand := by
  unfold Obligations.ErrSendsItsOperand
  exact fun s c hp => exec_response rfl hp (runOps_errOps c _)

/-- Settles O9: IDENT is the string as a literal response. -/
theorem identSendsTheStringAndItsCrc : Obligations.IdentSendsTheStringAndItsCrc := by
  unfold Obligations.IdentSendsTheStringAndItsCrc
  exact fun s hp => exec_response rfl hp (runOps_literalOps Config.identString _)

/-- Settles O10, by `runOps_pageFrameOps`. -/
theorem pageSendsItsOperands : Obligations.PageSendsItsOperands := by
  unfold Obligations.PageSendsItsOperands
  exact fun s page crc hp => exec_response rfl hp (runOps_pageFrameOps page crc _)

/-- `"done"` as a literal response: its CRC is the one the opcode table fixes (R104, R194). -/
theorem runOps_doneOps (s : State) :
    runOps doneOps s = { s with crc := 0x42C3, env := s.env.sent [0x64, 0x6F, 0x6E, 0x65, 0xC3, 0x42] } := by
  rw [doneOps, runOps_literalOps, crc16_doneLit]
  rfl

/-- Settles O11, by `runOps_doneOps`. -/
theorem doneSendsTheLiteral : Obligations.DoneSendsTheLiteral := by
  unfold Obligations.DoneSendsTheLiteral
  exact fun s hp => exec_response rfl hp (runOps_doneOps _)

/-! ### Identify (R93, R151, R192) -/

/-- The two bytes of a word by their offset (R64). -/
theorem le16_getD (v : Word) (a : Nat) :
    (le16 v).getD a 0 = if a = 0 then loByte v else if a = 1 then hiByte v else 0 := by
  match a with
  | 0 | 1 | _ + 2 => rfl

/-- Settles O1: the frame is answered by ACK (`receiveFrame_match`), and the handler is the string as a literal
response. -/
theorem identifyAnswersTheString : Obligations.IdentifyAnswersTheString := by
  unfold Obligations.IdentifyAnswersTheString
  intro s h
  obtain ⟨hw, hg⟩ := acked_buf .identify [] s rfl
  refine ⟨_, hw, fun a => (hg a).trans (le16_getD _ a), (receiveFrame_match .identify [] h rfl).trans ?_⟩
  have hops : (handlerPhases .identify).flatMap Phase.ops = literalOps Config.identString := List.append_nil _
  have hacked : (s.acked .identify []).env = s.env.sent [0x61, 0x7E, 0xA8] := rfl
  rw [hops, runOps_literalOps, hacked, Env.sent_sent, ← List.append_assoc]
  rfl

/-! ### A request inside a frame (R106, R297) -/

/-- Settles O20: none of the bytes completes the frame, so each is stored and, in the payload, folded
(`takeBytes_more`). -/
theorem selectorsInsideAFrameAreData : Obligations.SelectorsInsideAFrameAreData := by
  unfold Obligations.SelectorsInsideAFrameAreData
  intro s i hi hb hf hu hp hlt
  obtain ⟨-, he⟩ := (hi.frame hf (State.quiet_of_not_busy hb)).count
  obtain ⟨h2, hc⟩ := Cmd.len_bounds s.cmd
  rw [← he] at h2 hc
  obtain ⟨hw, hg⟩ := Memory.putAll_spec s.receivedLen.toNat (encode i) hi.bufWf (by omega)
  refine ⟨_, hw, hg, ?_⟩
  rw [exec_request hp, receiveFrame]
  exact takeBytes_more (encode i) s.env.rx (s.setRx (encode i ++ s.env.rx)) hf hb hu hi.bufWf h2 hc hlt rfl

/-! ### Bytes that arrive one at a time (R140; log 3) -/

theorem doOp_setRx (o : SeqOp) (rx : List Byte) (s : State) : doOp o (s.setRx rx) = (doOp o s).setRx rx := by
  cases o <;> rfl

/-- No operation reads the bytes offered. -/
theorem runOps_setRx (os : List SeqOp) (rx : List Byte) (s : State) :
    runOps os (s.setRx rx) = (runOps os s).setRx rx := by
  induction os generalizing s with
  | nil => rfl
  | cons o os ih => simp [doOp_setRx, ih]

/-- With an environment that holds up nothing the processing of a byte runs to its end, and it does not read the bytes
offered after it. -/
theorem rxByte_setRx (b : Byte) {s : State} (hi : Inv s) (hb : s.busy = false) (hp : s.env.Prompt) :
    ∃ t : State, t.busy = false ∧ t.env.Prompt ∧ t.env.rst = s.env.rst ∧
      ∀ rx, rxByte b (s.setRx rx) = .next (t.setRx rx) := by
  by_cases hl : s.fstate = .assembling ∧ s.receivedLen.toNat + 1 = s.expectedLen.toNat
  · obtain ⟨x, -, hx⟩ := rxByte_frame b hi hb hl.1 hl.2
    refine ⟨finish (runOps x.seq.ops (x.setEnv s.env)), rfl, ⟨by simpa using hp.uncut, by simpa using hp.ready⟩,
      by simp, fun rx => (hx { s.env with rx := rx }).trans ?_⟩
    show Host.Outcome.next (resume ((x.setEnv s.env).setRx rx)) = _
    rw [resume_uncut ((x.setEnv s.env).setRx rx) ⟨hp.uncut, hp.ready⟩, State.setRx_seq, runOps_setRx]
    rfl
  · obtain ⟨x, -, hx⟩ := rxByte_noFrame b hi hb fun hf hl' => hl ⟨hf, hl'⟩
    refine ⟨{ x.setEnv s.env with busy := false }, rfl, hp, rfl, fun rx => (hx { s.env with rx := rx }).trans ?_⟩
    rw [settle_uncut (by exact hp.uncut)]
    rfl

/-- One byte offered to a block that was offered none is accepted in one step, and nothing more happens. -/
theorem step_single {b : Byte} {s t : State} (hr : s.env.rst = false) (hb : s.busy = false)
    (h : rxByte b (s.setRx []) = .next (t.setRx [])) : step (s.setRx [b]) = .next (t.setRx []) := by
  obtain ⟨k, hstep⟩ := step_offered (s := s.setRx [b]) (rest := []) hr hb rfl
  have hbyte : rxByte b ((s.setRx [b]).setRx []) = .next (t.setRx []) := h
  rw [hstep, hbyte, andThen_next, takeBytes_nil k rfl]

/-- Bytes that arrive one at a time end where the same bytes end that are all offered at once: each is accepted, and
none of them reads what is offered after it (`rxByte_setRx`). -/
theorem arriveSingly_eq_takeBytes (bs : List Byte) {s : State} (hi : Inv s) (hb : s.busy = false)
    (hp : s.env.Prompt) (hr : s.env.rst = false) :
    arriveSingly bs (s.setRx []) = takeBytes bs.length (s.setRx bs) := by
  induction bs generalizing s with
  | nil => rfl
  | cons b bs ih =>
    obtain ⟨t, htb, htp, htr, hbyte⟩ := rxByte_setRx b hi hb hp
    have hti : Inv t := by
      obtain ⟨u, hu, hui⟩ := rxByte_inv b (inv_setRx hi []) hb
      rw [hbyte] at hu
      cases hu
      exact inv_setRx hui t.env.rx
    have hstep : step ((s.setRx []).offer [b]) = .next (t.setRx []) := step_single hr hb (hbyte [])
    have htake : takeBytes (b :: bs).length (s.setRx (b :: bs)) = takeBytes bs.length (t.setRx bs) := by
      have hfirst : rxByte b ((s.setRx (b :: bs)).setRx bs) = .next (t.setRx bs) := hbyte bs
      rw [List.length_cons, takeBytes_cons (s := s.setRx (b :: bs)) bs.length hb rfl, hfirst, andThen_next]
    rw [arriveSingly, hstep, andThen_next, ih hti htb htp (htr.trans hr), htake]

/-- Settles O47: a request is the arrival of its bytes, and those are accepted alike one at a time. -/
theorem byteByByteArrivalEqualsTheWholeFrame : Obligations.ByteByByteArrivalEqualsTheWholeFrame := by
  unfold Obligations.ByteByByteArrivalEqualsTheWholeFrame
  intro s i h hi hr hrx _ hpos
  have hs : s.setRx [] = s := by rw [← hrx]; rfl
  rw [exec_request hpos, receiveFrame, hrx, List.append_nil,
    ← arriveSingly_eq_takeBytes (encode i) hi h.notBusy h.prompt hr, hs]

end Sys2Proof.Machine

/-! PROOFS. The statements of 40_crc16.md: the update step as a linear map, its table form, what a sequence with its CRC
gives, and the operations on the accumulator. -/

namespace Sys2Proof.Machine

/-! ### One shift (R122) -/

/-- Bit 15 of the polynomial is set and a right shift clears it, so the bit shifted out comes back there. -/
theorem crcShift_getLsbD_top (x : Word) : (crcShift x).getLsbD 15 = x.getLsbD 0 := by
  unfold crcShift
  split
  case isTrue h => simp [crcPolyR, h]
  case isFalse h => simpa using h

/-- A shift is linear: the polynomial enters for each operand whose bit shifted out is 1, and entering twice cancels. -/
theorem crcShift_xor (x y : Word) : crcShift (x ^^^ y) = crcShift x ^^^ crcShift y := by
  have hcancel : (x >>> 1 ^^^ crcPolyR) ^^^ (y >>> 1 ^^^ crcPolyR) = x >>> 1 ^^^ y >>> 1 := by
    rw [BitVec.xor_assoc, ← BitVec.xor_assoc crcPolyR, BitVec.xor_comm crcPolyR, BitVec.xor_assoc, BitVec.xor_self,
      BitVec.xor_zero]
  simp only [crcShift, BitVec.getLsbD_xor, BitVec.ushiftRight_xor_distrib]
  cases x.getLsbD 0 <;> cases y.getLsbD 0
  · rfl
  · exact BitVec.xor_assoc ..
  · show _ = (x >>> 1 ^^^ crcPolyR) ^^^ y >>> 1
    ac_rfl
  · exact hcancel.symm

/-- A shift loses nothing: the result tells the bit shifted out (`crcShift_getLsbD_top`), so the polynomial can be taken
out again. -/
theorem crcShift_injective : Function.Injective crcShift := by
  intro x y h
  have hlow : x.getLsbD 0 = y.getLsbD 0 := by rw [← crcShift_getLsbD_top, h, crcShift_getLsbD_top]
  have hrest : x >>> 1 = y >>> 1 := by
    unfold crcShift at h
    rw [hlow] at h
    split at h
    · exact (BitVec.xor_left_inj _).mp h
    · exact h
  refine BitVec.eq_of_getLsbD_eq fun i _ => ?_
  cases i with
  | zero => exact hlow
  | succ i => simpa [Nat.add_comm] using congrArg (BitVec.getLsbD · i) hrest

/-! ### Eight shifts (R122) -/

/-- The update step with its shifts as an iteration. -/
theorem crcUpdate_eq_iterate (c : Word) (b : Byte) : crcUpdate c b = crcShift^[8] (c ^^^ b.setWidth 16) := rfl

theorem crcShift_iterate_xor (n : Nat) (x y : Word) : crcShift^[n] (x ^^^ y) = crcShift^[n] x ^^^ crcShift^[n] y := by
  induction n with
  | zero => rfl
  | succ n ih => simp only [Function.iterate_succ_apply', ih, crcShift_xor]

/-- While the bits shifted out are 0 the polynomial does not enter. -/
theorem crcShift_iterate_of_low_zero (n : Nat) (x : Word) (h : ∀ i < n, x.getLsbD i = false) :
    crcShift^[n] x = x >>> n := by
  induction n with
  | zero => simp
  | succ n ih =>
    have hbit : (x >>> n).getLsbD 0 = false := by simpa using h n n.lt_succ_self
    rw [Function.iterate_succ_apply', ih fun i hi => h i (by omega), crcShift, hbit, BitVec.shiftRight_add]
    rfl

/-- A byte that enters reaches the low half only. -/
theorem setWidth_ushiftRight_eight (b : Byte) : b.setWidth 16 >>> 8 = 0#16 := by
  ext i hi
  simp

/-- Eight shifts move the high byte down unchanged and add what the low byte alone gives. -/
theorem crcShift_iterate_eight (x : Word) :
    crcShift^[8] x = (x >>> 8) ^^^ crcShift^[8] ((loByte x).setWidth 16) := by
  have hlow : ∀ i < 8, (x ^^^ (loByte x).setWidth 16).getLsbD i = false := fun i hi => by
    simp [loByte, hi, show i < 16 by omega]
  calc crcShift^[8] x
      = crcShift^[8] ((x ^^^ (loByte x).setWidth 16) ^^^ (loByte x).setWidth 16) := by
        rw [BitVec.xor_assoc, BitVec.xor_self, BitVec.xor_zero]
    _ = (x >>> 8) ^^^ crcShift^[8] ((loByte x).setWidth 16) := by
        rw [crcShift_iterate_xor, crcShift_iterate_of_low_zero 8 _ hlow, BitVec.ushiftRight_xor_distrib,
          setWidth_ushiftRight_eight, BitVec.xor_zero]

/-! ### The table form (R123) -/

/-- An entry of the table: the eight shifts of the byte alone. -/
theorem crcUpdate_zero (b : Byte) : crcUpdate 0 b = crcShift^[8] (b.setWidth 16) :=
  congrArg crcShift^[8] BitVec.zero_xor

/-- Settles O34: the high half is moved down unchanged (`crcShift_iterate_eight`), and no byte enters there. -/
theorem crcTableForm : Obligations.CrcTableForm := by
  unfold Obligations.CrcTableForm
  intro c b
  rw [crcUpdate_eq_iterate, crcShift_iterate_eight, BitVec.ushiftRight_xor_distrib, setWidth_ushiftRight_eight,
    BitVec.xor_zero, crcUpdate_zero]
  rfl

/-! ### A sequence followed by its CRC (R127 a) -/

/-- Folding the accumulator's own low byte leaves its high byte: the table is entered at 0. -/
theorem crcUpdate_loByte (c : Word) : crcUpdate c (loByte c) = c >>> 8 := by
  have hlow : (c ^^^ (loByte c).setWidth 16).setWidth 8 = 0#8 := by
    ext i hi
    simp [loByte]
  have hzero : crcUpdate 0 0#8 = 0#16 := by decide
  rw [crcTableForm c (loByte c), hlow, hzero, BitVec.xor_zero]

/-- Settles O35: each of the two bytes is the low byte of the accumulator it meets (`crcUpdate_loByte`), so two steps
shift the whole accumulator out. -/
theorem crcResidueIsZero : Obligations.CrcResidueIsZero := by
  unfold Obligations.CrcResidueIsZero
  intro bs
  have hsecond : hiByte (crc16 bs) = loByte (crc16 bs >>> 8) := rfl
  have hout : crc16 bs >>> 8 >>> 8 = 0 := by
    ext i hi
    simp
  rw [List.append_cons, crc16_snoc, crc16_snoc, crcUpdate_loByte, hsecond, crcUpdate_loByte, hout]

/-! ### A change of one byte (R127 b) -/

/-- Bytes that differ change the accumulator differently. -/
theorem crcUpdate_injective (c : Word) : Function.Injective (crcUpdate c) := by
  intro a b h
  have hword : a.setWidth 16 = b.setWidth 16 := (BitVec.xor_right_inj c).mp (crcShift_injective.iterate 8 h)
  simpa using congrArg (BitVec.setWidth 8) hword

/-- Accumulators that differ still differ after the same bytes. -/
theorem foldl_crcUpdate_injective (bs : List Byte) : Function.Injective fun c => bs.foldl crcUpdate c := by
  induction bs with
  | nil => exact fun _ _ h => h
  | cons b bs ih => exact fun c d h => (BitVec.xor_left_inj _).mp (crcShift_injective.iterate 8 (ih h))

/-- Settles O36: the changed byte gives another accumulator (`crcUpdate_injective`), and the bytes after it keep the two
apart (`foldl_crcUpdate_injective`). -/
theorem crcSeesEverySingleByteChange : Obligations.CrcSeesEverySingleByteChange := by
  unfold Obligations.CrcSeesEverySingleByteChange
  intro pre post a b hab heq
  simp only [crc16, List.foldl_append, List.foldl_cons] at heq
  exact hab (crcUpdate_injective _ (foldl_crcUpdate_injective post heq))

/-! ### The operations on the accumulator (R121, R124, R125) -/

/-- Settles O31: `State.seedCrc` writes `crc` and reads nothing. -/
theorem seedForgetsTheAccumulator : Obligations.SeedForgetsTheAccumulator := by
  unfold Obligations.SeedForgetsTheAccumulator
  exact fun s => ⟨rfl, rfl, fun _ => rfl⟩

/-- Settles O32, by `runOps_txCrc`. -/
theorem crcIsSentLowByteFirst : Obligations.CrcIsSentLowByteFirst := by
  unfold Obligations.CrcIsSentLowByteFirst
  intro s
  refine ⟨runOps_txCrc s, fun h => ?_⟩
  rw [runOps_txCrc, h]
  rfl

/-- Updates with constants fold them in order (R122). -/
theorem runOps_crcUpdates (bs : List Byte) (s : State) :
    runOps (bs.map fun b => .crcUpdate (.lit b)) s = { s with crc := bs.foldl crcUpdate s.crc } := by
  induction bs generalizing s with
  | nil => rfl
  | cons b bs ih => exact ih (s.updateCrc b)

/-- Settles O33, by `runOps_crcUpdates` and `crc16_snoc`. -/
theorem crcOfASequenceIsIncremental : Obligations.CrcOfASequenceIsIncremental := by
  unfold Obligations.CrcOfASequenceIsIncremental
  exact ⟨fun bs s => runOps_crcUpdates bs s.seedCrc, crc16_nil, crc16_snoc⟩

end Sys2Proof.Machine

/-! PROOFS. The statements of 41_frame_assembler.md: the byte that selects nothing, the bytes of a frame in assembly,
the gate, the processing that is left, and the ACK before anything else. -/

namespace Sys2Proof.Machine

/-! ### One byte offered (R140) -/

/-- Accepting one byte is its processing. -/
theorem takeBytes_one {s : State} {b : Byte} {rest : List Byte} (hb : s.busy = false) (hrx : s.env.rx = b :: rest) :
    takeBytes 1 s = rxByte b (s.setRx rest) := by
  rw [takeBytes_cons 0 hb hrx]
  cases rxByte b (s.setRx rest) <;> rfl

/-- While a frame is assembled a step accepts one byte, whatever is offered after it (R106). -/
theorem step_assembling {s : State} {b : Byte} {rest : List Byte} (hr : s.env.rst = false) (hb : s.busy = false)
    (hf : s.fstate = .assembling) (hrx : s.env.rx = b :: rest) : step s = rxByte b (s.setRx rest) := by
  have hadv : step s = takeBytes 1 s := by simp [step, fetch, advance, hr, hb, hf]
  rw [hadv, takeBytes_one hb hrx]

/-- Settles O6: the byte is accepted (`rxByte_unrecognized`) and its event ends (`settlesTo_settle`). -/
theorem unrecognizedSelectorChangesNothing : Obligations.UnrecognizedSelectorChangesNothing := by
  unfold Obligations.UnrecognizedSelectorChangesNothing
  intro s b hwf hf hb
  have hexec : exec (.unrecognized b) s = .next (settle { s with busy := true }) :=
    (takeBytes_one (s := s.setRx ([b] ++ s.env.rx)) hb rfl).trans
      (rxByte_unrecognized hf ((selectorOf_eq_none_iff b).mpr hwf))
  have hend := settlesTo_settle hb
  exact ⟨fun hc => hexec.trans (congrArg _ (hend.1 hc)), _, hexec, hend⟩

/-! ### A byte of a frame in assembly (R147 to R149) -/

/-- The length of a frame in assembly lies between 2 and the capacity (R27, R91). -/
theorem Inv.expectedLen_bounds {s : State} (hi : Inv s) (hb : s.busy = false) (hf : s.fstate = .assembling) :
    2 ≤ s.expectedLen.toNat ∧ s.expectedLen.toNat ≤ bufCap := by
  obtain ⟨-, he⟩ := (hi.frame hf (State.quiet_of_not_busy hb)).count
  exact he ▸ Cmd.len_bounds s.cmd

/-- The count of a frame in assembly is below its length (R27). -/
theorem Inv.count_lt {s : State} (hi : Inv s) (hb : s.busy = false) (hf : s.fstate = .assembling) :
    s.receivedLen.toNat < s.expectedLen.toNat :=
  BitVec.lt_def.mp (hi.frame hf (State.quiet_of_not_busy hb)).count.1

/-- A count that stays inside the buffer does not wrap (R27). -/
theorem toNat_count_succ {n : Len} (h : n.toNat + 1 ≤ bufCap) : (n + 1).toNat = n.toNat + 1 := by
  rw [BitVec.toNat_add]
  exact Nat.mod_eq_of_lt (h.trans_lt (by decide))

/-- The buffer after an append (R147). -/
theorem Inv.append_buf {s : State} (b : Byte) (hi : Inv s) (hb : s.busy = false) (hf : s.fstate = .assembling) :
    (s.buf.put s.receivedLen.toNat b).wf ∧
      ∀ a, (s.buf.put s.receivedLen.toNat b).get a = if a = s.receivedLen.toNat then b else s.buf.get a :=
  ⟨Memory.wf_put b hi.bufWf ((hi.count_lt hb hf).trans_le (hi.expectedLen_bounds hb hf).2),
    fun a => Memory.get_put _ a b _ hi.bufWf⟩

/-- Settles O14: the byte is stored and folded (`rxByte_more`) and its event ends (`settlesTo_settle`). -/
theorem stepStoresAndFoldsAFrameByte : Obligations.StepStoresAndFoldsAFrameByte := by
  unfold Obligations.StepStoresAndFoldsAFrameByte
  intro s b rest hi hr hb hf hrx hne
  obtain ⟨h2, hc⟩ := hi.expectedLen_bounds hb hf
  have hlt : s.receivedLen.toNat + 1 < s.expectedLen.toNat := by
    have := hi.count_lt hb hf
    omega
  have hfold : isPayload s.receivedLen s.expectedLen = decide (s.receivedLen.toNat < s.expectedLen.toNat - 2) := by
    rw [isPayload_iff h2, decide_eq_decide]
    omega
  obtain ⟨hw, hg⟩ := hi.append_buf b hb hf
  refine ⟨_, hw, hg, _, (step_assembling hr hb hf hrx).trans (rxByte_more (by exact hf) hi.bufWf hlt hc), ?_⟩
  simp only [State.setRx_receivedLen, State.setRx_expectedLen, hfold, decide_eq_true_eq]
  exact settlesTo_settle (by exact hb)

/-! ### What a verdict runs (R150 to R153, R180) -/

/-- Settles O13: what is left of the processing runs and ends (`step_prompt`), and no operation moves what the end
reads. -/
theorem stepFinishesTheProcessing : Obligations.StepFinishesTheProcessing := by
  unfold Obligations.StepFinishesTheProcessing
  intro s hr hb hp
  rw [step_prompt hr hb hp, finish, runOps_seq, runOps_fstate]

theorem doOp_enter (o : SeqOp) (q : Seq) (s : State) : doOp o (s.enter q) = (doOp o s).enter q := by
  cases o <;> rfl

/-- No operation reads whether a byte is in process, nor the position. -/
theorem runOps_enter (os : List SeqOp) (q : Seq) (s : State) : runOps os (s.enter q) = (runOps os s).enter q := by
  induction os generalizing s with
  | nil => rfl
  | cons o os ih => rw [runOps_cons, doOp_enter, ih, runOps_cons]

/-- With nothing held up the phases run to their end and the block is in Idle (R153). -/
theorem startPhases_prompt (ps : List Phase) {s : State} (hp : s.env.Prompt) :
    startPhases ps s =
      { runOps (ps.flatMap Phase.ops) s with fstate := .idle, busy := false, seq := Seq.none } := by
  rw [startPhases, resume_uncut (s.enter _) hp, runOps_enter]
  rfl

/-! ### A whole frame with a wrong CRC (R152, R262) -/

/-- A whole frame with a wrong CRC, with nothing held up, is answered by the ERR, and the block is in Idle again. -/
theorem receiveFrame_mismatch (c : Cmd) (body : List Byte) {v : Word} {s : State} (h : Ready s)
    (hlen : body.length + 2 = c.len.toNat) (hv : v ≠ crc16 (c.selector :: body)) :
    receiveFrame (c.selector :: (body ++ le16 v)) s =
      .next { s.assembled c body v with
        fstate := s.fstate
        busy := false
        seq := Seq.none
        env := s.env.sent (rspErr :: le16 (crc16 (c.selector :: body))) } := by
  have hops : (mismatchPhases (crc16 (c.selector :: body))).flatMap Phase.ops = errOps (crc16 (c.selector :: body)) :=
    List.append_nil _
  rw [receiveFrame_frame c body v s h.idle h.notBusy h.prompt.uncut hlen, if_neg hv,
    startPhases_prompt _ (by exact h.prompt), hops, runOps_errOps, h.idle]
  rfl

/-- Settles O5: the frame of each command is `receiveFrame_mismatch` with its payload. -/
theorem mismatchAnswersErr : Obligations.MismatchAnswersErr := by
  unfold Obligations.MismatchAnswersErr
  intro s v h after errs
  have hframe (i : Instr) (c : Cmd) (body : List Byte) (hlen : body.length + 2 = c.len.toNat)
      (hexec : exec i s = receiveFrame (c.selector :: (body ++ le16 v)) s) : errs i c body := by
    intro hv
    obtain ⟨hw, hg⟩ := assembled_buf c body v hlen
    exact ⟨_, hw, hg, hexec.trans (receiveFrame_mismatch c body h hlen hv)⟩
  refine ⟨hframe _ _ _ rfl rfl, fun lo hi => hframe _ _ _ rfl rfl, fun lo hi data hd => hframe _ _ _ ?_ rfl,
    fun low unused => hframe _ _ _ rfl rfl⟩
  rw [List.length_cons, List.length_cons, hd]
  rfl

/-! ### The byte that completes a frame (R149 to R154) -/

/-- The byte that completes a frame begins the verdict on it: the received CRC is the last two bytes, the computed one
the accumulator (R149 to R152). -/
theorem rxByte_verdict (b : Byte) {s : State} (hi : Inv s) (hb : s.busy = false) (hf : s.fstate = .assembling)
    (hlast : s.receivedLen.toNat + 1 = s.expectedLen.toNat) :
    rxByte b s = .next (startPhases
      (if ofLoHi (s.buf.get (s.expectedLen.toNat - 2)) b = s.crc then matchPhases s.cmd else mismatchPhases s.crc)
      { s with buf := s.buf.put s.receivedLen.toNat b, receivedLen := s.expectedLen }) := by
  rcases rxByte_cases b hi hb with ⟨hf', -⟩ | ⟨-, hlt, -⟩ | ⟨-, -, v, rfl, hbyte⟩
  · rw [hf] at hf'
    cases hf'
  · exact absurd hlast hlt.ne
  · exact hbyte

/-- The operations of either verdict (R151, R152). -/
theorem verdict_ops (p : Prop) [Decidable p] (c : Cmd) (computed : Word) :
    (if p then matchPhases c else mismatchPhases computed).flatMap Phase.ops =
      if p then ackOps ++ (handlerPhases c).flatMap Phase.ops else errOps computed := by
  split
  · rfl
  · exact List.append_nil _

/-- Settles O15: the byte begins the verdict (`rxByte_verdict`), where the accumulator is the invariant's CRC, and the
phases of the verdict run to their end (`startPhases_prompt`). -/
theorem completedFrameMeetsTheGate : Obligations.CompletedFrameMeetsTheGate := by
  unfold Obligations.CompletedFrameMeetsTheGate
  intro s b rest hi hr hp hb hf hrx hlast
  dsimp only
  rw [← (hi.frame hf (State.quiet_of_not_busy hb)).folded]
  obtain ⟨hw, hg⟩ := hi.append_buf b hb hf
  refine ⟨_, hw, hg, ?_⟩
  rw [step_assembling hr hb hf hrx, rxByte_verdict b (inv_setRx hi rest) hb hf hlast,
    startPhases_prompt _ (by exact ⟨hp.uncut, hp.ready⟩), verdict_ops]
  rfl

/-! ### Zero bytes (R155, R263, R297) -/

/-- The state a byte leaves meets the invariant, since there is only one (`rxByte_inv`). -/
theorem inv_of_rxByte {b : Byte} {s t : State} (hi : Inv s) (hb : s.busy = false) (h : rxByte b s = .next t) :
    Inv t := by
  obtain ⟨u, hu, hui⟩ := rxByte_inv b hi hb
  cases h.symm.trans hu
  exact hui

/-- A byte that selects nothing, with nothing held up, is processed to its end and starts no frame: if a frame is in
assembly after it, the byte is one more of it. -/
theorem rxByte_no_selector {b : Byte} (hs : selectorOf b = none) {s : State} (hi : Inv s) (hb : s.busy = false)
    (hp : s.env.Prompt) :
    ∃ t, rxByte b s = .next t ∧ Inv t ∧ t.busy = false ∧ t.env.Prompt ∧ t.env.rx = s.env.rx ∧
      (t.fstate = .assembling → s.fstate = .assembling ∧ t.receivedLen.toNat = s.receivedLen.toNat + 1 ∧
        t.expectedLen = s.expectedLen) := by
  rcases rxByte_cases b hi hb with ⟨hf, ⟨c, hc, -⟩ | ⟨-, h⟩⟩ | ⟨hf, hlt, h⟩ | ⟨-, -, v, -, h⟩
  · rw [hs] at hc
    cases hc
  · rw [settle_busy_uncut hb hp.uncut] at h
    refine ⟨s, h, hi, hb, hp, rfl, fun hf' => ?_⟩
    rw [hf] at hf'
    cases hf'
  · rw [settle_uncut (by exact hp.uncut)] at h
    have hcount := toNat_count_succ (hlt.le.trans (hi.expectedLen_bounds hb hf).2)
    exact ⟨_, h, inv_of_rxByte hi hb h, rfl, hp, rfl, fun _ => ⟨hf, hcount, rfl⟩⟩
  · rw [startPhases_prompt _ (by exact hp)] at h
    exact ⟨_, h, inv_of_rxByte hi hb h, rfl, ⟨by simpa using hp.uncut, by simpa using hp.ready⟩, by simp, nofun⟩

/-- Bytes that select nothing, with nothing held up and as many as a frame in assembly still waits for, leave the block
in Idle: the frame's missing bytes complete it, and those after them are ignored. -/
theorem takeBytes_no_selector (bs : List Byte) (hbs : ∀ b ∈ bs, selectorOf b = none) {s : State} (hi : Inv s)
    (hb : s.busy = false) (hp : s.env.Prompt) (hrx : s.env.rx = bs)
    (hlen : s.fstate = .assembling → s.expectedLen.toNat ≤ s.receivedLen.toNat + bs.length) :
    ∃ t, takeBytes bs.length s = .next t ∧ Inv t ∧ t.fstate = .idle ∧ t.busy = false := by
  induction bs generalizing s with
  | nil =>
    refine ⟨s, rfl, hi, ?_, hb⟩
    cases hf : s.fstate with
    | idle => rfl
    | assembling => exact absurd (hi.count_lt hb hf) (hlen hf).not_gt
  | cons b bs ih =>
    obtain ⟨hs, hbs⟩ := List.forall_mem_cons.mp hbs
    obtain ⟨u, hu, hui, hub, hup, hurx, huf⟩ := rxByte_no_selector hs (inv_setRx hi bs) hb ⟨hp.uncut, hp.ready⟩
    rw [List.length_cons, takeBytes_cons bs.length hb hrx, hu, andThen_next]
    refine ih hbs hui hub hup hurx fun hf => ?_
    obtain ⟨hf', hcount, he⟩ := huf hf
    have hle := hlen hf'
    rw [he, hcount]
    simp only [State.setRx_expectedLen, State.setRx_receivedLen, List.length_cons] at hle ⊢
    omega

/-- Settles O48: a byte 0x00 selects nothing, and no frame waits for more than 260 bytes. -/
theorem zeroBytesEndAStall : Obligations.ZeroBytesEndAStall := by
  unfold Obligations.ZeroBytesEndAStall
  intro s hi hb hf hr hrx hp
  have hs : s.setRx [] = s := by rw [← hrx]; rfl
  have hcap : s.expectedLen.toNat ≤ 260 := (hi.expectedLen_bounds hb hf).2
  have hzero : ∀ b ∈ List.replicate 260 (0x00 : Byte), selectorOf b = none :=
    fun b hb => List.eq_of_mem_replicate hb ▸ rfl
  obtain ⟨t, ht, hti, htf, htb⟩ := takeBytes_no_selector (s := s.setRx (List.replicate 260 0x00)) _ hzero
    (inv_setRx hi _) hb ⟨hp.uncut, hp.ready⟩ rfl fun _ => by
      rw [List.length_replicate]
      exact hcap.trans (Nat.le_add_left _ _)
  refine ⟨t, ?_, htf, htb, (hti.idleSafe htb).1⟩
  rw [← hs, arriveSingly_eq_takeBytes _ hi hb hp hr, ht]

/-! ### The ACK comes first (R151, R202) -/

/-- From `s` to `t` no line moved, or the three bytes of the ACK are the first on the transmit stream. -/
def State.AckFirst (s t : State) : Prop :=
  (t.port = s.port ∧ t.env.trace = s.env.trace) ∨ ∃ more, t.env.tx = s.env.tx ++ [0x61, 0x7E, 0xA8] ++ more

theorem State.AckFirst.refl (s : State) : s.AckFirst s := .inl ⟨rfl, rfl⟩

/-- The end of a byte that completes no frame moves and sends nothing. -/
theorem State.AckFirst.of_settle {s t : State} (h : (settle s).AckFirst t) : s.AckFirst t := by
  simpa only [State.AckFirst, settle_port, settle_env] using h

/-- However far a resumption runs, it runs a beginning of what is left to do. -/
theorem resume_ackFirst {s : State} (h : ∀ n, s.AckFirst (runOps (s.seq.ops.take n) s)) : s.AckFirst (resume s) := by
  rcases resume_cases s with hr | ⟨n, -, -, hr⟩ <;> rw [hr, runOps_setCuts]
  · have hall := h s.seq.ops.length
    rw [List.take_length] at hall
    exact hall
  · exact h n

/-- A beginning of a list of transmissions of constants moves no line. -/
theorem ackFirst_txLits (bs : List Byte) (n : Nat) (s : State) :
    s.AckFirst (runOps ((bs.map fun b => .tx (.lit b)).take n) s) := by
  rw [← List.map_take, runOps_txLits]
  exact .inl ⟨rfl, rfl⟩

/-- A beginning of the processing of a frame that passes the gate ends in the ACK, or holds all of it. -/
theorem ackFirst_ackOps (os : List SeqOp) (n : Nat) (s : State) :
    s.AckFirst (runOps ((ackOps ++ os).take n) s) := by
  rw [List.take_append, runOps_append]
  rcases Nat.lt_or_ge n 3 with hn | hn
  · have hrest : os.take (n - ackOps.length) = [] := by
      rw [show n - ackOps.length = 0 from Nat.sub_eq_zero_of_le hn.le, List.take_zero]
    rw [hrest]
    exact ackFirst_txLits [rspAck, ackMagic0, ackMagic1] n s
  · rw [List.take_of_length_le (l := ackOps) hn, runOps_ackOps]
    obtain ⟨more, -, htx, -⟩ := runOps_growsTo (os.take (n - ackOps.length))
      { s with env := s.env.sent [rspAck, ackMagic0, ackMagic1] }
    exact .inr ⟨more, htx⟩

/-- Wherever the processing of a verdict pauses, the ACK comes first. -/
theorem startPhases_ackFirst (p : Prop) [Decidable p] (c : Cmd) (computed : Word) (s : State) :
    s.AckFirst (startPhases (if p then matchPhases c else mismatchPhases computed) s) := by
  refine resume_ackFirst (s := s.enter _) fun n => ?_
  rw [State.enter_seq, Seq.ops, List.nil_append, verdict_ops]
  split
  · exact ackFirst_ackOps _ n _
  · exact ackFirst_txLits (rspErr :: le16 computed) n _

/-- A frame is in assembly and `n` bytes of it are still to come; nothing else of the invariant is asked. -/
structure State.WaitsFor (n : Nat) (s : State) : Prop where
  assembling : s.fstate = .assembling
  bufWf : s.buf.wf
  lenMin : 2 ≤ s.expectedLen.toNat
  lenMax : s.expectedLen.toNat ≤ bufCap
  count : s.receivedLen.toNat + n = s.expectedLen.toNat

/-- The end of a byte that completes no frame is no part of the frame. -/
theorem State.WaitsFor.settle {n : Nat} {s : State} (h : s.WaitsFor n) : (settle s).WaitsFor n := by
  obtain ⟨hf, hw, h2, hc, hn⟩ := h
  constructor <;> simpa

/-- A selector begins a frame all of which is still to come (R141). -/
theorem waitsFor_accept (c : Cmd) (s : State) :
    State.WaitsFor c.len.toNat { accept c.selector c s with busy := true } where
  assembling := rfl
  bufWf := Memory.wf_zeroed
  lenMin := (Cmd.len_bounds c).1
  lenMax := (Cmd.len_bounds c).2
  count := Nat.zero_add _

/-- A byte that is not the last one is appended, and the frame waits for one byte less (R147, R149). -/
theorem rxByte_waitsFor_more {n : Nat} {s : State} (b : Byte) (h : s.WaitsFor (n + 2)) :
    ∃ u : State, rxByte b s = .next (settle u) ∧ u.WaitsFor (n + 1) ∧ u.port = s.port ∧ u.env = s.env := by
  obtain ⟨hf, hw, h2, hc, hn⟩ := h
  have hcount : (s.receivedLen + 1).toNat = s.receivedLen.toNat + 1 := toNat_count_succ (by omega)
  refine ⟨_, rxByte_more hf hw (by omega) hc, ⟨hf, Memory.wf_put b hw (by omega), h2, hc, ?_⟩, rfl, rfl⟩
  simp only [hcount]
  omega

/-- The last byte begins a verdict, which runs as far as the environment lets it (R149 to R152). -/
theorem rxByte_waitsFor_last {s : State} (b : Byte) (h : s.WaitsFor 1) :
    ∃ t, rxByte b s = .next t ∧ s.AckFirst t := by
  obtain ⟨hf, hw, h2, hc, hn⟩ := h
  exact ⟨_, (rxByte_last hf hw h2 hn hc).trans (gate_of_rxCrc (rxCrc_eq h2 hc)), startPhases_ackFirst _ _ _ _⟩

/-- The rest of a frame arrives: the bytes before the last move and send nothing, and the last begins the verdict. -/
theorem takeBytes_ackFirst (bs : List Byte) {rest : List Byte} {s t : State} (hs : s.WaitsFor bs.length)
    (hrx : s.env.rx = bs ++ rest) (h : takeBytes bs.length s = .next t) : s.AckFirst t := by
  induction bs generalizing s with
  | nil =>
    cases h
    exact .refl _
  | cons b bs ih =>
    cases hb : s.busy with
    | true =>
      rw [takeBytes_busy _ hb] at h
      cases h
      exact .refl _
    | false =>
      have hs' : (s.setRx (bs ++ rest)).WaitsFor (bs.length + 1) :=
        ⟨hs.assembling, hs.bufWf, hs.lenMin, hs.lenMax, hs.count⟩
      rw [List.cons_append] at hrx
      rw [List.length_cons, takeBytes_cons bs.length hb hrx] at h
      cases bs with
      | nil =>
        obtain ⟨u, hu, hack⟩ := rxByte_waitsFor_last b hs'
        rw [hu] at h
        cases h
        exact hack
      | cons b' bs =>
        obtain ⟨u, hu, hwait, hport, henv⟩ := rxByte_waitsFor_more b hs'
        rw [hu, andThen_next] at h
        have hack := (ih hwait.settle (by rw [settle_env, henv]; rfl) h).of_settle
        rw [State.AckFirst, hport, henv] at hack
        exact hack

/-- A well-formed request is a whole frame of a command, unless it is an unrecognized selector (R91, R105). -/
theorem encode_request {i : Instr} (hwf : i.WellFormed) (hp : i.position = .request) :
    (∃ (c : Cmd) (body : List Byte), encode i = c.selector :: body ∧ body.length = c.len.toNat) ∨
      ∃ b, i = .unrecognized b := by
  cases i with
  | identify crc => exact .inl ⟨.identify, _, rfl, rfl⟩
  | read lo hi crc => exact .inl ⟨.read, _, rfl, rfl⟩
  | write lo hi data crc =>
    have hd : data.length = pageSize := by simpa [Instr.WellFormed] using hwf
    exact .inl ⟨.write, _, rfl, by simp [hd, pageSize, Cmd.len, lenW]⟩
  | fastDump low unused crc => exact .inl ⟨.fastDump, _, rfl, rfl⟩
  | unrecognized b => exact .inr ⟨b, rfl⟩
  | ack | err | ident | page | done => cases hp

/-- Settles O43: a frame's selector moves and sends nothing, and the rest of the frame is `takeBytes_ackFirst`; a byte
that selects nothing changes nothing. -/
theorem ackPrecedesTheFirstChipOperation : Obligations.AckPrecedesTheFirstChipOperation := by
  unfold Obligations.AckPrecedesTheFirstChipOperation
  intro s t i hf hb hwf hp h
  show s.AckFirst t
  rcases encode_request hwf hp with ⟨c, body, hbytes, hlen⟩ | ⟨b, rfl⟩
  · rw [exec_request hp, receiveFrame, hbytes, List.length_cons,
      takeBytes_cons (s := s.setRx (c.selector :: body ++ s.env.rx)) body.length hb rfl,
      rxByte_selector (by exact hf) (selectorOf_selector c), andThen_next] at h
    exact (takeBytes_ackFirst body (hlen ▸ waitsFor_accept c _).settle (by rw [settle_env]; rfl) h).of_settle
  · obtain ⟨-, u, hu, -, hend⟩ := unrecognizedSelectorChangesNothing s b hwf hf hb
    rw [hu] at h
    cases h
    rcases hend with rfl | rfl <;> exact .refl _

end Sys2Proof.Machine

/-! PROOFS. The statements of 43_sequencer.md: a capture, a strobe, `StreamPage`, the lengths and durations of the
handlers, and the chip-port trace under every step. -/

namespace Sys2Proof.Machine

/-! ### A capture and a strobe (R187, R189) -/

/-- Settles O39: the buffer is a `Memory.put` of the answer, inside the 260 bytes, and the rest is the environment's. -/
theorem captureStoresTheBusByte : Obligations.CaptureStoresTheBusByte := by
  unfold Obligations.CaptureStoresTheBusByte
  intro s k hw d
  have hk : k.toNat < bufCap := k.isLt.trans (by decide)
  exact ⟨s.buf.put k.toNat d, (s.env.after s.port (.capture k d)).now, Memory.wf_put d hw hk,
    fun a => Memory.get_put k.toNat a d s.buf hw, by rw [Env.after_now]; omega, rfl⟩

/-- Settles O40: the strobe's address step comes first, so the latch it pulses takes the byte (`latchLo`, `latchHi`). -/
theorem strobeLoadsOneLatch : Obligations.StrobeLoadsOneLatch := by
  unfold Obligations.StrobeLoadsOneLatch
  intro s b
  have hlow : ((runOps (strobeLow (.lit b)) s).env.trace.map Event.op) =
      s.env.trace.map Event.op ++ [.setAddrLo b, .setLLE .active, .setLLE .inactive] := by
    simp [strobeLow, doOp, Src.value]
  have hhigh : ((runOps (strobeHigh (.lit b)) s).env.trace.map Event.op) =
      s.env.trace.map Event.op ++ [.setAddrLo b, .setHLE .active, .setHLE .inactive] := by
    simp [strobeHigh, doOp, Src.value]
  exact ⟨⟨rfl, rfl, rfl, hlow⟩, ⟨rfl, rfl, rfl, hhigh⟩⟩

/-! ### `StreamPage` (R190) -/

/-- Settles O41: what is sent is `runOps_streamPage`; the chip-port parts of Read and FastDump capture their answers as
the page (`captured_page`) and leave the accumulator at the CRC of the answers. -/
theorem streamPageSendsTheCapturedPage : Obligations.StreamPageSendsTheCapturedPage := by
  unfold Obligations.StreamPageSendsTheCapturedPage
  refine ⟨runOps_streamPage, fun s hw => ?_⟩
  have hpage : (captured s.buf (offsets.zip (s.env.answers 256))).firstBytes 256 = s.env.answers 256 :=
    captured_page _ hw (Env.answers_length _ _)
  constructor
  · simp only [runOps_readOps s hw, hpage]
  · simp only [runOps_fastDumpOps s hw, hpage]

/-! ### Lengths and least durations of the handlers (R198) -/

/-- The least time of a loop whose iterations all have the least time `c`. -/
theorem sum_leastTicks_flatMap {α : Type} {f : α → List MicroOp} {c : Nat}
    (h : ∀ x, ((f x).map MicroOp.leastTicks).sum = c) (xs : List α) :
    ((xs.flatMap f).map MicroOp.leastTicks).sum = xs.length * c := by
  induction xs with
  | nil => simp
  | cons x xs ih => simp [h, ih, Nat.succ_mul, Nat.add_comm]

/-- The length of a loop whose iterations all have the length `c`. -/
theorem length_flatMap_const {α : Type} {f : α → List MicroOp} {c : Nat} (h : ∀ x, (f x).length = c) (xs : List α) :
    (xs.flatMap f).length = xs.length * c := by
  simp [List.length_flatMap, h]

/-- A list of micro-operations takes at least the sum of its least times (R8, R186). -/
theorem timeAfter_ge_sum (adv : Nat → Nat) (n t : Nat) (os : List MicroOp) :
    t + (os.map MicroOp.leastTicks).sum ≤ timeAfter adv n t os := by
  induction os generalizing n t with
  | nil => exact le_rfl
  | cons o os ih =>
    have := ih (n + 1) (t + adv n + o.leastTicks)
    simp only [List.map_cons, List.sum_cons, timeAfter]
    omega

theorem zip_offsets_length {page : List Byte} (h : page.length = 256) : (offsets.zip page).length = 256 := by
  rw [List.length_zip, offsets_length, h, Nat.min_self]

theorem readTrace_leastTicks_sum (lo hi : Byte) {page : List Byte} (h : page.length = 256) :
    ((readTrace lo hi page).map MicroOp.leastTicks).sum = 256 * Config.ticksPerUs := by
  have hiter (x : Byte × Byte) : ((readIterTrace x.1 x.2).map MicroOp.leastTicks).sum = Config.ticksPerUs := by
    simp [readIterTrace, MicroOp.leastTicks]
  simp only [readTrace, List.map_append, List.sum_append, sum_leastTicks_flatMap hiter, zip_offsets_length h]
  simp [MicroOp.leastTicks]

theorem writeTrace_leastTicks_sum (lo hi : Byte) {data : List Byte} (h : data.length = 256) :
    ((writeTrace lo hi data).map MicroOp.leastTicks).sum = 28160 * Config.ticksPerUs := by
  have hiter (x : Byte × Byte) : ((writeIterTrace x.1 x.2).map MicroOp.leastTicks).sum = 110 * Config.ticksPerUs := by
    simp [writeIterTrace, MicroOp.leastTicks]
    omega
  simp only [writeTrace, List.map_append, List.sum_append, sum_leastTicks_flatMap hiter, zip_offsets_length h]
  simp [MicroOp.leastTicks]
  omega

theorem fastDumpTrace_leastTicks_sum (low : Byte) {page : List Byte} (h : page.length = 256) :
    ((fastDumpTrace low page).map MicroOp.leastTicks).sum = 256 * Config.ticksPerUs := by
  have hiter (x : Byte × Byte) : ((fastDumpIterTrace x.1 x.2).map MicroOp.leastTicks).sum = Config.ticksPerUs := by
    simp [fastDumpIterTrace, MicroOp.leastTicks]
  simp only [fastDumpTrace, List.map_append, List.sum_append, sum_leastTicks_flatMap hiter, zip_offsets_length h]
  simp [MicroOp.leastTicks]

theorem readTrace_length (lo hi : Byte) {page : List Byte} (h : page.length = 256) :
    (readTrace lo hi page).length = 1285 := by
  simp only [readTrace, List.length_append]
  rw [length_flatMap_const (c := 5) (fun _ => rfl), zip_offsets_length h]
  rfl

theorem writeTrace_length (lo hi : Byte) {data : List Byte} (h : data.length = 256) :
    (writeTrace lo hi data).length = 2055 := by
  simp only [writeTrace, List.length_append]
  rw [length_flatMap_const (c := 8) (fun _ => rfl), zip_offsets_length h]
  rfl

theorem fastDumpTrace_length (low : Byte) {page : List Byte} (h : page.length = 256) :
    (fastDumpTrace low page).length = 2313 := by
  simp only [fastDumpTrace, List.length_append]
  rw [length_flatMap_const (c := 9) (fun _ => rfl), zip_offsets_length h]
  rfl

/-- Settles O44: each trace is 256 iterations of one length and one least time, and the steps around them; time takes
at least the sum of the least times (`timeAfter_ge_sum`). -/
theorem handlerLengthsAndLeastDurations : Obligations.HandlerLengthsAndLeastDurations := by
  unfold Obligations.HandlerLengthsAndLeastDurations
  intro lo hi page adv n t h
  refine ⟨readTrace_length lo hi h, writeTrace_length lo hi h, fastDumpTrace_length lo h, ?_, ?_, ?_⟩
  · rw [← readTrace_leastTicks_sum lo hi h]
    exact timeAfter_ge_sum adv n t _
  · rw [← writeTrace_leastTicks_sum lo hi h]
    exact timeAfter_ge_sum adv n t _
  · rw [← fastDumpTrace_leastTicks_sum lo h]
    exact timeAfter_ge_sum adv n t _

/-! ### The chip-port trace under a step (R196, R240) -/

/-- The chip-port trace so far, from port state `v` on, meets V1 to V7 and ends settled with the port the block has:
`TraceInv` with nothing left to do. -/
structure State.TraceSettled (v : VState) (s : State) : Prop where
  ok : traceOk v s.env.trace = true
  port : (v.after s.env.trace).port = s.port
  settled : (v.after s.env.trace).settled s.env.now

theorem traceInv_iff (v : VState) (s : State) : TraceInv v s ↔ s.playedOut.TraceSettled v :=
  ⟨fun ⟨hok, hport, hsettled⟩ => ⟨hok, hport, hsettled⟩, fun ⟨hok, hport, hsettled⟩ => ⟨hok, hport, hsettled⟩⟩

/-- Of the state only the trace, the port and the time are read. -/
theorem State.TraceSettled.congr {v : VState} {s t : State} (h : s.TraceSettled v) (htrace : t.env.trace = s.env.trace)
    (hport : t.port = s.port) (hnow : t.env.now = s.env.now) : t.TraceSettled v := by
  refine ⟨?_, ?_, ?_⟩
  · rw [htrace]
    exact h.ok
  · rw [htrace, hport]
    exact h.port
  · rw [htrace, hnow]
    exact h.settled

theorem State.playedOut_rest {s : State} (h : s.seq.ops = []) : s.playedOut = s := by
  rw [State.playedOut, h, runOps_nil]

theorem traceInv_rest {v : VState} {s : State} (h : s.seq.ops = []) : TraceInv v s ↔ s.TraceSettled v := by
  rw [traceInv_iff, State.playedOut_rest h]

theorem VState.after_append (v : VState) (es es' : List Event) : v.after (es ++ es') = (v.after es).after es' := by
  simp [VState.after]

theorem traceOk_append (v : VState) (es es' : List Event) :
    traceOk v (es ++ es') = (traceOk v es && traceOk (v.after es) es') := by
  induction es generalizing v with
  | nil => simp [traceOk, VState.after]
  | cons e es ih =>
    rw [List.cons_append, traceOk, traceOk, ih, Bool.and_assoc, VState.after, VState.after, List.foldl_cons]

/-- Every operation moves the port as the event it adds to the trace says, if any (R180). -/
theorem doOp_port_follows {v : VState} (o : SeqOp) {s : State} (h : (v.after s.env.trace).port = s.port) :
    (v.after (doOp o s).env.trace).port = (doOp o s).port := by
  have hadd (e : Event) : (v.after (s.env.trace ++ [e])).port = s.port.apply e.op := by
    rw [VState.after_append, ← h]
    rfl
  cases o
  case crcSeed => exact h
  case crcUpdate b => exact h
  case tx b => exact h
  all_goals exact hadd _

theorem runOps_port_follows {v : VState} (os : List SeqOp) {s : State} (h : (v.after s.env.trace).port = s.port) :
    (v.after (runOps os s).env.trace).port = (runOps os s).port := by
  induction os generalizing s with
  | nil => exact h
  | cons o os ih => exact ih (doOp_port_follows o h)

/-- From `e` to `e'` the trace and the time went on by micro-operations that pass the check from between handlers to
between handlers. -/
def Env.Plays (e e' : Env) : Prop :=
  ∃ os, Abs.idle.run os = some Abs.idle ∧
    e'.trace = e.trace ++ stamp Config.freeAdvance e.draws e.now os ∧
    e'.now = timeAfter Config.freeAdvance e.draws e.now os

theorem Env.Plays.of_eq {e e' : Env} (htrace : e'.trace = e.trace) (hnow : e'.now = e.now) : e.Plays e' :=
  ⟨[], rfl, by simp [htrace], hnow⟩

theorem Env.plays_played {e : Env} {os : List MicroOp} (h : Abs.idle.run os = some Abs.idle) (n : Nat) (lo hi : Byte) :
    e.Plays (e.played os n lo hi) :=
  ⟨os, h, rfl, rfl⟩

/-- Every phase is a response, which does not touch the chip port, or a handler's chip-port part, whose trace passes
the check (R192 to R195, R240). -/
theorem Phase.plays (p : Phase) {s : State} (hw : s.buf.wf) : s.env.Plays (runOps p.ops s).env := by
  cases p with
  | ack => rw [Phase.ops, runOps_ackOps]; exact .of_eq rfl rfl
  | err c => rw [Phase.ops, runOps_errOps]; exact .of_eq rfl rfl
  | ident => rw [Phase.ops, identOps, runOps_literalOps]; exact .of_eq rfl rfl
  | page => rw [Phase.ops, runOps_streamPage]; exact .of_eq rfl rfl
  | done => rw [Phase.ops, doneOps, runOps_literalOps]; exact .of_eq rfl rfl
  | body c =>
    cases c with
    | identify => exact .of_eq rfl rfl
    | read =>
      rw [Phase.ops, bodyOps, runOps_readOps s hw]
      exact Env.plays_played (run_readTrace _ _ _) _ _ _
    | write =>
      have hdata : s.buf.dataAt offsets ≠ [] := by simp [Memory.dataAt, ← List.length_pos_iff]
      rw [Phase.ops, bodyOps, runOps_writeOps]
      exact Env.plays_played (run_writeTrace _ _ _ hdata) _ _ _
    | fastDump =>
      rw [Phase.ops, bodyOps, runOps_fastDumpOps s hw]
      exact Env.plays_played (run_fastDumpTrace _ _) _ _ _

/-- A phase that starts with the trace settled leaves it settled (`traceOk_of_run`). -/
theorem runOps_phase_traceSettled {v : VState} (p : Phase) {s : State} (hw : s.buf.wf) (h : s.TraceSettled v) :
    (runOps p.ops s).TraceSettled v := by
  obtain ⟨os, hrun, htrace, hnow⟩ := p.plays hw
  obtain ⟨hok, hat⟩ := traceOk_of_run Config.freeAdvance os (n := s.env.draws)
    ((VState.settled_iff _ _).mp h.settled) hrun
  refine ⟨?_, runOps_port_follows _ h.port, ?_⟩
  · rw [htrace, traceOk_append, h.ok, hok]
    rfl
  · rw [htrace, hnow, VState.after_append, VState.settled_iff]
    exact hat

theorem runOps_phases_traceSettled {v : VState} (ps : List Phase) {s : State} (hw : s.buf.wf)
    (h : s.TraceSettled v) : (runOps (ps.flatMap Phase.ops) s).TraceSettled v := by
  induction ps generalizing s with
  | nil => exact h
  | cons p ps ih =>
    rw [List.flatMap_cons, runOps_append]
    exact ih (runOps_bufWf _ _ hw) (runOps_phase_traceSettled p hw h)

/-- However far a resumption runs, what has been done with what is left is what was left before. -/
theorem resume_traceInv {v : VState} {s : State} (h : TraceInv v s) : TraceInv v (resume s) := by
  rw [traceInv_iff] at h
  rcases resume_cases s with hr | ⟨n, -, -, hr⟩
  · rw [hr, traceInv_rest (by rfl), runOps_setCuts]
    exact h.congr rfl rfl rfl
  · have hplayed : (resume s).playedOut = (s.playedOut.setCuts s.env.cuts.tail).setSeq (s.seq.drop n) := by
      rw [State.playedOut, hr, State.setSeq_seq, Seq.drop_ops, runOps_setSeq, runOps_setCuts, runOps_setCuts,
        ← runOps_append, List.take_append_drop, State.playedOut]
    rw [traceInv_iff, hplayed]
    exact h.congr rfl rfl rfl

/-- The processing of a completed frame begins with the trace settled. -/
theorem startPhases_traceInv {v : VState} (ps : List Phase) {s : State} (hw : s.buf.wf) (h : s.TraceSettled v) :
    TraceInv v (startPhases ps s) := by
  refine resume_traceInv ((traceInv_iff _ _).mpr ?_)
  exact runOps_phases_traceSettled ps (by exact hw) (h.congr rfl rfl rfl)

/-- The end of a byte that completed no frame leaves nothing to do and moves no line. -/
theorem settle_traceInv {v : VState} {s : State} (hq : s.seq.ops = []) (h : s.TraceSettled v) :
    TraceInv v (settle s) := by
  have hrest : (settle s).seq.ops = [] := by
    rcases settle_cases s with hs | hs <;> rw [hs]
    · exact hq
    · rfl
  rw [traceInv_rest hrest]
  exact h.congr (by rw [settle_env]) (settle_port s) (by rw [settle_env])

/-- One byte keeps the trace valid: it moves no line, or it begins the processing of a completed frame. -/
theorem rxByte_traceInv {v : VState} {b : Byte} {s t : State} (hi : Inv s) (hb : s.busy = false)
    (h : s.TraceSettled v) (hstep : rxByte b s = .next t) : TraceInv v t := by
  have hq : s.seq.ops = [] := by rw [(hi.idleSafe hb).2, Seq.none_ops]
  rcases rxByte_cases b hi hb with ⟨-, ⟨c, -, hr⟩ | ⟨-, hr⟩⟩ | ⟨-, -, hr⟩ | ⟨hf, -, w, -, hr⟩ <;>
    obtain rfl := Host.Outcome.next.inj (hr.symm.trans hstep)
  · exact settle_traceInv hq (h.congr rfl rfl rfl)
  · exact settle_traceInv hq (h.congr rfl rfl rfl)
  · exact settle_traceInv hq (h.congr rfl rfl rfl)
  · have hwf : (s.buf.put s.receivedLen.toNat b).wf :=
      Memory.wf_put b hi.bufWf ((hi.count_lt hb hf).trans_le (hi.expectedLen_bounds hb hf).2)
    exact startPhases_traceInv _ hwf (h.congr rfl rfl rfl)

theorem takeBytes_traceInv {v : VState} (n : Nat) {s t : State} (hi : Inv s) (h : TraceInv v s)
    (hstep : takeBytes n s = .next t) : TraceInv v t := by
  induction n generalizing s with
  | zero =>
    cases hstep
    exact h
  | succ n ih =>
    cases hb : s.busy with
    | true =>
      rw [takeBytes_busy _ hb] at hstep
      cases hstep
      exact h
    | false =>
      cases hrx : s.env.rx with
      | nil =>
        rw [takeBytes_nil _ hrx] at hstep
        cases hstep
        exact h
      | cons b rest =>
        rw [takeBytes_cons n hb hrx] at hstep
        obtain ⟨u, hbyte, hmore⟩ := andThen_eq_next hstep
        have hrest : s.seq.ops = [] := by rw [(hi.idleSafe hb).2, Seq.none_ops]
        have hs : (s.setRx rest).TraceSettled v := ((traceInv_rest hrest).mp h).congr rfl rfl rfl
        exact ih (inv_of_rxByte (inv_setRx hi rest) hb hbyte) (rxByte_traceInv (inv_setRx hi rest) hb hs hbyte) hmore

/-- Settles O50: a step goes on with the processing in progress, which the hypothesis already covers to its end
(`resume_traceInv`), or it accepts bytes with the trace settled (`takeBytes_traceInv`). -/
theorem stepKeepsTheTraceValid : Obligations.StepKeepsTheTraceValid := by
  unfold Obligations.StepKeepsTheTraceValid
  intro v s t hi h hr hstep
  cases hb : s.busy with
  | true =>
    obtain ⟨q, hgo, -, -, -, -, hrun⟩ := step_busy hr hb
    rw [hgo] at hstep
    cases hstep
    have hplayed : (s.setSeq q).playedOut = s.playedOut.setSeq q := by
      rw [State.playedOut, State.setSeq_seq, runOps_setSeq, hrun, State.playedOut]
    refine resume_traceInv ((traceInv_iff _ _).mpr ?_)
    rw [hplayed]
    exact ((traceInv_iff _ _).mp h).congr rfl rfl rfl
  | false =>
    obtain ⟨k, -, hgo⟩ := step_ready hr hb
    exact takeBytes_traceInv k hi h (hgo ▸ hstep)

end Sys2Proof.Machine

/-! PROOFS. The statements of 44_transition_validator.md: the handlers' traces are valid, valid traces never contend,
and the table of R239 implies the conditions. -/

namespace Sys2Proof.Machine

/-! ### The handlers' traces (R240) -/

theorem VState.At.safe {v : VState} {t : Nat} (h : v.At t Abs.idle) : v.port.safe :=
  (Port.safe_iff_lines _).mpr h.lines

/-- The check passes the trace of each handler, from between handlers to between handlers (R192 to R195, R240). -/
theorem run_handlerTraces (lo hi : Byte) {page : List Byte} (h : page ≠ []) :
    ∀ os ∈ [identifyTrace, readTrace lo hi page, writeTrace lo hi page, fastDumpTrace lo page],
      Abs.idle.run os = some Abs.idle := by
  simp only [List.forall_mem_cons]
  exact ⟨rfl, run_readTrace lo hi page, run_writeTrace lo hi page h, run_fastDumpTrace lo page, nofun⟩

/-- Settles O49: each trace passes the check (`run_handlerTraces`), and the check is sound (`traceOk_of_run`). -/
theorem handlerTracesAreValid : Obligations.HandlerTracesAreValid := by
  unfold Obligations.HandlerTracesAreValid
  intro v adv n t lo hi page hv hpage os hos
  have hne : page ≠ [] := List.ne_nil_of_length_pos (by omega)
  have hat : v.At t Abs.idle := (v.settled_iff t).mp hv
  obtain ⟨hok, hend⟩ := traceOk_of_run adv os (n := n) hat (run_handlerTraces lo hi hne os hos)
  exact ⟨⟨hat.safe, hok, hend.safe⟩, (VState.settled_iff _ _).mpr hend⟩

/-! ### No contention (R231 to R233, R241) -/

@[simp] theorem Line.off_iff (l : Line) : l.off = true ↔ l = .inactive := decide_eq_true_iff

theorem Line.inactive_of_ne_active {l : Line} (h : l ≠ .active) : l = .inactive := by
  cases l with
  | inactive => rfl
  | active => exact absurd rfl h

/-- The block does not drive the data bus under output-enable, and does not read and program at once (R241). -/
def Port.Uncontended (p : Port) : Prop :=
  ¬ (p.dataDir = .output ∧ p.oe = .active) ∧ ¬ (p.oe = .active ∧ p.pgm = .active)

theorem Port.uncontended_of_safe {p : Port} (h : p.safe) : p.Uncontended := by
  obtain ⟨-, hoe, -, -, -, -⟩ := h
  simp [Port.Uncontended, hoe]

/-- Only the operations on output-enable, program-enable and the data direction could bring contention about, and V1,
V2 and V3 ask them for what rules it out. -/
theorem Port.Uncontended.apply {p : Port} {o : MicroOp} (h : p.Uncontended) (h1 : condV1 p o = true)
    (h2 : condV2 p o = true) (h3 : condV3 p o = true) : (p.apply o).Uncontended := by
  cases o
  case setOE x =>
    cases x with
    | inactive => simp [Port.Uncontended, Port.apply]
    | active =>
      have hdir : p.dataDir = .input := by simpa [condV1] using h1
      have hpgm : p.pgm = .inactive := by simpa [condV3] using (Bool.and_eq_true_iff.mp h3).2
      simp [Port.Uncontended, Port.apply, hdir, hpgm]
  case setPGM x =>
    cases x with
    | inactive => exact ⟨h.1, by simp [Port.apply]⟩
    | active =>
      simp only [condV2, Bool.and_eq_true, Line.off_iff] at h2
      obtain ⟨⟨⟨⟨⟨-, hoe⟩, -⟩, -⟩, -⟩, -⟩ := h2
      simp [Port.Uncontended, Port.apply, hoe]
  case setDataDir d =>
    cases d with
    | input => exact ⟨by simp [Port.apply], h.2⟩
    | output =>
      have hoe : p.oe = .inactive := by simpa [condV1] using h1
      simp [Port.Uncontended, Port.apply, hoe]
  all_goals exact h

theorem stepOk_iff (v : VState) (e : Event) :
    stepOk v e = true ↔
      condV1 v.port e.op ∧ condV2 v.port e.op ∧ condV3 v.port e.op ∧ condV4 v e ∧ condV5 v.port e.op ∧ condV6 v e ∧
        condV7 v.port e.op := by
  simp only [stepOk, Bool.and_eq_true, and_assoc]

/-- A trace that meets the conditions brings no contention about. -/
theorem uncontended_after {v : VState} (es : List Event) (h : v.port.Uncontended) (hok : traceOk v es = true) :
    (v.after es).port.Uncontended := by
  induction es generalizing v with
  | nil => exact h
  | cons e es ih =>
    obtain ⟨hstep, hrest⟩ := Bool.and_eq_true_iff.mp hok
    obtain ⟨h1, h2, h3, -⟩ := (stepOk_iff v e).mp hstep
    exact ih (h.apply h1 h2 h3) hrest

theorem traceOk_take {v : VState} {es : List Event} (h : traceOk v es = true) (n : Nat) :
    traceOk v (es.take n) = true := by
  rw [← List.take_append_drop n es, traceOk_append, Bool.and_eq_true] at h
  exact h.1

/-- Settles O51: what comes before any point of a valid trace meets the conditions too (`traceOk_take`), so no
contention has come about by then (`uncontended_after`). -/
theorem validTracesNeverContend : Obligations.ValidTracesNeverContend := by
  unfold Obligations.ValidTracesNeverContend
  intro v es hsafe hok n
  exact uncontended_after _ (Port.uncontended_of_safe hsafe) (traceOk_take hok n)

/-! ### The table of R239 -/

section
variable {v : VState} {e : Event}

theorem condV1_of_tableOk (h : tableOk v e = true) : condV1 v.port e.op = true := by
  obtain ⟨time, op⟩ := e
  cases op
  case setOE x =>
    cases x with
    | inactive => rfl
    | active => exact Bool.and_elim_right h
  case setDataDir d =>
    cases d with
    | input => rfl
    | output => exact Bool.and_elim_left (Bool.and_elim_left h)
  all_goals rfl

theorem condV3_of_tableOk (h : tableOk v e = true) : condV3 v.port e.op = true := by
  obtain ⟨time, op⟩ := e
  cases op
  case setOE x =>
    cases x with
    | inactive => rfl
    | active => exact Bool.and_elim_left h
  case setCE x =>
    cases x with
    | inactive => exact Bool.and_elim_left h
    | active => rfl
  all_goals rfl

theorem condV4_of_tableOk (h : tableOk v e = true) : condV4 v e = true := by
  obtain ⟨time, op⟩ := e
  cases op
  case capture k d =>
    simp only [tableOk, Bool.and_eq_true] at h
    obtain ⟨⟨⟨⟨⟨⟨hce, hoe⟩, hpgm⟩, hlle⟩, hhle⟩, hdir⟩, htime⟩ := h
    simp [condV4, hce, hoe, hpgm, hlle, hhle, hdir, htime]
  all_goals rfl

theorem condV5_of_tableOk (h : tableOk v e = true) : condV5 v.port e.op = true := by
  obtain ⟨time, op⟩ := e
  cases op
  case setAddrLo b | setAddrHi b | setData b | setDataDir d => exact Bool.and_elim_left h
  case setLLE x | setHLE x =>
    cases x with
    | inactive => exact h
    | active =>
      simp only [tableOk, Bool.and_eq_true] at h
      obtain ⟨⟨⟨-, hoe⟩, hpgm⟩, -⟩ := h
      simp [condV5, hoe, hpgm]
  all_goals rfl

/-- V2 freezes nothing where program-enable is inactive. The rows that ask for no such thing are those of operations it
does not freeze, and that of `SetOE(inactive)`: there output-enable is inactive already if program-enable is active. -/
theorem condV2_of_tableOk (hx : ¬ (v.port.oe = .active ∧ v.port.pgm = .active)) (h : tableOk v e = true) :
    condV2 v.port e.op = true := by
  obtain ⟨time, op⟩ := e
  cases op
  case setCE x =>
    cases x with
    | inactive => exact condV2_off ((Line.off_iff _).mp (Bool.and_elim_right (Bool.and_elim_left h))) nofun
    | active => exact condV2_off ((Line.off_iff _).mp (Bool.and_elim_left h)) nofun
  case setOE x =>
    cases x with
    | inactive =>
      cases hpgm : v.port.pgm with
      | inactive => exact condV2_off hpgm nofun
      | active =>
        have hoe : v.port.oe = .inactive := Line.inactive_of_ne_active fun hoe => hx ⟨hoe, hpgm⟩
        simp [condV2, Port.disturbs, Port.changes, Port.apply, hoe]
    | active => exact condV2_off ((Line.off_iff _).mp (Bool.and_elim_right (Bool.and_elim_left h))) nofun
  case setPGM x =>
    cases x with
    | inactive => simp [condV2, Port.disturbs, Port.changes, Port.apply]
    | active =>
      simp only [tableOk, Bool.and_eq_true] at h
      obtain ⟨⟨⟨⟨⟨hce, hoe⟩, hlle⟩, hhle⟩, hdir⟩, -⟩ := h
      simp [condV2, hce, hoe, hlle, hhle, hdir, Port.disturbs, Port.changes, Port.apply]
  case wait n | capture k d => simp [condV2, Port.disturbs, Port.changes, Port.apply]
  case setAddrLo b | setAddrHi b | setData b | setDataDir d | setLLE x | setHLE x =>
    exact condV2_off ((Line.off_iff _).mp (Bool.and_elim_right (condV5_of_tableOk h))) nofun

/-- The rows that do not ask for the hold time are those of operations it does not concern. -/
theorem hold_of_tableOk (h : tableOk v e = true) : hold v e = true := by
  obtain ⟨time, op⟩ := e
  cases op
  case setCE x => cases x <;> exact Bool.and_elim_right h
  case setAddrLo b | setAddrHi b | setData b | setDataDir d => exact Bool.and_elim_right h
  all_goals simp [hold, Port.changes, Port.apply]

theorem setUp_of_tableOk (h : tableOk v e = true) : setUp v e = true := by
  obtain ⟨time, op⟩ := e
  cases op
  case setPGM x =>
    cases x with
    | inactive => rfl
    | active => exact Bool.and_elim_right h
  all_goals rfl

theorem width_of_tableOk (h : tableOk v e = true) : width v e = true := by
  obtain ⟨time, op⟩ := e
  cases op
  case setPGM x =>
    cases x with
    | inactive => exact h
    | active => rfl
  all_goals rfl

theorem condV6_of_tableOk (h : tableOk v e = true) : condV6 v e = true := by
  simp [condV6, setUp_of_tableOk h, width_of_tableOk h, hold_of_tableOk h]

theorem condV7_of_tableOk (h : tableOk v e = true) : condV7 v.port e.op = true := by
  obtain ⟨time, op⟩ := e
  cases op
  case setLLE x | setHLE x =>
    cases x with
    | inactive => rfl
    | active => exact h
  all_goals rfl

end

/-- Settles O52, a condition each; only V2 needs output-enable and program-enable not to be active together. -/
theorem tableRowsMeetTheConditions : Obligations.TableRowsMeetTheConditions := by
  unfold Obligations.TableRowsMeetTheConditions
  intro v e hx h
  exact ⟨condV1_of_tableOk h, condV2_of_tableOk hx h, condV3_of_tableOk h, condV4_of_tableOk h, condV5_of_tableOk h,
    condV6_of_tableOk h, condV7_of_tableOk h⟩

end Sys2Proof.Machine

/-! PROOFS. The statement of 60_exceptions.md: nothing happens without a byte. -/

namespace Sys2Proof.Machine

/-- Settles O16: with no byte in process a step accepts offered bytes only (`step_ready`), and none is offered
(`takeBytes_nil`). -/
theorem nothingHappensWithoutAByte : Obligations.NothingHappensWithoutAByte := by
  unfold Obligations.NothingHappensWithoutAByte
  intro s hr hb hrx
  obtain ⟨k, -, hstep⟩ := step_ready hr hb
  exact hstep.trans (takeBytes_nil k hrx)

end Sys2Proof.Machine
